-- ==== Sys2Proof/Word.lean ====
section
/-! DEFINITION. The word types of the machine (spec/00_scope.md R6): 8-bit data, 16-bit CPU addresses. -/

namespace Sys2Proof

/-- An 8-bit value: a data register, a memory cell, an operand byte (R6). -/
abbrev Byte := BitVec 8

/-- A 16-bit value: the program counter or a CPU address (R6). -/
abbrev Word := BitVec 16

end Sys2Proof
end

