-- ==== Sys2Proof/Syntax.lean ====
section
/-! DEFINITION. Instructions as syntax. An instruction is an operation with an addressing-mode strategy
(spec/30_encoding.md R121): one constructor per mnemonic of spec/opcode_table.json, its table rows being the operand
forms of that constructor, and a constructor of their own for the undocumented NOPs, the second SBC encoding and the
unmapped bytes (log 1). Operand bytes stay as they are fetched, `op1` and `op2` (R10, R120). -/

namespace Sys2Proof

/-- The addressing modes that name a memory cell (40_addressing_modes.md R144 to R149, R151, R152). -/
inductive MemMode where
  | zeroPage  (op1 : Byte)
  | zeroPageX (op1 : Byte)
  | zeroPageY (op1 : Byte)
  | absolute  (op1 op2 : Byte)
  | absoluteX (op1 op2 : Byte)
  | absoluteY (op1 op2 : Byte)
  | indirectX (op1 : Byte)
  | indirectY (op1 : Byte)
  deriving DecidableEq, Repr

/-- The operand of an instruction that reads a value: an immediate byte (R143) or a memory cell. -/
inductive ReadMode where
  | immediate (op1 : Byte)
  | mem (m : MemMode)
  deriving DecidableEq, Repr

/-- The operand of a shift or rotate: the accumulator (R142) or a memory cell. -/
inductive ShiftMode where
  | accumulator
  | mem (m : MemMode)
  deriving DecidableEq, Repr

/-- The operand of JMP: the target itself (Absolute_Jmp, R154) or a pointer to it (Indirect, R150). -/
inductive JumpMode where
  | absoluteJmp (op1 op2 : Byte)
  | indirect    (op1 op2 : Byte)
  deriving DecidableEq, Repr

/-- The operand of an undocumented NOP (46_undocumented.md R259). -/
inductive NopMode where
  | implied
  | immediate (op1 : Byte)
  | mem (m : MemMode)
  deriving DecidableEq, Repr

/-- The instructions (30_encoding.md R126 to R128). -/
inductive Instr where
  -- load, store, transfer (41_load_store_transfer.md)
  | lda (m : ReadMode)
  | ldx (m : ReadMode)
  | ldy (m : ReadMode)
  | sta (m : MemMode)
  | stx (m : MemMode)
  | sty (m : MemMode)
  | tax
  | tay
  | txa
  | tya
  | tsx
  | txs
  -- arithmetic, logic, compare, increment, decrement (42_arithmetic_logic.md)
  | adc (m : ReadMode)
  | sbc (m : ReadMode)
  | and (m : ReadMode)
  | ora (m : ReadMode)
  | eor (m : ReadMode)
  | cmp (m : ReadMode)
  | cpx (m : ReadMode)
  | cpy (m : ReadMode)
  | bit (m : MemMode)
  | inc (m : MemMode)
  | dec (m : MemMode)
  | inx
  | iny
  | dex
  | dey
  -- shift, rotate (43_shift_rotate.md)
  | asl (m : ShiftMode)
  | lsr (m : ShiftMode)
  | rol (m : ShiftMode)
  | ror (m : ShiftMode)
  -- jumps, calls, branches (44_control_flow.md)
  | jmp (m : JumpMode)
  | jsr (op1 op2 : Byte)
  | rts
  | bcc (op1 : Byte)
  | bcs (op1 : Byte)
  | beq (op1 : Byte)
  | bne (op1 : Byte)
  | bmi (op1 : Byte)
  | bpl (op1 : Byte)
  | bvc (op1 : Byte)
  | bvs (op1 : Byte)
  -- stack, flags, system (45_stack_flags_system.md)
  | pha
  | pla
  | php
  | plp
  | clc
  | sec
  | cli
  | sei
  | clv
  | cld
  | sed
  | nop
  | brk
  | rti
  -- undocumented (46_undocumented.md)
  | slo (m : MemMode)
  | rla (m : MemMode)
  | sre (m : MemMode)
  | rra (m : MemMode)
  | sax (m : MemMode)
  | lax (m : MemMode)
  | dcp (m : MemMode)
  | isb (m : MemMode)
  /-- the 27 undocumented NOP encodings, with the opcode byte that was read (R259) -/
  | nopUndoc (opcode : Byte) (m : NopMode)
  /-- SBC immediate in its second encoding, 0xEB (R260) -/
  | sbcUndoc (op1 : Byte)
  /-- one of the 25 opcode bytes with no instruction (R127, R261) -/
  | unmapped (opcode : Byte)
  deriving DecidableEq, Repr

end Sys2Proof
end

