-- ==== Sys2Proof/WellFormed.lean ====
section
/-! DEFINITION. Which terms of `Instr` are instructions of the machine: those whose operand form the Encoding line of the
mnemonic's rule lists (spec files 41 to 46), and for a constructor that carries its opcode byte, those whose byte the rule
lists for that form. -/

namespace Sys2Proof

/-- A memory addressing mode without its operand bytes. -/
inductive MemKind where
  | zeroPage | zeroPageX | zeroPageY | absolute | absoluteX | absoluteY | indirectX | indirectY
  deriving DecidableEq, Repr

def MemMode.kind : MemMode → MemKind
  | .zeroPage _ => .zeroPage
  | .zeroPageX _ => .zeroPageX
  | .zeroPageY _ => .zeroPageY
  | .absolute _ _ => .absolute
  | .absoluteX _ _ => .absoluteX
  | .absoluteY _ _ => .absoluteY
  | .indirectX _ => .indirectX
  | .indirectY _ => .indirectY

/-- LDA, STA, ADC, SBC, AND, ORA, EOR, CMP (R160, R163, R181 to R186) and the seven forms of SLO, RLA, SRE, RRA, DCP, ISB
(R251 to R254, R257, R258). -/
def fullKinds : List MemKind :=
  [.zeroPage, .zeroPageX, .absolute, .absoluteX, .absoluteY, .indirectX, .indirectY]

/-- LDX (R161). -/
def ldxKinds : List MemKind := [.zeroPage, .zeroPageY, .absolute, .absoluteY]

/-- LDY (R162). -/
def ldyKinds : List MemKind := [.zeroPage, .zeroPageX, .absolute, .absoluteX]

/-- STX (R164). -/
def stxKinds : List MemKind := [.zeroPage, .zeroPageY, .absolute]

/-- STY (R165). -/
def styKinds : List MemKind := [.zeroPage, .zeroPageX, .absolute]

/-- CPX, CPY, BIT (R187 to R189). -/
def plainKinds : List MemKind := [.zeroPage, .absolute]

/-- INC, DEC and the memory forms of ASL, LSR, ROL, ROR (R190, R191, R200 to R203). -/
def rmwKinds : List MemKind := [.zeroPage, .zeroPageX, .absolute, .absoluteX]

/-- SAX (R255). -/
def saxKinds : List MemKind := [.indirectX, .zeroPage, .absolute, .zeroPageY]

/-- LAX (R256). -/
def laxKinds : List MemKind := [.indirectX, .zeroPage, .absolute, .indirectY, .zeroPageY, .absoluteY]

/-- The opcode bytes R259 lists for each form of the undocumented NOP. -/
def nopBytes : NopMode → List Byte
  | .implied => [0x1A, 0x3A, 0x5A, 0x7A, 0xDA, 0xFA]
  | .immediate _ => [0x80, 0x82, 0x89, 0xC2, 0xE2]
  | .mem (.zeroPage _) => [0x04, 0x44, 0x64]
  | .mem (.zeroPageX _) => [0x14, 0x34, 0x54, 0x74, 0xD4, 0xF4]
  | .mem (.absolute _ _) => [0x0C]
  | .mem (.absoluteX _ _) => [0x1C, 0x3C, 0x5C, 0x7C, 0xDC, 0xFC]
  | .mem (.zeroPageY _) => []
  | .mem (.absoluteY _ _) => []
  | .mem (.indirectX _) => []
  | .mem (.indirectY _) => []

/-- The 25 unmapped bytes (R127, R261). -/
def unmappedBytes : List Byte :=
  [0x02, 0x12, 0x22, 0x32, 0x42, 0x52, 0x62, 0x72, 0x92, 0xB2, 0xD2, 0xF2, 0x0B, 0x2B, 0x4B, 0x6B, 0x8B,
   0x93, 0x9F, 0x9B, 0x9C, 0x9E, 0xAB, 0xBB, 0xCB]

def MemMode.among (m : MemMode) (ks : List MemKind) : Bool := ks.contains m.kind

def ReadMode.among : ReadMode → List MemKind → Bool
  | .immediate _, _ => true
  | .mem m, ks => m.among ks

def ShiftMode.among : ShiftMode → List MemKind → Bool
  | .accumulator, _ => true
  | .mem m, ks => m.among ks

/-- The term is an instruction the opcode table has. -/
def Instr.wellFormed : Instr → Bool
  | .lda m => m.among fullKinds
  | .ldx m => m.among ldxKinds
  | .ldy m => m.among ldyKinds
  | .sta m => m.among fullKinds
  | .stx m => m.among stxKinds
  | .sty m => m.among styKinds
  | .tax => true
  | .tay => true
  | .txa => true
  | .tya => true
  | .tsx => true
  | .txs => true
  | .adc m => m.among fullKinds
  | .sbc m => m.among fullKinds
  | .and m => m.among fullKinds
  | .ora m => m.among fullKinds
  | .eor m => m.among fullKinds
  | .cmp m => m.among fullKinds
  | .cpx m => m.among plainKinds
  | .cpy m => m.among plainKinds
  | .bit m => m.among plainKinds
  | .inc m => m.among rmwKinds
  | .dec m => m.among rmwKinds
  | .inx => true
  | .iny => true
  | .dex => true
  | .dey => true
  | .asl m => m.among rmwKinds
  | .lsr m => m.among rmwKinds
  | .rol m => m.among rmwKinds
  | .ror m => m.among rmwKinds
  | .jmp _ => true
  | .jsr _ _ => true
  | .rts => true
  | .bcc _ => true
  | .bcs _ => true
  | .beq _ => true
  | .bne _ => true
  | .bmi _ => true
  | .bpl _ => true
  | .bvc _ => true
  | .bvs _ => true
  | .pha => true
  | .pla => true
  | .php => true
  | .plp => true
  | .clc => true
  | .sec => true
  | .cli => true
  | .sei => true
  | .clv => true
  | .cld => true
  | .sed => true
  | .nop => true
  | .brk => true
  | .rti => true
  | .slo m => m.among fullKinds
  | .rla m => m.among fullKinds
  | .sre m => m.among fullKinds
  | .rra m => m.among fullKinds
  | .sax m => m.among saxKinds
  | .lax m => m.among laxKinds
  | .dcp m => m.among fullKinds
  | .isb m => m.among fullKinds
  | .nopUndoc opcode m => (nopBytes m).contains opcode
  | .sbcUndoc _ => true
  | .unmapped opcode => unmappedBytes.contains opcode

end Sys2Proof
end

