-- ==== Sys2Proof/Decode.lean ====
section
/-! DEFINITION. Decoding and encoding. The decoder reads the opcode table of spec/30_encoding.md R126 (`opcodeTable`, one
row per opcode byte); the encoder is written from the Encoding lines of the instructions' own rules (spec files 41 to 46), so
that the two can be held against each other. -/

namespace Sys2Proof

/-- One row of the opcode table (R121, R126): how many bytes the instruction has, its base cycle count, whether the row is
marked `+` (R156), whether it is an instruction at all (R127), and the instruction its operand bytes `op1`, `op2` make. -/
structure Row where
  length  : Nat
  cycles  : Nat
  penalty : Bool
  mapped  : Bool
  build   : Byte → Byte → Instr

/-- Implied and Accumulator: length 1 (R124). -/
def Row.impl (i : Instr) (c : Nat) : Row := ⟨1, c, false, true, fun _ _ => i⟩

/-- Immediate and Relative: length 2, `op1` the value or the offset (R120, R124). -/
def Row.imm (f : Byte → Instr) (c : Nat) : Row := ⟨2, c, false, true, fun a _ => f a⟩

/-- Absolute_Jmp and Indirect: length 3 (R124). -/
def Row.wide (f : Byte → Byte → Instr) (c : Nat) : Row := ⟨3, c, false, true, f⟩

/-- Zero_Page: length 2. -/
def Row.zp (f : MemMode → Instr) (c : Nat) : Row := ⟨2, c, false, true, fun a _ => f (.zeroPage a)⟩

/-- Zero_Page_X: length 2. -/
def Row.zpX (f : MemMode → Instr) (c : Nat) : Row := ⟨2, c, false, true, fun a _ => f (.zeroPageX a)⟩

/-- Zero_Page_Y: length 2. -/
def Row.zpY (f : MemMode → Instr) (c : Nat) : Row := ⟨2, c, false, true, fun a _ => f (.zeroPageY a)⟩

/-- Absolute: length 3. -/
def Row.abs (f : MemMode → Instr) (c : Nat) : Row := ⟨3, c, false, true, fun a b => f (.absolute a b)⟩

/-- Absolute_X: length 3. -/
def Row.absX (f : MemMode → Instr) (c : Nat) : Row := ⟨3, c, false, true, fun a b => f (.absoluteX a b)⟩

/-- Absolute_X in a row marked `+`. -/
def Row.absXP (f : MemMode → Instr) (c : Nat) : Row := ⟨3, c, true, true, fun a b => f (.absoluteX a b)⟩

/-- Absolute_Y: length 3. -/
def Row.absY (f : MemMode → Instr) (c : Nat) : Row := ⟨3, c, false, true, fun a b => f (.absoluteY a b)⟩

/-- Absolute_Y in a row marked `+`. -/
def Row.absYP (f : MemMode → Instr) (c : Nat) : Row := ⟨3, c, true, true, fun a b => f (.absoluteY a b)⟩

/-- Indirect_X: length 2. -/
def Row.indX (f : MemMode → Instr) (c : Nat) : Row := ⟨2, c, false, true, fun a _ => f (.indirectX a)⟩

/-- Indirect_Y: length 2. -/
def Row.indY (f : MemMode → Instr) (c : Nat) : Row := ⟨2, c, false, true, fun a _ => f (.indirectY a)⟩

/-- Indirect_Y in a row marked `+`. -/
def Row.indYP (f : MemMode → Instr) (c : Nat) : Row := ⟨2, c, true, true, fun a _ => f (.indirectY a)⟩

/-- An unmapped byte: no operand byte is read (R127, R261). -/
def Row.none (opcode : Byte) : Row := ⟨1, 0, false, false, fun _ _ => .unmapped opcode⟩

/-- Opcode bytes 0x00 to 0x0F. -/
def opcodeRows0 : List Row := [
  .impl .brk 7,
  .indX (fun m => .ora (.mem m)) 6,
  .none 0x02,
  .indX .slo 8,
  .zp (fun m => .nopUndoc 0x04 (.mem m)) 3,
  .zp (fun m => .ora (.mem m)) 3,
  .zp (fun m => .asl (.mem m)) 5,
  .zp .slo 5,
  .impl .php 3,
  .imm (fun a => .ora (.immediate a)) 2,
  .impl (.asl .accumulator) 2,
  .none 0x0B,
  .abs (fun m => .nopUndoc 0x0C (.mem m)) 4,
  .abs (fun m => .ora (.mem m)) 4,
  .abs (fun m => .asl (.mem m)) 6,
  .abs .slo 6]

/-- Opcode bytes 0x10 to 0x1F. -/
def opcodeRows1 : List Row := [
  .imm .bpl 2,
  .indYP (fun m => .ora (.mem m)) 5,
  .none 0x12,
  .indY .slo 8,
  .zpX (fun m => .nopUndoc 0x14 (.mem m)) 4,
  .zpX (fun m => .ora (.mem m)) 4,
  .zpX (fun m => .asl (.mem m)) 6,
  .zpX .slo 6,
  .impl .clc 2,
  .absYP (fun m => .ora (.mem m)) 4,
  .impl (.nopUndoc 0x1A .implied) 2,
  .absY .slo 7,
  .absXP (fun m => .nopUndoc 0x1C (.mem m)) 4,
  .absXP (fun m => .ora (.mem m)) 4,
  .absX (fun m => .asl (.mem m)) 7,
  .absX .slo 7]

/-- Opcode bytes 0x20 to 0x2F. -/
def opcodeRows2 : List Row := [
  .wide .jsr 6,
  .indX (fun m => .and (.mem m)) 6,
  .none 0x22,
  .indX .rla 8,
  .zp .bit 3,
  .zp (fun m => .and (.mem m)) 3,
  .zp (fun m => .rol (.mem m)) 5,
  .zp .rla 5,
  .impl .plp 4,
  .imm (fun a => .and (.immediate a)) 2,
  .impl (.rol .accumulator) 2,
  .none 0x2B,
  .abs .bit 4,
  .abs (fun m => .and (.mem m)) 4,
  .abs (fun m => .rol (.mem m)) 6,
  .abs .rla 6]

/-- Opcode bytes 0x30 to 0x3F. -/
def opcodeRows3 : List Row := [
  .imm .bmi 2,
  .indYP (fun m => .and (.mem m)) 5,
  .none 0x32,
  .indY .rla 8,
  .zpX (fun m => .nopUndoc 0x34 (.mem m)) 4,
  .zpX (fun m => .and (.mem m)) 4,
  .zpX (fun m => .rol (.mem m)) 6,
  .zpX .rla 6,
  .impl .sec 2,
  .absYP (fun m => .and (.mem m)) 4,
  .impl (.nopUndoc 0x3A .implied) 2,
  .absY .rla 7,
  .absXP (fun m => .nopUndoc 0x3C (.mem m)) 4,
  .absXP (fun m => .and (.mem m)) 4,
  .absX (fun m => .rol (.mem m)) 7,
  .absX .rla 7]

/-- Opcode bytes 0x40 to 0x4F. -/
def opcodeRows4 : List Row := [
  .impl .rti 6,
  .indX (fun m => .eor (.mem m)) 6,
  .none 0x42,
  .indX .sre 8,
  .zp (fun m => .nopUndoc 0x44 (.mem m)) 3,
  .zp (fun m => .eor (.mem m)) 3,
  .zp (fun m => .lsr (.mem m)) 5,
  .zp .sre 5,
  .impl .pha 3,
  .imm (fun a => .eor (.immediate a)) 2,
  .impl (.lsr .accumulator) 2,
  .none 0x4B,
  .wide (fun a b => .jmp (.absoluteJmp a b)) 3,
  .abs (fun m => .eor (.mem m)) 4,
  .abs (fun m => .lsr (.mem m)) 6,
  .abs .sre 6]

/-- Opcode bytes 0x50 to 0x5F. -/
def opcodeRows5 : List Row := [
  .imm .bvc 2,
  .indYP (fun m => .eor (.mem m)) 5,
  .none 0x52,
  .indY .sre 8,
  .zpX (fun m => .nopUndoc 0x54 (.mem m)) 4,
  .zpX (fun m => .eor (.mem m)) 4,
  .zpX (fun m => .lsr (.mem m)) 6,
  .zpX .sre 6,
  .impl .cli 2,
  .absYP (fun m => .eor (.mem m)) 4,
  .impl (.nopUndoc 0x5A .implied) 2,
  .absY .sre 7,
  .absXP (fun m => .nopUndoc 0x5C (.mem m)) 4,
  .absXP (fun m => .eor (.mem m)) 4,
  .absX (fun m => .lsr (.mem m)) 7,
  .absX .sre 7]

/-- Opcode bytes 0x60 to 0x6F. -/
def opcodeRows6 : List Row := [
  .impl .rts 6,
  .indX (fun m => .adc (.mem m)) 6,
  .none 0x62,
  .indX .rra 8,
  .zp (fun m => .nopUndoc 0x64 (.mem m)) 3,
  .zp (fun m => .adc (.mem m)) 3,
  .zp (fun m => .ror (.mem m)) 5,
  .zp .rra 5,
  .impl .pla 4,
  .imm (fun a => .adc (.immediate a)) 2,
  .impl (.ror .accumulator) 2,
  .none 0x6B,
  .wide (fun a b => .jmp (.indirect a b)) 5,
  .abs (fun m => .adc (.mem m)) 4,
  .abs (fun m => .ror (.mem m)) 6,
  .abs .rra 6]

/-- Opcode bytes 0x70 to 0x7F. -/
def opcodeRows7 : List Row := [
  .imm .bvs 2,
  .indYP (fun m => .adc (.mem m)) 5,
  .none 0x72,
  .indY .rra 8,
  .zpX (fun m => .nopUndoc 0x74 (.mem m)) 4,
  .zpX (fun m => .adc (.mem m)) 4,
  .zpX (fun m => .ror (.mem m)) 6,
  .zpX .rra 6,
  .impl .sei 2,
  .absYP (fun m => .adc (.mem m)) 4,
  .impl (.nopUndoc 0x7A .implied) 2,
  .absY .rra 7,
  .absXP (fun m => .nopUndoc 0x7C (.mem m)) 4,
  .absXP (fun m => .adc (.mem m)) 4,
  .absX (fun m => .ror (.mem m)) 7,
  .absX .rra 7]

/-- Opcode bytes 0x80 to 0x8F. -/
def opcodeRows8 : List Row := [
  .imm (fun a => .nopUndoc 0x80 (.immediate a)) 2,
  .indX .sta 6,
  .imm (fun a => .nopUndoc 0x82 (.immediate a)) 2,
  .indX .sax 6,
  .zp .sty 3,
  .zp .sta 3,
  .zp .stx 3,
  .zp .sax 3,
  .impl .dey 2,
  .imm (fun a => .nopUndoc 0x89 (.immediate a)) 2,
  .impl .txa 2,
  .none 0x8B,
  .abs .sty 4,
  .abs .sta 4,
  .abs .stx 4,
  .abs .sax 4]

/-- Opcode bytes 0x90 to 0x9F. -/
def opcodeRows9 : List Row := [
  .imm .bcc 2,
  .indY .sta 6,
  .none 0x92,
  .none 0x93,
  .zpX .sty 4,
  .zpX .sta 4,
  .zpY .stx 4,
  .zpY .sax 4,
  .impl .tya 2,
  .absY .sta 5,
  .impl .txs 2,
  .none 0x9B,
  .none 0x9C,
  .absX .sta 5,
  .none 0x9E,
  .none 0x9F]

/-- Opcode bytes 0xA0 to 0xAF. -/
def opcodeRowsA : List Row := [
  .imm (fun a => .ldy (.immediate a)) 2,
  .indX (fun m => .lda (.mem m)) 6,
  .imm (fun a => .ldx (.immediate a)) 2,
  .indX .lax 6,
  .zp (fun m => .ldy (.mem m)) 3,
  .zp (fun m => .lda (.mem m)) 3,
  .zp (fun m => .ldx (.mem m)) 3,
  .zp .lax 3,
  .impl .tay 2,
  .imm (fun a => .lda (.immediate a)) 2,
  .impl .tax 2,
  .none 0xAB,
  .abs (fun m => .ldy (.mem m)) 4,
  .abs (fun m => .lda (.mem m)) 4,
  .abs (fun m => .ldx (.mem m)) 4,
  .abs .lax 4]

/-- Opcode bytes 0xB0 to 0xBF. -/
def opcodeRowsB : List Row := [
  .imm .bcs 2,
  .indYP (fun m => .lda (.mem m)) 5,
  .none 0xB2,
  .indYP .lax 5,
  .zpX (fun m => .ldy (.mem m)) 4,
  .zpX (fun m => .lda (.mem m)) 4,
  .zpY (fun m => .ldx (.mem m)) 4,
  .zpY .lax 4,
  .impl .clv 2,
  .absYP (fun m => .lda (.mem m)) 4,
  .impl .tsx 2,
  .none 0xBB,
  .absXP (fun m => .ldy (.mem m)) 4,
  .absXP (fun m => .lda (.mem m)) 4,
  .absYP (fun m => .ldx (.mem m)) 4,
  .absYP .lax 4]

/-- Opcode bytes 0xC0 to 0xCF. -/
def opcodeRowsC : List Row := [
  .imm (fun a => .cpy (.immediate a)) 2,
  .indX (fun m => .cmp (.mem m)) 6,
  .imm (fun a => .nopUndoc 0xC2 (.immediate a)) 2,
  .indX .dcp 8,
  .zp (fun m => .cpy (.mem m)) 3,
  .zp (fun m => .cmp (.mem m)) 3,
  .zp .dec 5,
  .zp .dcp 5,
  .impl .iny 2,
  .imm (fun a => .cmp (.immediate a)) 2,
  .impl .dex 2,
  .none 0xCB,
  .abs (fun m => .cpy (.mem m)) 4,
  .abs (fun m => .cmp (.mem m)) 4,
  .abs .dec 6,
  .abs .dcp 6]

/-- Opcode bytes 0xD0 to 0xDF. -/
def opcodeRowsD : List Row := [
  .imm .bne 2,
  .indYP (fun m => .cmp (.mem m)) 5,
  .none 0xD2,
  .indY .dcp 8,
  .zpX (fun m => .nopUndoc 0xD4 (.mem m)) 4,
  .zpX (fun m => .cmp (.mem m)) 4,
  .zpX .dec 6,
  .zpX .dcp 6,
  .impl .cld 2,
  .absYP (fun m => .cmp (.mem m)) 4,
  .impl (.nopUndoc 0xDA .implied) 2,
  .absY .dcp 7,
  .absXP (fun m => .nopUndoc 0xDC (.mem m)) 4,
  .absXP (fun m => .cmp (.mem m)) 4,
  .absX .dec 7,
  .absX .dcp 7]

/-- Opcode bytes 0xE0 to 0xEF. -/
def opcodeRowsE : List Row := [
  .imm (fun a => .cpx (.immediate a)) 2,
  .indX (fun m => .sbc (.mem m)) 6,
  .imm (fun a => .nopUndoc 0xE2 (.immediate a)) 2,
  .indX .isb 8,
  .zp (fun m => .cpx (.mem m)) 3,
  .zp (fun m => .sbc (.mem m)) 3,
  .zp .inc 5,
  .zp .isb 5,
  .impl .inx 2,
  .imm (fun a => .sbc (.immediate a)) 2,
  .impl .nop 2,
  .imm .sbcUndoc 2,
  .abs (fun m => .cpx (.mem m)) 4,
  .abs (fun m => .sbc (.mem m)) 4,
  .abs .inc 6,
  .abs .isb 6]

/-- Opcode bytes 0xF0 to 0xFF. -/
def opcodeRowsF : List Row := [
  .imm .beq 2,
  .indYP (fun m => .sbc (.mem m)) 5,
  .none 0xF2,
  .indY .isb 8,
  .zpX (fun m => .nopUndoc 0xF4 (.mem m)) 4,
  .zpX (fun m => .sbc (.mem m)) 4,
  .zpX .inc 6,
  .zpX .isb 6,
  .impl .sed 2,
  .absYP (fun m => .sbc (.mem m)) 4,
  .impl (.nopUndoc 0xFA .implied) 2,
  .absY .isb 7,
  .absXP (fun m => .nopUndoc 0xFC (.mem m)) 4,
  .absXP (fun m => .sbc (.mem m)) 4,
  .absX .inc 7,
  .absX .isb 7]

/-- The opcode table: the row of byte k is its k-th entry (R126, R129). -/
def opcodeTable : List Row :=
  opcodeRows0 ++ opcodeRows1 ++ opcodeRows2 ++ opcodeRows3 ++ opcodeRows4 ++ opcodeRows5 ++ opcodeRows6 ++ opcodeRows7 ++
  opcodeRows8 ++ opcodeRows9 ++ opcodeRowsA ++ opcodeRowsB ++ opcodeRowsC ++ opcodeRowsD ++ opcodeRowsE ++ opcodeRowsF

/-- The row an opcode byte selects; the table has all 256 (R126). -/
def opcodeRow (opcode : Byte) : Row := opcodeTable.getD opcode.toNat (.none opcode)

/-- Why a list of bytes is no instruction: it ends before the instruction does. -/
inductive DecodeError where
  /-- no byte at all, or fewer operand bytes than the opcode byte asks for -/
  | truncated
  deriving DecidableEq, Repr

/-- Decoding takes the first instruction off a list of bytes; the opcode byte alone decides how many it takes (R129). -/
def decode : List Byte → Except DecodeError (Instr × List Byte)
  | [] => .error .truncated
  | opc :: rest =>
    match (opcodeRow opc).length, rest with
    | 1, rest => .ok ((opcodeRow opc).build 0 0, rest)
    | 2, a :: rest => .ok ((opcodeRow opc).build a 0, rest)
    | 3, a :: b :: rest => .ok ((opcodeRow opc).build a b, rest)
    | _, _ => .error .truncated

/-! The encoder. -/

/-- The opcode byte an Encoding line gives a memory mode, if it lists the mode. -/
def MemMode.opcodeIn (m : MemMode) (line : List (MemKind × Byte)) : Option Byte := line.lookup m.kind

/-- An Encoding line with an Immediate form. -/
def ReadMode.opcodeIn (immediate : Byte) (line : List (MemKind × Byte)) : ReadMode → Option Byte
  | .immediate _ => some immediate
  | .mem m => m.opcodeIn line

/-- An Encoding line with an Accumulator form. -/
def ShiftMode.opcodeIn (accumulator : Byte) (line : List (MemKind × Byte)) : ShiftMode → Option Byte
  | .accumulator => some accumulator
  | .mem m => m.opcodeIn line

def MemMode.operandBytes : MemMode → List Byte
  | .zeroPage a => [a]
  | .zeroPageX a => [a]
  | .zeroPageY a => [a]
  | .absolute a b => [a, b]
  | .absoluteX a b => [a, b]
  | .absoluteY a b => [a, b]
  | .indirectX a => [a]
  | .indirectY a => [a]

def ReadMode.operandBytes : ReadMode → List Byte
  | .immediate a => [a]
  | .mem m => m.operandBytes

def ShiftMode.operandBytes : ShiftMode → List Byte
  | .accumulator => []
  | .mem m => m.operandBytes

def JumpMode.operandBytes : JumpMode → List Byte
  | .absoluteJmp a b => [a, b]
  | .indirect a b => [a, b]

def NopMode.operandBytes : NopMode → List Byte
  | .implied => []
  | .immediate a => [a]
  | .mem m => m.operandBytes

/-- The opcode byte of an instruction, from the Encoding line of its rule (R160 to R261); `none` for a form the line does
not list. -/
def Instr.opcode : Instr → Option Byte
  | .lda m => m.opcodeIn 0xA9 [(.zeroPage, 0xA5), (.zeroPageX, 0xB5), (.absolute, 0xAD), (.absoluteX, 0xBD),
      (.absoluteY, 0xB9), (.indirectX, 0xA1), (.indirectY, 0xB1)]
  | .ldx m => m.opcodeIn 0xA2 [(.zeroPage, 0xA6), (.zeroPageY, 0xB6), (.absolute, 0xAE), (.absoluteY, 0xBE)]
  | .ldy m => m.opcodeIn 0xA0 [(.zeroPage, 0xA4), (.zeroPageX, 0xB4), (.absolute, 0xAC), (.absoluteX, 0xBC)]
  | .sta m => m.opcodeIn [(.zeroPage, 0x85), (.zeroPageX, 0x95), (.absolute, 0x8D), (.absoluteX, 0x9D),
      (.absoluteY, 0x99), (.indirectX, 0x81), (.indirectY, 0x91)]
  | .stx m => m.opcodeIn [(.zeroPage, 0x86), (.zeroPageY, 0x96), (.absolute, 0x8E)]
  | .sty m => m.opcodeIn [(.zeroPage, 0x84), (.zeroPageX, 0x94), (.absolute, 0x8C)]
  | .tax => some 0xAA
  | .tay => some 0xA8
  | .txa => some 0x8A
  | .tya => some 0x98
  | .tsx => some 0xBA
  | .txs => some 0x9A
  | .adc m => m.opcodeIn 0x69 [(.zeroPage, 0x65), (.zeroPageX, 0x75), (.absolute, 0x6D), (.absoluteX, 0x7D),
      (.absoluteY, 0x79), (.indirectX, 0x61), (.indirectY, 0x71)]
  | .sbc m => m.opcodeIn 0xE9 [(.zeroPage, 0xE5), (.zeroPageX, 0xF5), (.absolute, 0xED), (.absoluteX, 0xFD),
      (.absoluteY, 0xF9), (.indirectX, 0xE1), (.indirectY, 0xF1)]
  | .and m => m.opcodeIn 0x29 [(.zeroPage, 0x25), (.zeroPageX, 0x35), (.absolute, 0x2D), (.absoluteX, 0x3D),
      (.absoluteY, 0x39), (.indirectX, 0x21), (.indirectY, 0x31)]
  | .ora m => m.opcodeIn 0x09 [(.zeroPage, 0x05), (.zeroPageX, 0x15), (.absolute, 0x0D), (.absoluteX, 0x1D),
      (.absoluteY, 0x19), (.indirectX, 0x01), (.indirectY, 0x11)]
  | .eor m => m.opcodeIn 0x49 [(.zeroPage, 0x45), (.zeroPageX, 0x55), (.absolute, 0x4D), (.absoluteX, 0x5D),
      (.absoluteY, 0x59), (.indirectX, 0x41), (.indirectY, 0x51)]
  | .cmp m => m.opcodeIn 0xC9 [(.zeroPage, 0xC5), (.zeroPageX, 0xD5), (.absolute, 0xCD), (.absoluteX, 0xDD),
      (.absoluteY, 0xD9), (.indirectX, 0xC1), (.indirectY, 0xD1)]
  | .cpx m => m.opcodeIn 0xE0 [(.zeroPage, 0xE4), (.absolute, 0xEC)]
  | .cpy m => m.opcodeIn 0xC0 [(.zeroPage, 0xC4), (.absolute, 0xCC)]
  | .bit m => m.opcodeIn [(.zeroPage, 0x24), (.absolute, 0x2C)]
  | .inc m => m.opcodeIn [(.zeroPage, 0xE6), (.zeroPageX, 0xF6), (.absolute, 0xEE), (.absoluteX, 0xFE)]
  | .dec m => m.opcodeIn [(.zeroPage, 0xC6), (.zeroPageX, 0xD6), (.absolute, 0xCE), (.absoluteX, 0xDE)]
  | .inx => some 0xE8
  | .iny => some 0xC8
  | .dex => some 0xCA
  | .dey => some 0x88
  | .asl m => m.opcodeIn 0x0A [(.zeroPage, 0x06), (.zeroPageX, 0x16), (.absolute, 0x0E), (.absoluteX, 0x1E)]
  | .lsr m => m.opcodeIn 0x4A [(.zeroPage, 0x46), (.zeroPageX, 0x56), (.absolute, 0x4E), (.absoluteX, 0x5E)]
  | .rol m => m.opcodeIn 0x2A [(.zeroPage, 0x26), (.zeroPageX, 0x36), (.absolute, 0x2E), (.absoluteX, 0x3E)]
  | .ror m => m.opcodeIn 0x6A [(.zeroPage, 0x66), (.zeroPageX, 0x76), (.absolute, 0x6E), (.absoluteX, 0x7E)]
  | .jmp (.absoluteJmp _ _) => some 0x4C
  | .jmp (.indirect _ _) => some 0x6C
  | .jsr _ _ => some 0x20
  | .rts => some 0x60
  | .bcc _ => some 0x90
  | .bcs _ => some 0xB0
  | .beq _ => some 0xF0
  | .bne _ => some 0xD0
  | .bmi _ => some 0x30
  | .bpl _ => some 0x10
  | .bvc _ => some 0x50
  | .bvs _ => some 0x70
  | .pha => some 0x48
  | .pla => some 0x68
  | .php => some 0x08
  | .plp => some 0x28
  | .clc => some 0x18
  | .sec => some 0x38
  | .cli => some 0x58
  | .sei => some 0x78
  | .clv => some 0xB8
  | .cld => some 0xD8
  | .sed => some 0xF8
  | .nop => some 0xEA
  | .brk => some 0x00
  | .rti => some 0x40
  | .slo m => m.opcodeIn [(.indirectX, 0x03), (.zeroPage, 0x07), (.absolute, 0x0F), (.indirectY, 0x13),
      (.zeroPageX, 0x17), (.absoluteY, 0x1B), (.absoluteX, 0x1F)]
  | .rla m => m.opcodeIn [(.indirectX, 0x23), (.zeroPage, 0x27), (.absolute, 0x2F), (.indirectY, 0x33),
      (.zeroPageX, 0x37), (.absoluteY, 0x3B), (.absoluteX, 0x3F)]
  | .sre m => m.opcodeIn [(.indirectX, 0x43), (.zeroPage, 0x47), (.absolute, 0x4F), (.indirectY, 0x53),
      (.zeroPageX, 0x57), (.absoluteY, 0x5B), (.absoluteX, 0x5F)]
  | .rra m => m.opcodeIn [(.indirectX, 0x63), (.zeroPage, 0x67), (.absolute, 0x6F), (.indirectY, 0x73),
      (.zeroPageX, 0x77), (.absoluteY, 0x7B), (.absoluteX, 0x7F)]
  | .sax m => m.opcodeIn [(.indirectX, 0x83), (.zeroPage, 0x87), (.absolute, 0x8F), (.zeroPageY, 0x97)]
  | .lax m => m.opcodeIn [(.indirectX, 0xA3), (.zeroPage, 0xA7), (.absolute, 0xAF), (.indirectY, 0xB3),
      (.zeroPageY, 0xB7), (.absoluteY, 0xBF)]
  | .dcp m => m.opcodeIn [(.indirectX, 0xC3), (.zeroPage, 0xC7), (.absolute, 0xCF), (.indirectY, 0xD3),
      (.zeroPageX, 0xD7), (.absoluteY, 0xDB), (.absoluteX, 0xDF)]
  | .isb m => m.opcodeIn [(.indirectX, 0xE3), (.zeroPage, 0xE7), (.absolute, 0xEF), (.indirectY, 0xF3),
      (.zeroPageX, 0xF7), (.absoluteY, 0xFB), (.absoluteX, 0xFF)]
  | .nopUndoc opcode m => if (nopBytes m).contains opcode then some opcode else none
  | .sbcUndoc _ => some 0xEB
  | .unmapped opcode => if unmappedBytes.contains opcode then some opcode else none

/-- The operand bytes of an instruction, `op1` then `op2` (R120). -/
def Instr.operandBytes : Instr → List Byte
  | .lda m => m.operandBytes
  | .ldx m => m.operandBytes
  | .ldy m => m.operandBytes
  | .sta m => m.operandBytes
  | .stx m => m.operandBytes
  | .sty m => m.operandBytes
  | .tax => []
  | .tay => []
  | .txa => []
  | .tya => []
  | .tsx => []
  | .txs => []
  | .adc m => m.operandBytes
  | .sbc m => m.operandBytes
  | .and m => m.operandBytes
  | .ora m => m.operandBytes
  | .eor m => m.operandBytes
  | .cmp m => m.operandBytes
  | .cpx m => m.operandBytes
  | .cpy m => m.operandBytes
  | .bit m => m.operandBytes
  | .inc m => m.operandBytes
  | .dec m => m.operandBytes
  | .inx => []
  | .iny => []
  | .dex => []
  | .dey => []
  | .asl m => m.operandBytes
  | .lsr m => m.operandBytes
  | .rol m => m.operandBytes
  | .ror m => m.operandBytes
  | .jmp m => m.operandBytes
  | .jsr a b => [a, b]
  | .rts => []
  | .bcc a => [a]
  | .bcs a => [a]
  | .beq a => [a]
  | .bne a => [a]
  | .bmi a => [a]
  | .bpl a => [a]
  | .bvc a => [a]
  | .bvs a => [a]
  | .pha => []
  | .pla => []
  | .php => []
  | .plp => []
  | .clc => []
  | .sec => []
  | .cli => []
  | .sei => []
  | .clv => []
  | .cld => []
  | .sed => []
  | .nop => []
  | .brk => []
  | .rti => []
  | .slo m => m.operandBytes
  | .rla m => m.operandBytes
  | .sre m => m.operandBytes
  | .rra m => m.operandBytes
  | .sax m => m.operandBytes
  | .lax m => m.operandBytes
  | .dcp m => m.operandBytes
  | .isb m => m.operandBytes
  | .nopUndoc _ m => m.operandBytes
  | .sbcUndoc a => [a]
  | .unmapped _ => []

/-- The bytes of an instruction; none for a term that is no instruction of the machine. -/
def encode (i : Instr) : List Byte :=
  match i.opcode with
  | some o => o :: i.operandBytes
  | none => []

/-- Byte `k` of an instruction whose bits are numbered as spec/opcode_table.json numbers them. -/
def tableByte (w k : Nat) : Byte := BitVec.ofNat 8 (w >>> (8 * k))

/-- The bits of an instruction of `nbits` bits and nothing above them. -/
def tableBits (nbits w : Nat) : Nat := w % 2 ^ nbits

/-- What the decoder reads from an instruction whose bits are `w`: its bytes in memory order, the bits above `nbits` zero,
up to the longest instruction (3 bytes). -/
def decodeTableWord (nbits w : Nat) : Option Instr :=
  match decode [tableByte (tableBits nbits w) 0, tableByte (tableBits nbits w) 1, tableByte (tableBits nbits w) 2] with
  | .ok (i, _) => some i
  | .error _ => none

end Sys2Proof
end

