-- ==== Sys2Proof/Machine/Bytes.lean ====
section
/-! DEFINITION. Bytes of words, sign extension and single bits (spec/00_scope.md R8, spec/20_memory.md R62). -/

namespace Sys2Proof.Machine

/-- `hi(w) = w[15:8]` (R8). -/
def hi (w : Word) : Byte := w.extractLsb' 8 8

/-- `lo(w) = w[7:0]` (R8). -/
def lo (w : Word) : Byte := w.extractLsb' 0 8

/-- `h :: l`, the high byte in the high bits (R8). -/
def pair (h l : Byte) : Word := h ++ l

/-- `zext_16` (R8): an address in page 0 when used as one. -/
def zext16 (b : Byte) : Word := b.setWidth 16

/-- `sext_16` (R8). -/
def sext16 (b : Byte) : Word := b.signExtend 16

/-- The value with bit `i` replaced (R8's bit numbering). -/
def putBit (v : Byte) (i : Nat) (b : Bool) : Byte :=
  (v &&& ~~~(1#8 <<< i)) ||| (if b then 1#8 <<< i else 0#8)

/-- Bit `i` as the number 0 or 1 (R8's `v[i]` where a rule computes with it). -/
def bitNat (v : Byte) (i : Nat) : Nat := (v.getLsbD i).toNat

end Sys2Proof.Machine
end

