-- ==== Sys2Proof/Machine/Memory.lean ====
section
/-! DEFINITION. The memories as plain data: a list of (index, value) pairs, indexes strictly rising, with no entry for a
value an unlisted index reads as. -/

namespace Sys2Proof.Machine

/-- A sparse array: a list of (index, value) pairs. -/
abbrev Sparse (α : Type) := List (Nat × α)

/-- The pairs with every entry for index `i` taken out. -/
def Sparse.erase {α : Type} (m : Sparse α) (i : Nat) : Sparse α := m.filter (fun e => e.1 != i)

/-- Puts an entry before the first one of a greater index. -/
def Sparse.place {α : Type} (i : Nat) (v : α) : Sparse α → Sparse α
  | [] => [(i, v)]
  | e :: m => if i < e.1 then (i, v) :: e :: m else e :: Sparse.place i v m

/-- Replaces the entry for index `i`. -/
def Sparse.put {α : Type} (m : Sparse α) (i : Nat) (v : α) : Sparse α := Sparse.place i v (m.erase i)

/-- The entry for index `i`. -/
def Sparse.find {α : Type} (i : Nat) : Sparse α → Option α
  | [] => none
  | e :: m => if e.1 = i then some e.2 else Sparse.find i m

/-- Indexes strictly rising, each below `size`, from a lower bound `from` on. -/
def Sparse.rising {α : Type} (size : Nat) : Nat → Sparse α → Bool
  | _, [] => true
  | low, e :: m => decide (low ≤ e.1) && decide (e.1 < size) && Sparse.rising size (e.1 + 1) m

/-- Cells of `w` bits: the memories of the machine. -/
abbrev Cells (w : Nat) := Sparse (BitVec w)

/-- Memory of bytes (`Host.Cell` pairs). -/
abbrev Memory := List Host.Cell

/-- What an unlisted cell reads as, in every memory of the machine: zero (log 2). -/
def unlisted (w : Nat) : BitVec w := 0#w

/-- The value of cell `i`. -/
def Cells.read {w : Nat} (m : Cells w) (i : Nat) : BitVec w := (Sparse.find i m).getD (unlisted w)

/-- Writes cell `i`, keeping the canonical form. -/
def Cells.write {w : Nat} (m : Cells w) (i : Nat) (v : BitVec w) : Cells w :=
  if v = unlisted w then Sparse.erase m i else Sparse.put m i v

/-- The canonical form of a memory of `size` cells: indexes strictly rising and in range, no entry that an unlisted cell
reads as anyway. -/
def Cells.wf {w : Nat} (size : Nat) (m : Cells w) : Bool :=
  Sparse.rising size 0 m && m.all (fun e => e.2 != unlisted w)

/-- The canonical form of a memory of bytes. -/
abbrev Memory.wf (size : Nat) (m : Memory) : Bool := Cells.wf size m

end Sys2Proof.Machine
end

