-- ==== Sys2Proof/Machine/Cartridge.lean ====
section
/-! DEFINITION. The cartridge collaborator with mapper 0 (spec/20_memory.md R72, R90 to R93; spec/10_state.md R45) and the
iNES image it is built from (R91, R383). -/

namespace Sys2Proof.Machine

/-- `PRG_BANKS ∈ {1, 2}` (R7, U23). -/
inductive PrgBanks where
  | one
  | two
  deriving DecidableEq, Repr

/-- `MIRRORING` (R7, R103). -/
inductive Mirroring where
  | horizontal
  | vertical
  | singleUpper
  | singleLower
  deriving DecidableEq, Repr

/-- The cartridge: parameters of the machine that no step changes, but for `wram` and a writable `chr` (R45). -/
structure Cart where
  /-- PRG ROM by offset; the offset of a CPU address is `prgOffset` -/
  prg         : Memory
  prgBanks    : PrgBanks
  /-- the pattern tables, 0x2000 bytes -/
  chr         : Memory
  chrWritable : Bool
  mirroring   : Mirroring
  /-- whether 0x6000 to 0x7FFF is RAM (D16) -/
  prgRam      : Bool
  /-- the 0x2000 bytes of that RAM -/
  wram        : Memory
  deriving DecidableEq, Repr

def PrgBanks.count : PrgBanks → Nat
  | .one => 1
  | .two => 2

/-- Where a CPU address from 0x8000 on lies in `PRG`: `(a - 0x8000) mod (0x4000 * PRG_BANKS)` (R72, R92). -/
def Cart.prgOffset (c : Cart) (a : Word) : Nat := (a.toNat - 0x8000) % (0x4000 * c.prgBanks.count)

/-- The PRG byte at a CPU address from 0x8000 on (R72). -/
def Cart.prgByte (c : Cart) (a : Word) : Byte := Cells.read c.prg (c.prgOffset a)

/-- The word of PRG bytes at a vector address, low byte first (R62, R348). -/
def Cart.vectorWord (c : Cart) (a : Word) : Word := pair (c.prgByte (a + 1)) (c.prgByte a)

/-- The cells of a list of bytes, from index `i` on. -/
def cellsOfBytes : Nat → List Byte → Memory
  | _, [] => []
  | i, b :: bs => if b = unlisted 8 then cellsOfBytes (i + 1) bs else (i, b) :: cellsOfBytes (i + 1) bs

/-- `load_rom` (R91, R383): the cartridge of an iNES image, or none where the image is malformed or not mapper 0 ("the
emulator must not start"). The header is 16 bytes, then the PRG banks, then the CHR banks (R91). `prgRam` and `chrWritable`
are the open parameters of D16, which no header bit settles; `wram0` is the work RAM's content.

DESIGN CHOICE (log 22): R91 and R383 name only the magic bytes, the mapper and the PRG bank count as conditions. Where they are
silent this loader chooses: an image too short for its header and PRG banks is refused as malformed; CHR bytes the image does not
hold, all of them where byte 5 is 0, read 0x00; of two or more CHR banks the first 0x2000 bytes are taken; later bytes and
byte 6 bits 1 to 3 are ignored. -/
def loadRom (prgRam chrWritable : Bool) (wram0 : Memory) (image : List Byte) : Option Cart :=
  let h := fun k => image.getD k 0#8
  let mapper := (h 7 &&& 0xF0#8) ||| (h 6 >>> 4)
  let banks := if h 4 = 1#8 then some PrgBanks.one else if h 4 = 2#8 then some PrgBanks.two else none
  match banks with
  | none => none
  | some n =>
    if image.take 4 = [0x4E#8, 0x45#8, 0x53#8, 0x1A#8] ∧ mapper = 0#8 ∧ 16 + 0x4000 * n.count ≤ image.length then
      some {
        prg := cellsOfBytes 0 ((image.drop 16).take (0x4000 * n.count))
        prgBanks := n
        chr := if h 5 = 0#8 then [] else cellsOfBytes 0 ((image.drop (16 + 0x4000 * n.count)).take 0x2000)
        chrWritable := chrWritable
        mirroring := if (h 6).getLsbD 0 then .vertical else .horizontal
        prgRam := prgRam
        wram := wram0 }
    else none

end Sys2Proof.Machine
end

