-- ==== Sys2Proof/Machine/State.lean ====
section
/-! DEFINITION. The state of the machine (spec/10_state.md), its faults and refusals, and its power-up values (R47). -/

namespace Sys2Proof.Machine

/-- The CPU: the six registers (R21 to R26) and its hidden state (R33, R34). -/
structure Cpu where
  a          : Byte
  x          : Byte
  y          : Byte
  sp         : Byte
  pc         : Word
  p          : Byte
  nmiPending : Bool
  irqPending : Bool
  /-- CPU cycles since power-up (R34) -/
  cyc        : Nat
  deriving DecidableEq, Repr

/-- A pixel of the frame buffer as the two arguments of `RGB_OF` (R314): the palette value after grayscale and the
emphasis bits (log 8). -/
structure Pixel where
  colour   : BitVec 6
  emphasis : BitVec 3
  deriving DecidableEq, Repr

/-- The frame buffer (R43): the lines written since it was last cleared, each 256 pixels (log 9). -/
abbrev FrameBuffer := Sparse (List Pixel)

/-- The PPU: registers and latches (R37 to R41), memories (R42), frame buffer (R43). -/
structure Ppu where
  ctrl        : Byte
  mask        : Byte
  status      : Byte
  oamaddr     : Byte
  /-- live VRAM address -/
  v           : BitVec 15
  /-- VRAM address buffer -/
  t           : BitVec 15
  /-- fine-X scroll -/
  x           : BitVec 3
  /-- write toggle -/
  w           : Bool
  readbuf     : Byte
  scanline    : Int
  cycle       : Int
  frame       : Nat
  vblSuppress : Bool
  /-- the two nametables: cell `i` of table `k` is cell `0x400 * k + i` -/
  nt          : Memory
  /-- palette RAM, 6 bits an entry (D20) -/
  pal         : Cells 6
  oam         : Memory
  fb          : FrameBuffer
  deriving DecidableEq, Repr

/-- The controllers (R44): live buttons, shift registers, strobe. -/
structure Pads where
  buttons1 : Byte
  buttons2 : Byte
  shift1   : Byte
  shift2   : Byte
  strobe   : Bool
  deriving DecidableEq, Repr

inductive Player where
  | one
  | two
  deriving DecidableEq, Repr

/-- The buttons in shift order (R44). -/
inductive Button where
  | a | b | select | start | up | down | left | right
  deriving DecidableEq, Repr

/-- What the environment may do between system steps (R361, R364, R365). -/
inductive Input where
  | buttonChange (player : Player) (button : Button) (pressed : Bool)
  | irqRequest
  deriving DecidableEq, Repr

/-- What the CORE emits (R361, R366, R367). -/
inductive Output where
  | apuWrite (a : Word) (d : Byte)
  | apuTick
  /-- the completed frame, all the lines it holds -/
  | newFrame (fb : FrameBuffer)
  deriving DecidableEq, Repr

/-- The whole machine. -/
structure State where
  cpu    : Cpu
  ram    : Memory
  ppu    : Ppu
  pads   : Pads
  cart   : Cart
  /-- batches of environment events to come, one a system step (log 10) -/
  inputs : List (List Input)
  /-- the output events of the last system step, oldest first (log 12) -/
  out    : List Output
  /-- cycles of the interrupt entry of the current or last `execute()` (R122's `c0`) -/
  c0     : Nat
  /-- `row.cycles` of its instruction (R122) -/
  base   : Nat
  /-- the extra cycles its operation returned (R122) -/
  extra  : Nat
  /-- the cycles of the OAM DMA it triggered (R122, R284) -/
  dma    : Nat
  /-- the number of `draw(n)` values taken so far: the model's own field (log 7) -/
  draws  : Nat
  deriving DecidableEq, Repr

/-- Why the machine stops for good (R341, R342). -/
inductive Fault where
  /-- Raised by the meaning of an unmapped opcode byte: `Fatal(UnknownOpcode(opc, pc))` (R127, R261). Safe: the spec stops
  there too. -/
  | unknownOpcode (opcode : Byte) (pc : Word)
  /-- Raised by `cpuWrite` at 0x8000 to 0xFFFF: `Fatal(RomWrite(a, d))` (R73). Safe: the spec stops there too. -/
  | romWrite (a : Word) (d : Byte)
  deriving DecidableEq, Repr

/-- What the model leaves out. -/
inductive Refusal where
  /-- Raised by an arm of `exec` whose instruction has no meaning yet; no arm is left that does. Safe. -/
  | notModelled (mnemonic : String)
  deriving DecidableEq, Repr

/-- The outcome of a step or of a part of one. -/
abbrev Result := Host.Outcome State Fault Refusal

/-- The parameters a power-up takes (R7): the cartridge, CYC0, the unspecified contents of the memories, the buttons held,
and the environment's events to come. -/
structure PowerUp where
  cart     : Cart
  cyc0     : Nat
  ram0     : Memory
  vram0    : Memory
  oam0     : Memory
  pal0     : Cells 6
  buttons1 : Byte
  buttons2 : Byte
  inputs   : List (List Input)
  deriving DecidableEq, Repr

/-- Power-up (R47, R380): every piece of state at its power-up value, `PC` from the reset vector (R382). -/
def State.powerUp (q : PowerUp) : State where
  cpu := {
    a := 0x00, x := 0x00, y := 0x00, sp := 0xFD, pc := q.cart.vectorWord 0xFFFC, p := 0x24
    nmiPending := false, irqPending := false, cyc := q.cyc0 }
  ram := q.ram0
  ppu := {
    ctrl := 0x00, mask := 0x00, status := 0x00, oamaddr := 0x00, v := 0, t := 0, x := 0, w := false, readbuf := 0x00
    scanline := 0, cycle := 0, frame := 0, vblSuppress := false, nt := q.vram0, pal := q.pal0, oam := q.oam0, fb := [] }
  pads := { buttons1 := q.buttons1, buttons2 := q.buttons2, shift1 := 0x00, shift2 := 0x00, strobe := false }
  cart := q.cart
  inputs := q.inputs
  out := []
  c0 := 0
  base := 0
  extra := 0
  dma := 0
  draws := 0

/-- The parameters `State.reset` takes: those of spec/95_test_vectors.md (two PRG banks, Horizontal mirroring, no work RAM,
CHR read-only, CYC0 = 0, every memory cell zero) with no PRG or CHR byte listed, no button held and no event to come
(logs 2, 3, 4, 10, 11). -/
def PowerUp.empty : PowerUp where
  cart := {
    prg := [], prgBanks := .two, chr := [], chrWritable := false, mirroring := .horizontal, prgRam := false, wram := [] }
  cyc0 := 0
  ram0 := []
  vram0 := []
  oam0 := []
  pal0 := []
  buttons1 := 0x00
  buttons2 := 0x00
  inputs := []

/-- The machine right after power-up. -/
def State.reset : State := State.powerUp PowerUp.empty

end Sys2Proof.Machine
end

