-- ==== Sys2Proof/Machine/Flags.lean ====
section
/-! DEFINITION. The status register `P` (spec/10_state.md R24 to R29), the register accessors, and every flag computation
of the instruction rules. -/

namespace Sys2Proof.Machine

/-- The bits of `P` (R25). -/
inductive Flag where
  | c | z | i | d | b | u | v | n
  deriving DecidableEq, Repr

/-- Bit positions in `P` (R25). -/
def Flag.bit : Flag → Nat
  | .c => 0
  | .z => 1
  | .i => 2
  | .d => 3
  | .b => 4
  | .u => 5
  | .v => 6
  | .n => 7

/-- The 8-bit registers an instruction can name (R21, R22). -/
inductive Reg where
  | a | x | y | sp
  deriving DecidableEq, Repr

def State.reg (s : State) : Reg → Byte
  | .a => s.cpu.a
  | .x => s.cpu.x
  | .y => s.cpu.y
  | .sp => s.cpu.sp

def State.setReg (s : State) (r : Reg) (v : Byte) : State :=
  match r with
  | .a => { s with cpu := { s.cpu with a := v } }
  | .x => { s with cpu := { s.cpu with x := v } }
  | .y => { s with cpu := { s.cpu with y := v } }
  | .sp => { s with cpu := { s.cpu with sp := v } }

def State.setPc (s : State) (w : Word) : State := { s with cpu := { s.cpu with pc := w } }

def State.setP (s : State) (v : Byte) : State := { s with cpu := { s.cpu with p := v } }

/-- What the operation of an instruction returns to `execute()` (R122). -/
def State.setExtra (s : State) (n : Nat) : State := { s with extra := n }

def State.flag (s : State) (f : Flag) : Bool := s.cpu.p.getLsbD f.bit

def State.setFlag (s : State) (f : Flag) (b : Bool) : State := s.setP (putBit s.cpu.p f.bit b)

/-- `SetZN(v)` (R27). -/
def State.setZN (s : State) (v : Byte) : State := (s.setFlag .z (v == 0)).setFlag .n (v.getLsbD 7)

/-- The byte PHP and BRK push: `P | 0x30` (R26, R232, R242). -/
def pushedByInstruction (p : Byte) : Byte := p ||| 0x30

/-- The byte NMI and IRQ entry push: `(P | 0x20) & 0xEF` (R26, R346). -/
def pushedByInterrupt (p : Byte) : Byte := (p ||| 0x20) &&& 0xEF

/-- What PLP and RTI load from a pulled byte: `(b & 0xEF) | 0x20` (R26, R233, R243). -/
def loadedStatus (b : Byte) : Byte := (b &&& 0xEF) ||| 0x20

/-- ADC's integer sum `A + m + C` (R181). -/
def adcSum (a m : Byte) (c : Bool) : Nat := a.toNat + m.toNat + c.toNat

def adcResult (a m : Byte) (c : Bool) : Byte := BitVec.ofNat 8 (adcSum a m c)

def adcCarry (a m : Byte) (c : Bool) : Bool := decide (adcSum a m c > 0xFF)

/-- ADC's overflow: equal operand signs, result of another sign (R181). -/
def adcOverflow (a m r : Byte) : Bool := (((a ^^^ m) &&& 0x80) == 0) && (((a ^^^ r) &&& 0x80) == 0x80)

/-- SBC's integer difference `A - m - (1 - C)` (R182). -/
def sbcDiff (a m : Byte) (c : Bool) : Int := (a.toNat : Int) - m.toNat - (1 - c.toNat)

def sbcResult (a m : Byte) (c : Bool) : Byte := BitVec.ofInt 8 (sbcDiff a m c)

/-- Carry set means no borrow (R182). -/
def sbcCarry (a m : Byte) (c : Bool) : Bool := decide (0 ≤ sbcDiff a m c)

/-- SBC's overflow: different operand signs, result of another sign than `A` (R182). -/
def sbcOverflow (a m r : Byte) : Bool := (((a ^^^ m) &&& 0x80) == 0x80) && (((a ^^^ r) &&& 0x80) == 0x80)

/-- ADC on the accumulator (R181). -/
def State.addToA (s : State) (m : Byte) : State :=
  let a := s.cpu.a
  let c := s.flag .c
  let r := adcResult a m c
  (((s.setFlag .c (adcCarry a m c)).setFlag .v (adcOverflow a m r)).setReg .a r).setZN r

/-- SBC on the accumulator (R182). -/
def State.subFromA (s : State) (m : Byte) : State :=
  let a := s.cpu.a
  let c := s.flag .c
  let r := sbcResult a m c
  (((s.setFlag .c (sbcCarry a m c)).setFlag .v (sbcOverflow a m r)).setReg .a r).setZN r

/-- `Compare(r, m)` (R186). -/
def State.compare (s : State) (r m : Byte) : State :=
  ((s.setFlag .c (decide (m.toNat ≤ r.toNat))).setFlag .z (r == m)).setFlag .n ((r - m).getLsbD 7)

/-- BIT's flags (R189). -/
def State.bitTest (s : State) (m : Byte) : State :=
  ((s.setFlag .z ((s.cpu.a &&& m) == 0)).setFlag .n (m.getLsbD 7)).setFlag .v (m.getLsbD 6)

/-- The shifts and rotates: the result, and the bit that goes to C, from the operand and the carry before
(R200 to R203). -/
inductive ShiftOp where
  | asl | lsr | rol | ror
  deriving DecidableEq, Repr

def ShiftOp.result : ShiftOp → Byte → Bool → Byte
  | .asl, m, _ => m <<< 1
  | .lsr, m, _ => m >>> 1
  | .rol, m, c => (m <<< 1) ||| (if c then 0x01#8 else 0x00#8)
  | .ror, m, c => (m >>> 1) ||| (if c then 0x80#8 else 0x00#8)

def ShiftOp.carry : ShiftOp → Byte → Bool
  | .asl, m => m.getLsbD 7
  | .lsr, m => m.getLsbD 0
  | .rol, m => m.getLsbD 7
  | .ror, m => m.getLsbD 0

end Sys2Proof.Machine
end

