-- ==== Sys2Proof/Config.lean ====
section
/-! DEFINITION. What no rule of the spec gives a value to: the `draw(n)` bytes (00_scope.md R9) and the colour map
`RGB_OF` (00_scope.md R7). Both are constants without a body, so no proof can rest on a value of theirs. -/

namespace Sys2Proof

/-- The free bytes behind `draw(n)` (R9; 93_implementation_defined.md U8 to U13): the k-th draw of a run is
`freeByte k`. A draw of fewer bits takes the low bits of one byte. Log 7. -/
opaque Config.freeByte : Nat → Byte

/-- `RGB_OF(colour6, emphasis3)` (R7, R314, D23): the open map from a palette value and the emphasis bits to RGB24. Log 8. -/
opaque Config.rgbOf : BitVec 6 → BitVec 3 → BitVec 24

end Sys2Proof
end

