-- ==== Sys2Proof/Machine/PpuBus.lean ====
section
/-! DEFINITION. The PPU bus (spec/20_memory.md R100 to R106). Addresses are natural numbers, reduced to 14 bits on entry
("any out-of-range VRAM address should wrap via mirroring rules rather than fault"). No access faults, no read has an
effect. -/

namespace Sys2Proof.Machine

/-- The physical nametable of a logical slot (R103). -/
def Mirroring.table : Mirroring → Nat → Nat
  | .horizontal, slot => slot / 2
  | .vertical, slot => slot % 2
  | .singleLower, _ => 0
  | .singleUpper, _ => 1

/-- The cell of `NT` a PPU address from 0x2000 to 0x3EFF reaches (R100, R102, R103). -/
def ntCell (mir : Mirroring) (a : Nat) : Nat := 0x400 * mir.table ((a >>> 10) &&& 3) + a % 0x400

/-- `PalIndex(a)` (R104). -/
def palIndex (a : Nat) : Nat :=
  let i := a % 0x20
  if i = 0x10 ∨ i = 0x14 ∨ i = 0x18 ∨ i = 0x1C then i - 0x10 else i

/-- `PpuRead(a)` (R100). -/
def ppuRead (addr : Nat) (s : State) : Byte :=
  let a := addr % 0x4000
  if a < 0x2000 then Cells.read s.cart.chr a
  else if a < 0x3F00 then Cells.read s.ppu.nt (ntCell s.cart.mirroring a)
  else (Cells.read s.ppu.pal (palIndex a)).setWidth 8

/-- `PpuWrite(a, d)` (R101). -/
def ppuWrite (addr : Nat) (d : Byte) (s : State) : State :=
  let a := addr % 0x4000
  if a < 0x2000 then
    if s.cart.chrWritable then { s with cart := { s.cart with chr := Cells.write s.cart.chr a d } } else s
  else if a < 0x3F00 then
    { s with ppu := { s.ppu with nt := Cells.write s.ppu.nt (ntCell s.cart.mirroring a) d } }
  else
    { s with ppu := { s.ppu with pal := Cells.write s.ppu.pal (palIndex a) (d.setWidth 6) } }

end Sys2Proof.Machine
end

