-- ==== Sys2Proof/Machine/PpuRegs.lean ====
section
/-! DEFINITION. The PPU register window (spec/47_ppu_registers.md R270 to R283) and the free values `draw(n)`. -/

namespace Sys2Proof.Machine

/-- `draw(8)` (00_scope.md R9): the next free byte (log 7). -/
def draw (s : State) : Byte × State := (Config.freeByte s.draws, { s with draws := s.draws + 1 })

/-- `oamaddr`, `OAM[oamaddr]` as one read (R276). -/
def oamData (s : State) : Byte := Cells.read s.ppu.oam s.ppu.oamaddr.toNat

/-- The VRAM address after a PPUDATA access (R279 to R281); 15 bits, so it wraps mod 0x8000. -/
def incrementedV (p : Ppu) : BitVec 15 := p.v + (if p.ctrl.getLsbD 2 then 32 else 1)

/-- PPUCTRL write (R271). -/
def writeCtrl (d : Byte) (s : State) : State :=
  { s with ppu := { s.ppu with
      ctrl := d
      t := (s.ppu.t &&& 0x73FF) ||| (((d &&& 0x03).setWidth 15) <<< 10) } }

/-- PPUMASK write (R272). -/
def writeMask (d : Byte) (s : State) : State := { s with ppu := { s.ppu with mask := d } }

/-- OAMADDR write (R275). -/
def writeOamAddr (d : Byte) (s : State) : State := { s with ppu := { s.ppu with oamaddr := d } }

/-- OAMDATA write (R276). -/
def writeOamData (d : Byte) (s : State) : State :=
  { s with ppu := { s.ppu with
      oam := Cells.write s.ppu.oam s.ppu.oamaddr.toNat d
      oamaddr := s.ppu.oamaddr + 1 } }

/-- PPUSCROLL write (R277). -/
def writeScroll (d : Byte) (s : State) : State :=
  if s.ppu.w then
    { s with ppu := { s.ppu with
        t := (s.ppu.t &&& 0x0C1F) ||| (((d &&& 0x07).setWidth 15) <<< 12) ||| (((d &&& 0xF8).setWidth 15) <<< 2)
        w := false } }
  else
    { s with ppu := { s.ppu with
        t := (s.ppu.t &&& 0x7FE0) ||| ((d >>> 3).setWidth 15)
        x := (d &&& 0x07).setWidth 3
        w := true } }

/-- PPUADDR write (R278). -/
def writeAddr (d : Byte) (s : State) : State :=
  if s.ppu.w then
    let t := (s.ppu.t &&& 0x7F00) ||| d.setWidth 15
    { s with ppu := { s.ppu with t := t, v := t, w := false } }
  else
    { s with ppu := { s.ppu with
        t := (s.ppu.t &&& 0x00FF) ||| (((d &&& 0x3F).setWidth 15) <<< 8)
        w := true } }

/-- PPUDATA write (R280). -/
def writeData (d : Byte) (s : State) : State :=
  let s1 := ppuWrite s.ppu.v.toNat d s
  { s1 with ppu := { s1.ppu with v := incrementedV s1.ppu } }

/-- PPUSTATUS read with its race (R273, R274): bits 7:5 of `status`, bits 4:0 drawn. -/
def readStatus (s : State) : Byte × State :=
  let r := (s.ppu.status &&& 0xE0) ||| ((draw s).1 &&& 0x1F)
  let s1 := (draw s).2
  (r, { s1 with
    cpu := { s1.cpu with
      nmiPending := if s1.ppu.scanline = 241 ∧ s1.ppu.cycle = 2 then false else s1.cpu.nmiPending }
    ppu := { s1.ppu with
      vblSuppress := if s1.ppu.scanline = 241 ∧ s1.ppu.cycle = 0 then true else s1.ppu.vblSuppress
      status := putBit s1.ppu.status 7 false
      w := false } })

/-- PPUDATA read (R279): buffered below 0x3F00, immediate for the palette; the buffer and `v` move either way. -/
def readData (s : State) : Byte × State :=
  let a := s.ppu.v.toNat % 0x4000
  if a < 0x3F00 then
    (s.ppu.readbuf, { s with ppu := { s.ppu with readbuf := ppuRead a s, v := incrementedV s.ppu } })
  else
    (ppuRead a s, { s with ppu := { s.ppu with readbuf := ppuRead (a - 0x1000) s, v := incrementedV s.ppu } })

/-- `PpuRegRead(r)` (R270); the write-only registers answer a draw and change nothing else (R282). -/
def ppuRegRead (r : Nat) (s : State) : Byte × State :=
  match r with
  | 2 => readStatus s
  | 4 => (oamData s, s)
  | 7 => readData s
  | _ => draw s

/-- `PpuRegWrite(r, d)` (R270); a write to PPUSTATUS has no effect (R283). -/
def ppuRegWrite (r : Nat) (d : Byte) (s : State) : State :=
  match r with
  | 0 => writeCtrl d s
  | 1 => writeMask d s
  | 3 => writeOamAddr d s
  | 4 => writeOamData d s
  | 5 => writeScroll d s
  | 6 => writeAddr d s
  | 7 => writeData d s
  | _ => s

end Sys2Proof.Machine
end

