-- ==== Sys2Proof/Machine/Ops.lean ====
section
/-! DEFINITION. The CPU bus (spec/20_memory.md R64 to R73), the controllers (spec/60_exceptions.md R364), OAM DMA
(spec/47_ppu_registers.md R284), the stack (spec/10_state.md R30 to R32), and taking an interrupt or BRK and returning from
it (R242, R243, R346). -/

namespace Sys2Proof.Machine

/-- Goes on after a next state; a fault ends the run (R341). -/
def mapNext (f : State → State) : Result → Result
  | .next s => .next (f s)
  | .fault r => .fault r
  | .refused r => .refused r

/-! Controllers (R364). -/

/-- `CtrlStrobe(d)`: the 1 to 0 edge of bit 0 latches both controllers. -/
def ctrlStrobe (d : Byte) (s : State) : State :=
  if s.pads.strobe ∧ d.getLsbD 0 = false then
    { s with pads := { s.pads with shift1 := s.pads.buttons1, shift2 := s.pads.buttons2, strobe := d.getLsbD 0 } }
  else { s with pads := { s.pads with strobe := d.getLsbD 0 } }

/-- The button bit `CtrlRead(k)` answers. -/
def padBit (k : Player) (p : Pads) : Bool :=
  match k, p.strobe with
  | .one, true => p.buttons1.getLsbD 0
  | .two, true => p.buttons2.getLsbD 0
  | .one, false => p.shift1.getLsbD 0
  | .two, false => p.shift2.getLsbD 0

/-- The controllers after `CtrlRead(k)`: no shift while strobed, a 1 shifted in otherwise. -/
def padShift (k : Player) (p : Pads) : Pads :=
  match k, p.strobe with
  | _, true => p
  | .one, false => { p with shift1 := (p.shift1 >>> 1) ||| 0x80 }
  | .two, false => { p with shift2 := (p.shift2 >>> 1) ||| 0x80 }

/-- `CtrlRead(k)`: bit 0 is the button, bits 7:1 are drawn. -/
def ctrlRead (k : Player) (s : State) : Byte × State :=
  let s1 := (draw s).2
  (((draw s).1 <<< 1) ||| (if padBit k s.pads then 0x01#8 else 0x00#8), { s1 with pads := padShift k s1.pads })

/-! The cartridge's side of the bus (R72, R73). -/

/-- `CartRead(a)`. -/
def cartRead (a : Word) (s : State) : Byte × State :=
  if 0x8000 ≤ a.toNat then (s.cart.prgByte a, s)
  else if 0x6000 ≤ a.toNat ∧ s.cart.prgRam then (Cells.read s.cart.wram (a.toNat - 0x6000), s)
  else draw s

/-- `CartWrite(a, d)`; a write to ROM is fatal. -/
def cartWrite (a : Word) (d : Byte) (s : State) : Result :=
  if 0x8000 ≤ a.toNat then .fault (.romWrite a d)
  else if 0x6000 ≤ a.toNat ∧ s.cart.prgRam then
    .next { s with cart := { s.cart with wram := Cells.write s.cart.wram (a.toNat - 0x6000) d } }
  else .next s

/-! The CPU bus. -/

/-- The cell of RAM an address below 0x2000 reaches: `a & 0x07FF` (R66). -/
def ramCell (a : Word) : Nat := a.toNat % 0x800

def writeRam (a : Word) (d : Byte) (s : State) : State := { s with ram := Cells.write s.ram (ramCell a) d }

/-- `CpuRead(a)` (R64): the byte, and the state after the read's side effects (R76). -/
def cpuRead (a : Word) (s : State) : Byte × State :=
  if a.toNat < 0x2000 then (Cells.read s.ram (ramCell a), s)
  else if a.toNat < 0x4000 then ppuRegRead (a.toNat % 8) s
  else if a.toNat = 0x4015 then draw s
  else if a.toNat = 0x4016 then ctrlRead .one s
  else if a.toNat = 0x4017 then ctrlRead .two s
  else if a.toNat < 0x4020 then draw s
  else cartRead a s

/-- The cycle the parity of the DMA cost is taken from: `cyc` at the start of the instruction (R122, R284). -/
def State.cycInstr (s : State) : Nat := s.cpu.cyc + s.c0

/-- One byte of OAM DMA: `OAM[u8(oamaddr + i)] <- CpuRead((d << 8) | i)` (R284). -/
def dmaByte (d : Byte) (s : State) (i : Nat) : State :=
  let r := cpuRead (pair d (BitVec.ofNat 8 i)) s
  { r.2 with ppu := { r.2.ppu with
      oam := Cells.write r.2.ppu.oam (r.2.ppu.oamaddr + BitVec.ofNat 8 i).toNat r.1 } }

/-- `OamDma(d)` (R284): 256 bytes in ascending order, and 513 cycles, 514 from an odd one. -/
def oamDma (d : Byte) (s : State) : State :=
  let s1 := (List.range 256).foldl (dmaByte d) s
  { s1 with dma := 513 + s.cycInstr % 2 }

/-- `ApuWrite(a, d)` (R68, R366): an output event. -/
def apuWrite (a : Word) (d : Byte) (s : State) : State := { s with out := s.out ++ [.apuWrite a d] }

/-- `CpuWrite(a, d)` (R65). -/
def cpuWrite (a : Word) (d : Byte) (s : State) : Result :=
  if a.toNat < 0x2000 then .next (writeRam a d s)
  else if a.toNat < 0x4000 then .next (ppuRegWrite (a.toNat % 8) d s)
  else if a.toNat = 0x4014 then .next (oamDma d s)
  else if a.toNat = 0x4016 then .next (ctrlStrobe d s)
  else if a.toNat ≤ 0x4017 then .next (apuWrite a d s)
  else if a.toNat < 0x4020 then .next s
  else cartWrite a d s

/-- The byte of memory an address of the CPU space holds, where it holds one: RAM, work RAM, PRG. Reading it so has no
effect and draws nothing; the model's own view, for statements and for loading a program. -/
def State.held (s : State) (a : Word) : Option Byte :=
  if a.toNat < 0x2000 then some (Cells.read s.ram (ramCell a))
  else if 0x8000 ≤ a.toNat then some (s.cart.prgByte a)
  else if 0x6000 ≤ a.toNat ∧ s.cart.prgRam then some (Cells.read s.cart.wram (a.toNat - 0x6000))
  else none

/-! The stack. It lies in page 1, which is RAM (R22, R66), so that its accesses are RAM accesses (log 14). -/

/-- The address of the slot `SP` designates: `0x0100 + SP` (R22). -/
def stackAddr (sp : Byte) : Word := pair 0x01 sp

/-- `Push(v)` (R30): write, then decrement. -/
def push (v : Byte) (s : State) : State := (writeRam (stackAddr s.cpu.sp) v s).setReg .sp (s.cpu.sp - 1)

/-- `Pull()` (R31): increment, then read. -/
def pull (s : State) : Byte × State :=
  (Cells.read s.ram (ramCell (stackAddr (s.cpu.sp + 1))), s.setReg .sp (s.cpu.sp + 1))

/-- Pushes a word, high byte first (R32). -/
def pushWord (w : Word) (s : State) : State := push (lo w) (push (hi w) s)

/-- Pulls a word, low byte first (R32). -/
def pullWord (s : State) : Word × State :=
  let l := pull s
  let h := pull l.2
  (pair h.1 l.1, h.2)

/-! Interrupts and BRK. -/

/-- The word at a vector address, read through the bus; vectors lie in PRG, whose reads have no effect (R348, log 14). -/
def vectorAt (a : Word) (s : State) : Word := pair (cpuRead (a + 1) s).1 (cpuRead a s).1

/-- Taking an interrupt or BRK (R242, R346): push the return address and a status byte, set `I`, go to the vector. -/
def enterHandler (ret : Word) (status : Byte) (vector : Word) (s : State) : State :=
  let s1 := (push status (pushWord ret s)).setFlag .i true
  s1.setPc (vectorAt vector s1)

/-- `InterruptEntry(NMI)` (R346). -/
def enterNmi (s : State) : State :=
  let s1 := enterHandler s.cpu.pc (pushedByInterrupt s.cpu.p) 0xFFFA s
  { s1 with cpu := { s1.cpu with nmiPending := false } }

/-- `InterruptEntry(IRQ)` (R346). -/
def enterIrq (s : State) : State :=
  let s1 := enterHandler s.cpu.pc (pushedByInterrupt s.cpu.p) 0xFFFE s
  { s1 with cpu := { s1.cpu with irqPending := false } }

/-- Returning from a handler (R243): status, then `PC`, which is not incremented. -/
def returnFromHandler (s : State) : State :=
  let b := pull s
  let w := pullWord (b.2.setP (loadedStatus b.1))
  w.2.setPc w.1

end Sys2Proof.Machine
end

