-- ==== Sys2Proof/Machine/Operands.lean ====
section
/-! DEFINITION. The addressing modes (spec/40_addressing_modes.md R140 to R156) and the operation shapes that several
instructions share: read an operand, store to it, read-modify-write it, branch. -/

namespace Sys2Proof.Machine

/-- A byte of page 0, which is RAM: the pointer reads of Indirect_X and Indirect_Y (R151, R152, R66; log 14). -/
def zeroPageByte (p : Byte) (s : State) : Byte := Cells.read s.ram (ramCell (zext16 p))

/-- The pointer in page 0 at `p`; its second byte wraps within the page (R151, R152). -/
def zeroPageWord (p : Byte) (s : State) : Word := pair (zeroPageByte (p + 1) s) (zeroPageByte p s)

/-- The effective address (R144 to R149, R151, R152). -/
def ea (m : MemMode) (s : State) : Word :=
  match m with
  | .zeroPage op1 => zext16 op1
  | .zeroPageX op1 => zext16 (op1 + s.cpu.x)
  | .zeroPageY op1 => zext16 (op1 + s.cpu.y)
  | .absolute op1 op2 => pair op2 op1
  | .absoluteX op1 op2 => pair op2 op1 + zext16 s.cpu.x
  | .absoluteY op1 op2 => pair op2 op1 + zext16 s.cpu.y
  | .indirectX op1 => zeroPageWord (op1 + s.cpu.x) s
  | .indirectY op1 => zeroPageWord op1 s + zext16 s.cpu.y

/-- Whether the address computation crosses a page: high byte of the base against high byte of the effective address
(R148, R149, R152, R155). -/
def crossed (m : MemMode) (s : State) : Bool :=
  match m with
  | .zeroPage _ => false
  | .zeroPageX _ => false
  | .zeroPageY _ => false
  | .absolute _ _ => false
  | .absoluteX op1 op2 => hi (pair op2 op1) != hi (pair op2 op1 + zext16 s.cpu.x)
  | .absoluteY op1 op2 => hi (pair op2 op1) != hi (pair op2 op1 + zext16 s.cpu.y)
  | .indirectX _ => false
  | .indirectY op1 => hi (zeroPageWord op1 s) != hi (zeroPageWord op1 s + zext16 s.cpu.y)

/-- `mode.read()`: the value, and the state after the one bus read it makes (R82, R140, R143). -/
def readOperand (m : ReadMode) (s : State) : Byte × State :=
  match m with
  | .immediate op1 => (op1, s)
  | .mem m => cpuRead (ea m s) s

/-- The page-crossing cycle of an instruction whose indexed rows are marked `+` (R156). -/
def penalty (m : ReadMode) (s : State) : Nat :=
  match m with
  | .immediate _ => 0
  | .mem m => if crossed m s then 1 else 0

/-- A read instruction: read the operand, apply the operation, return the extra cycles (R156, R160). -/
def readOp (m : ReadMode) (op : Byte → State → State) (s : State) : Result :=
  let r := readOperand m s
  .next ((op r.1 r.2).setExtra (penalty m s))

/-- A read instruction none of whose rows is marked `+` (CPX, CPY, BIT: R187 to R189). -/
def readOpFlat (m : ReadMode) (op : Byte → State → State) (s : State) : Result :=
  let r := readOperand m s
  .next ((op r.1 r.2).setExtra 0)

/-- A store instruction: one write of the effective address, no extra cycle (R163). -/
def storeOp (m : MemMode) (v : Byte) (s : State) : Result :=
  mapNext (·.setExtra 0) (cpuWrite (ea m s) v s)

/-- A read-modify-write instruction on memory: one read and one write of the same effective address (R82, R140).
`early` is what the operation does before the write, with the byte read; `result` the byte written, from the byte read and
the state before `early`; `late` what it does after the write, with the byte written. -/
def rmwOp (m : MemMode) (result : Byte → State → Byte) (early : Byte → State → State) (late : Byte → State → State)
    (s : State) : Result :=
  let a := ea m s
  let r := cpuRead a s
  let b := result r.1 r.2
  mapNext (fun t => (late b t).setExtra 0) (cpuWrite a b (early r.1 r.2))

/-- A shift or rotate of memory, followed by `late` (R200 to R203, R251 to R254). -/
def shiftMemory (op : ShiftOp) (m : MemMode) (late : Byte → State → State) (s : State) : Result :=
  rmwOp m (fun b t => op.result b (t.flag .c)) (fun b t => t.setFlag .c (op.carry b)) late s

/-- ASL, LSR, ROL, ROR (R200 to R203). -/
def shiftOp (op : ShiftOp) (m : ShiftMode) (s : State) : Result :=
  match m with
  | .accumulator =>
    let r := op.result s.cpu.a (s.flag .c)
    .next ((((s.setFlag .c (op.carry s.cpu.a)).setReg .a r).setZN r).setExtra 0)
  | .mem m => shiftMemory op m (fun r t => t.setZN r) s

/-- An instruction without a memory operand: `extra <- 0`. -/
def impliedOp (op : State → State) (s : State) : Result := .next ((op s).setExtra 0)

/-- The target of a branch (R153). -/
def branchTarget (op1 : Byte) (s : State) : Word := s.cpu.pc + sext16 op1

/-- A conditional branch (R213). -/
def branchOp (taken : Bool) (op1 : Byte) (s : State) : Result :=
  if taken then
    .next ((s.setPc (branchTarget op1 s)).setExtra (if hi s.cpu.pc != hi (branchTarget op1 s) then 2 else 1))
  else .next (s.setExtra 0)

/-- The word at the pointer of Indirect: the high byte comes from the same page (R150). -/
def indirectTarget (ptr : Word) (s : State) : Word × State :=
  let l := cpuRead ptr s
  let h := cpuRead (pair (hi ptr) (lo ptr + 1)) l.2
  (pair h.1 l.1, h.2)

end Sys2Proof.Machine
end

