-- ==== Sys2Proof/Machine/Arith.lean ====
section
/-! DEFINITION. Arithmetic, logic, compare, bit test, increment and decrement (spec/42_arithmetic_logic.md R180 to R195). -/

namespace Sys2Proof.Machine

/-- ADC (R181); binary whatever `D` is (R29). -/
def execAdc (m : ReadMode) (s : State) : Result := readOp m (fun v t => t.addToA v) s

/-- SBC (R182); binary whatever `D` is (R29). -/
def execSbc (m : ReadMode) (s : State) : Result := readOp m (fun v t => t.subFromA v) s

/-- AND (R183). -/
def execAnd (m : ReadMode) (s : State) : Result :=
  readOp m (fun v t => (t.setReg .a (t.cpu.a &&& v)).setZN (t.cpu.a &&& v)) s

/-- ORA (R184). -/
def execOra (m : ReadMode) (s : State) : Result :=
  readOp m (fun v t => (t.setReg .a (t.cpu.a ||| v)).setZN (t.cpu.a ||| v)) s

/-- EOR (R185). -/
def execEor (m : ReadMode) (s : State) : Result :=
  readOp m (fun v t => (t.setReg .a (t.cpu.a ^^^ v)).setZN (t.cpu.a ^^^ v)) s

/-- CMP (R186). -/
def execCmp (m : ReadMode) (s : State) : Result := readOp m (fun v t => t.compare t.cpu.a v) s

/-- CPX (R187). -/
def execCpx (m : ReadMode) (s : State) : Result := readOpFlat m (fun v t => t.compare t.cpu.x v) s

/-- CPY (R188). -/
def execCpy (m : ReadMode) (s : State) : Result := readOpFlat m (fun v t => t.compare t.cpu.y v) s

/-- BIT (R189). -/
def execBit (m : MemMode) (s : State) : Result := readOpFlat (.mem m) (fun v t => t.bitTest v) s

/-- INC (R190). -/
def execInc (m : MemMode) (s : State) : Result :=
  rmwOp m (fun b _ => b + 1) (fun _ t => t) (fun r t => t.setZN r) s

/-- DEC (R191). -/
def execDec (m : MemMode) (s : State) : Result :=
  rmwOp m (fun b _ => b - 1) (fun _ t => t) (fun r t => t.setZN r) s

/-- INX (R192). -/
def execInx (s : State) : Result := impliedOp (fun t => (t.setReg .x (t.cpu.x + 1)).setZN (t.cpu.x + 1)) s

/-- INY (R193). -/
def execIny (s : State) : Result := impliedOp (fun t => (t.setReg .y (t.cpu.y + 1)).setZN (t.cpu.y + 1)) s

/-- DEX (R194). -/
def execDex (s : State) : Result := impliedOp (fun t => (t.setReg .x (t.cpu.x - 1)).setZN (t.cpu.x - 1)) s

/-- DEY (R195). -/
def execDey (s : State) : Result := impliedOp (fun t => (t.setReg .y (t.cpu.y - 1)).setZN (t.cpu.y - 1)) s

end Sys2Proof.Machine
end

