-- ==== Sys2Proof/Machine/Control.lean ====
section
/-! DEFINITION. Jumps, subroutine call and return, branches (spec/44_control_flow.md R210 to R222). `PC` holds the address
after the instruction when a meaning runs (R10, R122). -/

namespace Sys2Proof.Machine

/-- JMP (R210, R150, R154). -/
def execJmp (m : JumpMode) (s : State) : Result :=
  match m with
  | .absoluteJmp op1 op2 => impliedOp (fun t => t.setPc (pair op2 op1)) s
  | .indirect op1 op2 => impliedOp (fun t => (indirectTarget (pair op2 op1) t).2.setPc (indirectTarget (pair op2 op1) t).1) s

/-- JSR (R211): pushes the address of its own last byte. -/
def execJsr (op1 op2 : Byte) (s : State) : Result :=
  impliedOp (fun t => (pushWord (t.cpu.pc - 1) t).setPc (pair op2 op1)) s

/-- RTS (R212). -/
def execRts (s : State) : Result := impliedOp (fun t => (pullWord t).2.setPc ((pullWord t).1 + 1)) s

/-- BCC (R214). -/
def execBcc (op1 : Byte) (s : State) : Result := branchOp (!s.flag .c) op1 s

/-- BCS (R215). -/
def execBcs (op1 : Byte) (s : State) : Result := branchOp (s.flag .c) op1 s

/-- BEQ (R216). -/
def execBeq (op1 : Byte) (s : State) : Result := branchOp (s.flag .z) op1 s

/-- BNE (R217). -/
def execBne (op1 : Byte) (s : State) : Result := branchOp (!s.flag .z) op1 s

/-- BMI (R218). -/
def execBmi (op1 : Byte) (s : State) : Result := branchOp (s.flag .n) op1 s

/-- BPL (R219). -/
def execBpl (op1 : Byte) (s : State) : Result := branchOp (!s.flag .n) op1 s

/-- BVC (R220). -/
def execBvc (op1 : Byte) (s : State) : Result := branchOp (!s.flag .v) op1 s

/-- BVS (R221). -/
def execBvs (op1 : Byte) (s : State) : Result := branchOp (s.flag .v) op1 s

end Sys2Proof.Machine
end

