-- ==== Sys2Proof/Machine/LoadStore.lean ====
section
/-! DEFINITION. Loads, stores and register transfers (spec/41_load_store_transfer.md R160 to R172). -/

namespace Sys2Proof.Machine

/-- LDA (R160). -/
def execLda (m : ReadMode) (s : State) : Result := readOp m (fun v t => (t.setReg .a v).setZN v) s

/-- LDX (R161). -/
def execLdx (m : ReadMode) (s : State) : Result := readOp m (fun v t => (t.setReg .x v).setZN v) s

/-- LDY (R162). -/
def execLdy (m : ReadMode) (s : State) : Result := readOp m (fun v t => (t.setReg .y v).setZN v) s

/-- STA (R163). -/
def execSta (m : MemMode) (s : State) : Result := storeOp m s.cpu.a s

/-- STX (R164). -/
def execStx (m : MemMode) (s : State) : Result := storeOp m s.cpu.x s

/-- STY (R165). -/
def execSty (m : MemMode) (s : State) : Result := storeOp m s.cpu.y s

/-- TAX (R166). -/
def execTax (s : State) : Result := impliedOp (fun t => (t.setReg .x t.cpu.a).setZN t.cpu.a) s

/-- TAY (R167). -/
def execTay (s : State) : Result := impliedOp (fun t => (t.setReg .y t.cpu.a).setZN t.cpu.a) s

/-- TXA (R168). -/
def execTxa (s : State) : Result := impliedOp (fun t => (t.setReg .a t.cpu.x).setZN t.cpu.x) s

/-- TYA (R169). -/
def execTya (s : State) : Result := impliedOp (fun t => (t.setReg .a t.cpu.y).setZN t.cpu.y) s

/-- TSX (R170). -/
def execTsx (s : State) : Result := impliedOp (fun t => (t.setReg .x t.cpu.sp).setZN t.cpu.sp) s

/-- TXS, the one transfer that writes no flag (R171). -/
def execTxs (s : State) : Result := impliedOp (fun t => t.setReg .sp t.cpu.x) s

end Sys2Proof.Machine
end

