-- ==== Sys2Proof/Machine/Shift.lean ====
section
/-! DEFINITION. Shifts and rotates by one bit (spec/43_shift_rotate.md R200 to R203). -/

namespace Sys2Proof.Machine

/-- ASL (R200). -/
def execAsl (m : ShiftMode) (s : State) : Result := shiftOp .asl m s

/-- LSR (R201). -/
def execLsr (m : ShiftMode) (s : State) : Result := shiftOp .lsr m s

/-- ROL (R202). -/
def execRol (m : ShiftMode) (s : State) : Result := shiftOp .rol m s

/-- ROR (R203). -/
def execRor (m : ShiftMode) (s : State) : Result := shiftOp .ror m s

end Sys2Proof.Machine
end

