-- ==== Sys2Proof/Machine/StackFlags.lean ====
section
/-! DEFINITION. Stack, flag, no-operation and system instructions (spec/45_stack_flags_system.md R230 to R243). -/

namespace Sys2Proof.Machine

/-- PHA (R230). -/
def execPha (s : State) : Result := impliedOp (fun t => push t.cpu.a t) s

/-- PLA (R231). -/
def execPla (s : State) : Result := impliedOp (fun t => ((pull t).2.setReg .a (pull t).1).setZN (pull t).1) s

/-- PHP (R232). -/
def execPhp (s : State) : Result := impliedOp (fun t => push (pushedByInstruction t.cpu.p) t) s

/-- PLP (R233). -/
def execPlp (s : State) : Result := impliedOp (fun t => (pull t).2.setP (loadedStatus (pull t).1)) s

/-- CLC (R234). -/
def execClc (s : State) : Result := impliedOp (fun t => t.setFlag .c false) s

/-- SEC (R235). -/
def execSec (s : State) : Result := impliedOp (fun t => t.setFlag .c true) s

/-- CLI (R236). -/
def execCli (s : State) : Result := impliedOp (fun t => t.setFlag .i false) s

/-- SEI (R237). -/
def execSei (s : State) : Result := impliedOp (fun t => t.setFlag .i true) s

/-- CLV (R238). -/
def execClv (s : State) : Result := impliedOp (fun t => t.setFlag .v false) s

/-- CLD (R239). -/
def execCld (s : State) : Result := impliedOp (fun t => t.setFlag .d false) s

/-- SED (R240). -/
def execSed (s : State) : Result := impliedOp (fun t => t.setFlag .d true) s

/-- NOP (R241). -/
def execNop (s : State) : Result := impliedOp (fun t => t) s

/-- BRK (R242): enters the handler at 0xFFFE with return address BRK + 2 and `P | 0x30` on the stack. -/
def execBrk (s : State) : Result :=
  impliedOp (fun t => enterHandler (t.cpu.pc + 1) (pushedByInstruction t.cpu.p) 0xFFFE t) s

/-- RTI (R243). -/
def execRti (s : State) : Result := impliedOp returnFromHandler s

end Sys2Proof.Machine
end

