-- ==== Sys2Proof/Machine/Undocumented.lean ====
section
/-! DEFINITION. The undocumented instructions and the unmapped bytes (spec/46_undocumented.md R250 to R261). -/

namespace Sys2Proof.Machine

/-- SLO (R251). -/
def execSlo (m : MemMode) (s : State) : Result :=
  shiftMemory .asl m (fun r t => (t.setReg .a (t.cpu.a ||| r)).setZN (t.cpu.a ||| r)) s

/-- RLA (R252). -/
def execRla (m : MemMode) (s : State) : Result :=
  shiftMemory .rol m (fun r t => (t.setReg .a (t.cpu.a &&& r)).setZN (t.cpu.a &&& r)) s

/-- SRE (R253). -/
def execSre (m : MemMode) (s : State) : Result :=
  shiftMemory .lsr m (fun r t => (t.setReg .a (t.cpu.a ^^^ r)).setZN (t.cpu.a ^^^ r)) s

/-- RRA (R254): the addition takes the carry the rotate produced. -/
def execRra (m : MemMode) (s : State) : Result := shiftMemory .ror m (fun r t => t.addToA r) s

/-- SAX (R255). -/
def execSax (m : MemMode) (s : State) : Result := storeOp m (s.cpu.a &&& s.cpu.x) s

/-- LAX (R256). -/
def execLax (m : MemMode) (s : State) : Result :=
  readOp (.mem m) (fun v t => ((t.setReg .a v).setReg .x v).setZN v) s

/-- DCP (R257). -/
def execDcp (m : MemMode) (s : State) : Result :=
  rmwOp m (fun b _ => b - 1) (fun _ t => t) (fun r t => t.compare t.cpu.a r) s

/-- ISB (R258). -/
def execIsb (m : MemMode) (s : State) : Result :=
  rmwOp m (fun b _ => b + 1) (fun _ t => t) (fun r t => t.subFromA r) s

/-- The undocumented NOPs (R259): a form with an operand reads it and discards the value. -/
def execNopUndoc (_opcode : Byte) (m : NopMode) (s : State) : Result :=
  match m with
  | .implied => impliedOp (fun t => t) s
  | .immediate op1 => readOp (.immediate op1) (fun _ t => t) s
  | .mem m => readOp (.mem m) (fun _ t => t) s

/-- SBC in its second immediate encoding (R260). -/
def execSbcUndoc (op1 : Byte) (s : State) : Result := readOp (.immediate op1) (fun v t => t.subFromA v) s

/-- An unmapped byte (R127, R261): `PC` is still at the opcode. -/
def execUnmapped (opcode : Byte) (s : State) : Result := .fault (.unknownOpcode opcode s.cpu.pc)

end Sys2Proof.Machine
end

