-- ==== Sys2Proof/Machine/PpuRender.lean ====
section
/-! DEFINITION. One scanline of the picture (spec/48_ppu_render.md R303, R306 to R314). The rule's arrays over `px` are
functions of `px` here; their loops have no other effect. -/

namespace Sys2Proof.Machine

/-- `RenderingEnabled()` (R306). -/
def renderingEnabled (p : Ppu) : Bool := p.mask.getLsbD 3 || p.mask.getLsbD 4

/-! Background (R307). -/

/-- `bgval[px]` and `bgpal[px]`. -/
structure BgPixel where
  value   : Nat
  palette : Nat
  deriving DecidableEq, Repr

/-- The two-bit colour value of column `b` (bit 7 is the leftmost pixel) of the two bitplane bytes at `pa` (R93, R307). -/
def patternValue (s : State) (pa b : Nat) : Nat :=
  2 * bitNat (ppuRead (pa + 8) s) b + bitNat (ppuRead pa s) b

/-- The background pixel before left-column clipping. -/
def bgUnclipped (s : State) (px : Nat) : BgPixel :=
  let v := s.ppu.v.toNat
  let fy := (v >>> 12) &&& 7
  let cy := (v >>> 5) &&& 31
  let cx0 := v &&& 31
  let nt0 := (v >>> 10) &&& 3
  let off := s.ppu.x.toNat + px
  let c := cx0 + (off >>> 3)
  let cx := c &&& 31
  let nt := nt0 ^^^ ((c >>> 5) &&& 1)
  let tile := (ppuRead (0x2000 ||| (nt <<< 10) ||| (cy <<< 5) ||| cx) s).toNat
  let attr := (ppuRead (0x23C0 ||| (nt <<< 10) ||| ((cy >>> 2) <<< 3) ||| (cx >>> 2)) s).toNat
  let sh := ((cy &&& 2) <<< 1) ||| (cx &&& 2)
  let pa := (bitNat s.ppu.ctrl 4 <<< 12) ||| (tile <<< 4) ||| fy
  ⟨patternValue s pa (7 - (off &&& 7)), (attr >>> sh) &&& 3⟩

/-- `BgLine()` at `px` (R307). -/
def bgPixel (s : State) (px : Nat) : BgPixel :=
  if s.ppu.mask.getLsbD 3 = false then ⟨0, 0⟩
  else if s.ppu.mask.getLsbD 1 = false ∧ px < 8 then ⟨0, (bgUnclipped s px).palette⟩
  else bgUnclipped s px

/-! Sprites (R309, R310). -/

/-- Byte `k` of sprite `i`: Y, tile index, attributes, X (R42). -/
def spriteByte (s : State) (i k : Nat) : Byte := Cells.read s.ppu.oam (4 * i + k)

/-- Sprite height (R309). -/
def spriteHeight (p : Ppu) : Nat := if p.ctrl.getLsbD 5 then 16 else 8

/-- Sprite `i`'s Y range includes the line: `0 <= s - (Y + 1) < h` (R309). -/
def spriteInRange (s : State) (line i : Nat) : Bool :=
  decide ((spriteByte s i 0).toNat + 1 ≤ line) && decide (line < (spriteByte s i 0).toNat + 1 + spriteHeight s.ppu)

/-- The sprites in range on a line, in ascending order. -/
def spritesInRange (s : State) (line : Nat) : List Nat := (List.range 64).filter (spriteInRange s line)

/-- `sel`: the first eight of them, none while rendering is disabled (R309). -/
def selectedSprites (s : State) (line : Nat) : List Nat :=
  if renderingEnabled s.ppu then (spritesInRange s line).take 8 else []

/-- Whether the evaluation sets the overflow flag (R309, R313). -/
def spriteOverflow (s : State) (line : Nat) : Bool :=
  renderingEnabled s.ppu && decide (8 < (spritesInRange s line).length)

/-- The address of the bitplane 0 byte of sprite `i` on a line (R310). -/
def spritePattern (s : State) (line i : Nat) : Nat :=
  let tile := (spriteByte s i 1).toNat
  let h := spriteHeight s.ppu
  let row0 := line - ((spriteByte s i 0).toNat + 1)
  let row := if (spriteByte s i 2).getLsbD 7 then h - 1 - row0 else row0
  if h = 8 then (bitNat s.ppu.ctrl 3 <<< 12) ||| (tile <<< 4) ||| row
  else ((tile &&& 1) <<< 12) ||| (((tile &&& 0xFE) + (row >>> 3)) <<< 4) ||| (row &&& 7)

/-- The colour value of column `c` of sprite `i` on a line (R310). -/
def spriteValue (s : State) (line i c : Nat) : Nat :=
  patternValue s (spritePattern s line i) (if (spriteByte s i 2).getLsbD 6 then c else 7 - c)

/-- The colour value sprite `i` shows at `px`, where it is opaque and not clipped there (R310). -/
def spriteAt (s : State) (line px i : Nat) : Option Nat :=
  let sx := (spriteByte s i 3).toNat
  if sx ≤ px ∧ px < sx + 8 ∧ px ≤ 255 then
    let val := spriteValue s line i (px - sx)
    if val = 0 then none
    else if px < 8 ∧ s.ppu.mask.getLsbD 2 = false then none
    else some val
  else none

/-- `owner[px]` with `spval[px]`: the lowest selected sprite that is opaque at `px`; none while sprites are not shown
(R309, R310). -/
def ownerAt (s : State) (line px : Nat) : Option (Nat × Nat) :=
  if s.ppu.mask.getLsbD 4 then
    (selectedSprites s line).findSome? (fun i => (spriteAt s line px i).map (fun val => (i, val)))
  else none

/-- `Sprite0Test` over the eight columns of sprite 0 (R310, R312). -/
def spriteZeroHit (s : State) (line : Nat) : Bool :=
  s.ppu.mask.getLsbD 3 && s.ppu.mask.getLsbD 4 && (selectedSprites s line).contains 0 &&
  (List.range 8).any (fun c =>
    let px := (spriteByte s 0 3).toNat + c
    (spriteAt s line px 0).isSome && (bgPixel s px).value != 0 && px != 255)

/-! Compositing and output (R311, R314). -/

/-- The palette index `Colour(px)` chooses (R311). -/
def colourIndex (s : State) (line px : Nat) : Nat :=
  let bg := bgPixel s px
  let behind := if bg.value = 0 then 0 else (bg.palette <<< 2) ||| bg.value
  if renderingEnabled s.ppu = false then 0
  else
    match ownerAt s line px with
    | none => behind
    | some (i, val) =>
      if bg.value = 0 ∨ (spriteByte s i 2).getLsbD 5 = false then
        0x10 ||| (((spriteByte s i 2).toNat &&& 3) <<< 2) ||| val
      else behind

/-- `Output(c)` (R314): grayscale, then the arguments of `RGB_OF`. -/
def output (p : Ppu) (c : BitVec 6) : Pixel :=
  ⟨if p.mask.getLsbD 0 then c &&& 0x30 else c, p.mask.extractLsb' 5 3⟩

/-- The RGB24 value of a pixel: `RGB_OF(c, mask[7:5])` (R7, R314). -/
def Pixel.rgb (q : Pixel) : BitVec 24 := Config.rgbOf q.colour q.emphasis

/-- `Colour(px)` (R311). -/
def colour (s : State) (line px : Nat) : Pixel :=
  output s.ppu (Cells.read s.ppu.pal (palIndex (0x3F00 ||| colourIndex s line px)))

/-- The 256 pixels of a line. -/
def linePixels (s : State) (line : Nat) : List Pixel := (List.range 256).map (colour s line)

/-! `v` after a composed line (R308). -/

/-- `IncrementY()`. -/
def incrementY (v : BitVec 15) : BitVec 15 :=
  if v.extractLsb' 12 3 ≠ 7 then v + 0x1000
  else
    let v0 := v &&& 0x0FFF
    let y := v0.extractLsb' 5 5
    let v1 := if y = 29 then v0 ^^^ 0x0800 else v0
    let y1 : BitVec 5 := if y = 29 then 0 else if y = 31 then 0 else y + 1
    (v1 &&& 0x7C1F) ||| (y1.setWidth 15 <<< 5)

/-- `CopyHorizontal()`. -/
def copyHorizontal (v t : BitVec 15) : BitVec 15 := (v &&& 0x7BE0) ||| (t &&& 0x041F)

/-- `RenderLine(s)` (R303): the line's pixels, the two sprite flags, and `v` for the next line. -/
def renderLine (line : Nat) (s : State) : State :=
  { s with ppu := { s.ppu with
      fb := Sparse.put s.ppu.fb line (linePixels s line)
      status := s.ppu.status ||| (if spriteOverflow s line then 0x20#8 else 0#8) |||
        (if spriteZeroHit s line then 0x40#8 else 0#8)
      v := if renderingEnabled s.ppu then copyHorizontal (incrementY s.ppu.v) s.ppu.t else s.ppu.v } }

end Sys2Proof.Machine
end

