-- ==== Sys2Proof/Machine/PpuStep.lean ====
section
/-! DEFINITION. One dot of the PPU (spec/48_ppu_render.md R300 to R305, R315, R317). -/

namespace Sys2Proof.Machine

/-- Position advance (R301). -/
def advanceDot (s : State) : State :=
  if s.ppu.cycle = 340 then { s with ppu := { s.ppu with cycle := 0, scanline := s.ppu.scanline + 1 } }
  else { s with ppu := { s.ppu with cycle := s.ppu.cycle + 1 } }

/-- Pre-render line, cycle 1: the three status bits are cleared (R302). -/
def clearStatus (s : State) : State := { s with ppu := { s.ppu with status := s.ppu.status &&& 0x1F } }

/-- Pre-render line, cycle 304: `v <- t` if rendering is enabled (R302). -/
def copyScroll (s : State) : State :=
  if renderingEnabled s.ppu then { s with ppu := { s.ppu with v := s.ppu.t } } else s

/-- Vblank entry (R304): flag and NMI request unless suppressed, and the frame is emitted; the buffer is then cleared
(R43, R315; log 9). -/
def enterVblank (s : State) : State :=
  { s with
    cpu := { s.cpu with
      nmiPending := s.cpu.nmiPending || (!s.ppu.vblSuppress && s.ppu.ctrl.getLsbD 7) }
    ppu := { s.ppu with
      status := if s.ppu.vblSuppress then s.ppu.status else putBit s.ppu.status 7 true
      vblSuppress := false
      fb := [] }
    out := s.out ++ [.newFrame s.ppu.fb] }

/-- The events of the position just reached (R302 to R304); at most one applies, and most positions have none (R317). -/
def dotEvents (s : State) : State :=
  if s.ppu.scanline = -1 ∧ s.ppu.cycle = 1 then clearStatus s
  else if s.ppu.scanline = -1 ∧ s.ppu.cycle = 304 then copyScroll s
  else if 0 ≤ s.ppu.scanline ∧ s.ppu.scanline ≤ 239 ∧ s.ppu.cycle = 257 then renderLine s.ppu.scanline.toNat s
  else if s.ppu.scanline = 241 ∧ s.ppu.cycle = 1 then enterVblank s
  else s

/-- End of frame (R305). -/
def endFrame (s : State) : State :=
  if s.ppu.scanline = 260 ∧ s.ppu.cycle = 340 then
    { s with ppu := { s.ppu with scanline := -1, cycle := -1, frame := s.ppu.frame + 1 } }
  else s

/-- `PpuStep()` (R300). -/
def ppuStep (s : State) : State := endFrame (dotEvents (advanceDot s))

/-- `n` dots. -/
def ppuSteps : Nat → State → State
  | 0, s => s
  | n + 1, s => ppuSteps n (ppuStep s)

end Sys2Proof.Machine
end

