-- ==== Sys2Proof/Machine/Execute.lean ====
section
/-! DEFINITION. `execute()` (spec/30_encoding.md R122) and the parts of the system step (spec/60_exceptions.md R360, R361):
the environment's inputs, the interrupt check, the fetch, the PPU catch-up; and where a program is placed. -/

namespace Sys2Proof.Machine

/-! The environment (R361, R364, R365). -/

/-- Bit of a button in `buttons_k` (R44). -/
def Button.bit : Button → Nat
  | .a => 0
  | .b => 1
  | .select => 2
  | .start => 3
  | .up => 4
  | .down => 5
  | .left => 6
  | .right => 7

/-- One event of the environment: `button_change` (R364) or `IrqRequest` (R365). -/
def applyInput (s : State) : Input → State
  | .buttonChange .one button pressed =>
    { s with pads := { s.pads with buttons1 := putBit s.pads.buttons1 button.bit pressed } }
  | .buttonChange .two button pressed =>
    { s with pads := { s.pads with buttons2 := putBit s.pads.buttons2 button.bit pressed } }
  | .irqRequest => { s with cpu := { s.cpu with irqPending := true } }

/-- The next batch of events, applied between system steps (R361; log 10). -/
def applyInputs (s : State) : State :=
  match s.inputs with
  | [] => s
  | batch :: rest => batch.foldl applyInput { s with inputs := rest }

/-- A system step starts: no output yet, then the environment's batch. -/
def startStep (s : State) : State := applyInputs { s with out := [] }

/-! `execute()` (R122). -/

/-- The interrupt check (R122, R345): an NMI first, else an IRQ that `I` does not mask; 7 cycles. -/
def pollInterrupts (s : State) : State :=
  if s.cpu.nmiPending then { enterNmi s with c0 := 7 }
  else if s.cpu.irqPending ∧ s.flag .i = false then { enterIrq s with c0 := 7 }
  else { s with c0 := 0 }

/-- What the fetch gives: the table row's instruction and cycles, and the state after the bus reads. -/
structure Fetched where
  instr  : Instr
  cycles : Nat
  state  : State

/-- Fetch and decode (R122): opcode, `op1`, `op2` through the bus in this order, then `PC` past the instruction; an unmapped
byte reads no operand and leaves `PC` at the opcode (R261). -/
def fetch (s : State) : Fetched :=
  let pc := s.cpu.pc
  let opc := cpuRead pc s
  let row := opcodeRow opc.1
  if row.mapped then
    let op1 := if 2 ≤ row.length then cpuRead (pc + 1) opc.2 else (0x00, opc.2)
    let op2 := if row.length = 3 then cpuRead (pc + 2) op1.2 else (0x00, op1.2)
    ⟨row.build op1.1 op2.1, row.cycles, op2.2.setPc (pc + BitVec.ofNat 16 row.length)⟩
  else ⟨row.build 0x00 0x00, row.cycles, opc.2⟩

/-- The locals of `execute()` before the operation runs: `dma <- 0`, the base count of the row (R122). -/
def startInstr (cycles : Nat) (s : State) : State := { s with base := cycles, extra := 0, dma := 0 }

/-- `execute()` (R122). -/
def execute (s : State) : Result :=
  let f := fetch (pollInterrupts s)
  exec f.instr (startInstr f.cycles f.state)

/-- What `execute()` returns: `c0 + row.cycles + extra + dma` (R122). -/
def State.cycles (s : State) : Nat := s.c0 + s.base + s.extra + s.dma

/-- After `execute()` returned `n` cycles: count them, tick the APU `n` times, perform `3 * n` dots (R360). -/
def catchUp (s : State) : State :=
  ppuSteps (3 * s.cycles)
    { s with cpu := { s.cpu with cyc := s.cpu.cyc + s.cycles }, out := s.out ++ List.replicate s.cycles .apuTick }

/-! Placing a program (log 5). -/

/-- Whether a bus address holds a byte of memory. -/
def isMemory (a : Word) (s : State) : Bool := (s.held a).isSome

/-- Puts a byte into the memory an address reaches, ROM included: what a loader does, not what a store does. -/
def placeByte (a : Word) (b : Byte) (s : State) : State :=
  if a.toNat < 0x2000 then writeRam a b s
  else if 0x8000 ≤ a.toNat then
    { s with cart := { s.cart with prg := Cells.write s.cart.prg (s.cart.prgOffset a) b } }
  else if 0x6000 ≤ a.toNat ∧ s.cart.prgRam then
    { s with cart := { s.cart with wram := Cells.write s.cart.wram (a.toNat - 0x6000) b } }
  else s

/-- The three bytes an instruction may have, at `a` on. -/
def placeBytes (a : Word) (b0 b1 b2 : Byte) (s : State) : State :=
  placeByte (a + 2) b2 (placeByte (a + 1) b1 (placeByte a b0 s))

/-- A state whose next fetch is at its own `PC` and whose three bytes there are memory: the state itself where that is so
already, else with no interrupt and no input ahead, and with `PC` at 0 if it is not in memory. -/
def readyToFetch (s : State) : State :=
  let s1 := if s.cpu.nmiPending = false ∧ s.cpu.irqPending = false ∧ s.inputs = [] then s
    else { s with cpu := { s.cpu with nmiPending := false, irqPending := false }, inputs := [] }
  if isMemory s1.cpu.pc s1 ∧ isMemory (s1.cpu.pc + 1) s1 ∧ isMemory (s1.cpu.pc + 2) s1 then s1 else s1.setPc 0x0000

end Sys2Proof.Machine
end

