-- ==== Sys2Proof/Machine/Step.lean ====
section
/-! DEFINITION. One step of the machine: `SystemStep()` (spec/60_exceptions.md R360). -/

namespace Sys2Proof.Machine

/-- One system step (R360): the environment's batch, one `execute()`, the PPU catch-up; a fatal fault ends it (R341). -/
def step (s : State) : Host.Outcome State Fault Refusal :=
  mapNext catchUp (execute (startStep s))

/-- `s` with an instruction placed where `step` fetches its next one (log 5): its bits `w` numbered as
spec/opcode_table.json numbers them, those above `nbits` zero. -/
def State.withFetchWord (s : State) (nbits w : Nat) : State :=
  let s1 := readyToFetch s
  placeBytes s1.cpu.pc (tableByte (tableBits nbits w) 0) (tableByte (tableBits nbits w) 1)
    (tableByte (tableBits nbits w) 2) s1

end Sys2Proof.Machine
end

