-- ==== Sys2Proof/Safety.lean ====
section
/-! DEFINITION. The terms in which statements about the machine are made: what an instruction leaves alone (its frame), the
invariant every step keeps, and the cycle counts the rules of the instructions list. -/

namespace Sys2Proof.Machine

/-! Frames. -/

/-- Every flag not listed is as before. -/
def SameFlagsBut (fs : List Flag) (s t : State) : Prop := ∀ f, f ∉ fs → t.flag f = s.flag f

/-- Every 8-bit register not listed is as before. -/
def SameRegsBut (rs : List Reg) (s t : State) : Prop := ∀ r, r ∉ rs → t.reg r = s.reg r

/-- Outside the CPU registers and the extra cycle count nothing differs. -/
def OnlyCpu (s t : State) : Prop := t = { s with cpu := t.cpu, extra := t.extra }

/-- The byte `OAM[i]`. -/
def oamByte (i : Nat) (s : State) : Byte := Cells.read s.ppu.oam i

/-- Every byte of memory reads as before: CPU address space, PPU address space, OAM. -/
structure SameMemory (s t : State) : Prop where
  cpu : ∀ a, t.held a = s.held a
  ppu : ∀ a, ppuRead a t = ppuRead a s
  oam : ∀ i, oamByte i t = oamByte i s

/-- What an instruction without a memory operand does: registers `rs` and flags `fs` at most, and its extra cycles. -/
structure RegisterFrame (rs : List Reg) (fs : List Flag) (s t : State) : Prop where
  regs   : SameRegsBut rs s t
  flags  : SameFlagsBut fs s t
  memory : SameMemory s t
  rest   : OnlyCpu s t
  nmi    : t.cpu.nmiPending = s.cpu.nmiPending
  irq    : t.cpu.irqPending = s.cpu.irqPending
  cyc    : t.cpu.cyc = s.cpu.cyc

/-- What an instruction that reads operand `m` and stores nothing does. The read itself may change a device (R76): outside
the CPU the state after the instruction is the state after that one read. -/
structure ReadFrame (rs : List Reg) (fs : List Flag) (m : ReadMode) (s t : State) : Prop where
  regs   : SameRegsBut rs s t
  flags  : SameFlagsBut fs s t
  pc     : t.cpu.pc = s.cpu.pc
  memory : SameMemory s t
  rest   : OnlyCpu (readOperand m s).2 t
  nmi    : t.cpu.nmiPending = (readOperand m s).2.cpu.nmiPending
  irq    : t.cpu.irqPending = s.cpu.irqPending
  cyc    : t.cpu.cyc = s.cpu.cyc

/-- A CPU address that reaches a byte of RAM or of work RAM. -/
def Backed (s : State) (a : Word) : Prop :=
  a.toNat < 0x2000 ∨ (0x6000 ≤ a.toNat ∧ a.toNat < 0x8000 ∧ s.cart.prgRam = true)

/-- Two CPU addresses reach the same byte: the same address, or RAM addresses equal mod 0x800 (R66). -/
def SameCell (a b : Word) : Prop := a = b ∨ (a.toNat < 0x2000 ∧ b.toNat < 0x2000 ∧ ramCell a = ramCell b)

/-- What one store of `v` to CPU address `a`, below 0x8000, does to memory and to the devices, from `s` to `t` (R65 to R72).
-/
structure StoreEffect (a : Word) (v : Byte) (s t : State) : Prop where
  there     : Backed s a → t.held a = some v
  elsewhere : ∀ b, ¬ SameCell a b → t.held b = s.held b
  vram      : ¬ (0x2000 ≤ a.toNat ∧ a.toNat < 0x4000) → ∀ b, ppuRead b t = ppuRead b s
  oam       : ¬ (0x2000 ≤ a.toNat ∧ a.toNat < 0x4000) → a ≠ 0x4014 → ∀ i, oamByte i t = oamByte i s
  ram       : a.toNat < 0x2000 → OnlyCpu { s with ram := t.ram } t
  ppuReg    : 0x2000 ≤ a.toNat → a.toNat < 0x4000 → OnlyCpu (ppuRegWrite (a.toNat % 8) v s) t
  dma       : a = 0x4014 → OnlyCpu (oamDma v s) t
  strobe    : a = 0x4016 → OnlyCpu (ctrlStrobe v s) t
  apu       : 0x4000 ≤ a.toNat → a.toNat ≤ 0x4017 → a ≠ 0x4014 → a ≠ 0x4016 → OnlyCpu (apuWrite a v s) t
  workRam   : 0x6000 ≤ a.toNat → s.cart.prgRam = true →
                OnlyCpu { s with cart := { s.cart with wram := t.cart.wram } } t
  ignored   : 0x4018 ≤ a.toNat → ¬ Backed s a → OnlyCpu s t
  nmi       : a ≠ 0x4014 → t.cpu.nmiPending = s.cpu.nmiPending
  dmaNmi    : a = 0x4014 → t.cpu.nmiPending = (oamDma v s).cpu.nmiPending

/-- What an instruction that stores `v` to `a` and reads no operand does. -/
structure StoreFrame (a : Word) (v : Byte) (s t : State) : Prop where
  regs   : SameRegsBut [] s t
  flags  : SameFlagsBut [] s t
  pc     : t.cpu.pc = s.cpu.pc
  irq    : t.cpu.irqPending = s.cpu.irqPending
  cyc    : t.cpu.cyc = s.cpu.cyc
  extra  : t.extra = 0
  effect : StoreEffect a v s t

/-- What a read-modify-write instruction on address `a` that writes `v` does: one read, one write (R82). -/
structure ModifyFrame (rs : List Reg) (fs : List Flag) (a : Word) (v : Byte) (s t : State) : Prop where
  regs      : SameRegsBut rs s t
  flags     : SameFlagsBut fs s t
  pc        : t.cpu.pc = s.cpu.pc
  irq       : t.cpu.irqPending = s.cpu.irqPending
  cyc       : t.cpu.cyc = s.cpu.cyc
  extra     : t.extra = 0
  elsewhere : ∀ b, ¬ SameCell a b → t.held b = s.held b
  effect    : StoreEffect a v (cpuRead a s).2 t

/-- What an instruction that pushes or pulls bytes does outside `rs`, `fs` and `PC`: RAM changes at the addresses `pushed` and
nowhere else. -/
structure StackFrame (rs : List Reg) (fs : List Flag) (pushed : List Word) (s t : State) : Prop where
  regs   : SameRegsBut (.sp :: rs) s t
  flags  : SameFlagsBut fs s t
  memory : ∀ b, (∀ a ∈ pushed, ¬ SameCell a b) → t.held b = s.held b
  ppu    : ∀ b, ppuRead b t = ppuRead b s
  oam    : ∀ i, oamByte i t = oamByte i s
  rest   : OnlyCpu { s with ram := t.ram } t
  cyc    : t.cpu.cyc = s.cpu.cyc

/-- Taking an interrupt or BRK (R242, R346): three bytes pushed, `I` set, `PC` from the vector. -/
structure HandlerEntered (ret : Word) (status : Byte) (vector : Word) (s t : State) : Prop where
  high   : t.held (stackAddr s.cpu.sp) = some (ret.extractLsb' 8 8)
  low    : t.held (stackAddr (s.cpu.sp - 1)) = some (ret.extractLsb' 0 8)
  status : t.held (stackAddr (s.cpu.sp - 2)) = some status
  sp     : t.cpu.sp = s.cpu.sp - 3
  i      : t.flag .i = true
  pc     : t.cpu.pc = (cpuRead (vector + 1) s).1 ++ (cpuRead vector s).1
  frame  : StackFrame [] [.i] [stackAddr s.cpu.sp, stackAddr (s.cpu.sp - 1), stackAddr (s.cpu.sp - 2)] s t

/-- `SetZN(v)` has been done (R27). -/
def SetsZN (v : Byte) (t : State) : Prop := t.flag .z = (v == 0) ∧ t.flag .n = v.getLsbD 7

/-- The `k`-th of repeated bus reads of one address, from 0 up. -/
def nthRead (a : Word) : Nat → State → Byte
  | 0, s => (cpuRead a s).1
  | k + 1, s => nthRead a k (cpuRead a s).2

/-! The PPU: what a line shows, in arithmetic. -/

/-- The region of a PPU address below 0x4000 (R102): pattern tables, nametables with their mirror, palette. -/
def ppuRegion (a : Nat) : Nat := if a < 0x2000 then 0 else if a < 0x3F00 then 1 else 2

/-- The background at pixel `x` of the line (R307), in arithmetic: the tile column `x` reaches in the row of `v`, going on into the
horizontally neighbouring nametable after column 31; its tile and attribute bytes; the two bitplane bytes of the row; nothing
where the background is not shown, no colour in the clipped left column. -/
def BackgroundAt (s : State) (x : Nat) : Prop :=
  let v := s.ppu.v.toNat
  let off := s.ppu.x.toNat + x
  let col := v % 32 + off / 8
  let row := v / 32 % 32
  let table := 0x2000 + 0x800 * (v / 0x800 % 2) + 0x400 * ((v / 0x400 + col / 32) % 2)
  let tile := ppuRead (table + 32 * row + col % 32) s
  let attr := ppuRead (table + 0x3C0 + 8 * (row / 4) + col % 32 / 4) s
  let plane := 0x1000 * (s.ppu.ctrl.getLsbD 4).toNat + 16 * tile.toNat + v / 0x1000
  (s.ppu.mask.getLsbD 3 = false → (bgPixel s x).value = 0) ∧
  (s.ppu.mask.getLsbD 3 = true →
    (bgPixel s x).palette = attr.toNat / 4 ^ (2 * (row / 2 % 2) + col / 2 % 2) % 4 ∧
    (bgPixel s x).value =
      if s.ppu.mask.getLsbD 1 = false ∧ x < 8 then 0
      else 2 * ((ppuRead (plane + 8) s).getLsbD (7 - off % 8)).toNat +
        ((ppuRead plane s).getLsbD (7 - off % 8)).toNat)

/-- The palette entry pixel `x` shows (R311): the backdrop, the background's, or its sprite's where that is in front or the
background transparent. -/
def entryAt (s : State) (line x : Nat) : Nat :=
  let bg := bgPixel s x
  if s.ppu.mask.getLsbD 3 = false ∧ s.ppu.mask.getLsbD 4 = false then 0
  else
    match ownerAt s line x with
    | none => if bg.value = 0 then 0 else 4 * bg.palette + bg.value
    | some (i, val) =>
      if bg.value = 0 ∨ (oamByte (4 * i + 2) s).getLsbD 5 = false then
        16 + 4 * ((oamByte (4 * i + 2) s).toNat % 4) + val
      else 4 * bg.palette + bg.value

/-- Sprite `i`, in range of the line, shows the opaque value `val` at pixel `px` (R310), in arithmetic: the row within the sprite,
turned round by vertical flip; the tile of 8x8 or the upper or lower tile of 8x16 mode; the column, turned round by horizontal
flip; the two bitplane bytes; nothing past pixel 255 nor in the clipped left column. -/
def SpriteShows (s : State) (line px i val : Nat) : Prop :=
  let tall := s.ppu.ctrl.getLsbD 5
  let tile := (oamByte (4 * i + 1) s).toNat
  let attr := oamByte (4 * i + 2) s
  let left := (oamByte (4 * i + 3) s).toNat
  let down := line - (oamByte (4 * i) s).toNat - 1
  let row := if attr.getLsbD 7 = true then (if tall = true then 15 else 7) - down else down
  let plane := if tall = true then 0x1000 * (tile % 2) + 16 * (tile / 2 * 2 + row / 8) + row % 8
    else 0x1000 * (s.ppu.ctrl.getLsbD 3).toNat + 16 * tile + row
  let bit := if attr.getLsbD 6 = true then px - left else 7 - (px - left)
  left ≤ px ∧ px < left + 8 ∧ px < 256 ∧ (8 ≤ px ∨ s.ppu.mask.getLsbD 2 = true) ∧ val ≠ 0 ∧
  val = 2 * ((ppuRead (plane + 8) s).getLsbD bit).toNat + ((ppuRead plane s).getLsbD bit).toNat

/-! The machine's position in time. -/

/-- How many dots lie before the PPU's position: 89342 a frame, 341 a line (R301). -/
def dotNumber (p : Ppu) : Int := p.frame * 89342 + (p.scanline + 1) * 341 + p.cycle

/-- A position the PPU can have between steps (R40, R305). -/
def legalPosition (p : Ppu) : Bool :=
  (p.scanline == -1 && p.cycle == -1) ||
  (decide (-1 ≤ p.scanline) && decide (p.scanline ≤ 260) && decide (0 ≤ p.cycle) && decide (p.cycle ≤ 340) &&
    !(p.scanline == 260 && p.cycle == 340))

/-- The frame buffer holds whole lines of the picture only, each once (R43). -/
def FrameBuffer.wf (fb : FrameBuffer) : Bool :=
  Sparse.rising 240 0 fb && fb.all (fun e => e.2.length == 256)

/-- The state invariant (R26, R37, R40, R48), and that every memory has its canonical form. -/
structure Inv (s : State) : Prop where
  unused   : s.flag .u = true
  brk      : s.flag .b = false
  status   : s.ppu.status &&& 0x1F = 0
  position : legalPosition s.ppu = true
  ram      : Memory.wf 0x800 s.ram = true
  wram     : Memory.wf 0x2000 s.cart.wram = true
  prg      : Memory.wf 0x8000 s.cart.prg = true
  chr      : Memory.wf 0x2000 s.cart.chr = true
  nt       : Memory.wf 0x800 s.ppu.nt = true
  pal      : Cells.wf 32 s.ppu.pal = true
  oam      : Memory.wf 0x100 s.ppu.oam = true
  fb       : FrameBuffer.wf s.ppu.fb = true

/-- The parameters a power-up may take (R7): every memory in its canonical form. -/
structure PowerUp.Ok (q : PowerUp) : Prop where
  ram  : Memory.wf 0x800 q.ram0 = true
  vram : Memory.wf 0x800 q.vram0 = true
  oam  : Memory.wf 0x100 q.oam0 = true
  pal  : Cells.wf 32 q.pal0 = true
  prg  : Memory.wf 0x8000 q.cart.prg = true
  chr  : Memory.wf 0x2000 q.cart.chr = true
  wram : Memory.wf 0x2000 q.cart.wram = true

end Sys2Proof.Machine

namespace Sys2Proof

/-! The base cycle counts, from the Encoding lines of the rules R160 to R260 (the table of R126 gives them by opcode byte).
-/

/-- A memory operand that is only read. -/
def MemMode.readCycles : MemMode → Nat
  | .zeroPage _ => 3
  | .zeroPageX _ => 4
  | .zeroPageY _ => 4
  | .absolute _ _ => 4
  | .absoluteX _ _ => 4
  | .absoluteY _ _ => 4
  | .indirectX _ => 6
  | .indirectY _ => 5

/-- A memory operand that is only written. -/
def MemMode.storeCycles : MemMode → Nat
  | .zeroPage _ => 3
  | .zeroPageX _ => 4
  | .zeroPageY _ => 4
  | .absolute _ _ => 4
  | .absoluteX _ _ => 5
  | .absoluteY _ _ => 5
  | .indirectX _ => 6
  | .indirectY _ => 6

/-- A memory operand that is read and written. -/
def MemMode.modifyCycles : MemMode → Nat
  | .zeroPage _ => 5
  | .zeroPageX _ => 6
  | .zeroPageY _ => 6
  | .absolute _ _ => 6
  | .absoluteX _ _ => 7
  | .absoluteY _ _ => 7
  | .indirectX _ => 8
  | .indirectY _ => 8

def ReadMode.cycles : ReadMode → Nat
  | .immediate _ => 2
  | .mem m => m.readCycles

def ShiftMode.cycles : ShiftMode → Nat
  | .accumulator => 2
  | .mem m => m.modifyCycles

def JumpMode.cycles : JumpMode → Nat
  | .absoluteJmp _ _ => 3
  | .indirect _ _ => 5

def NopMode.cycles : NopMode → Nat
  | .implied => 2
  | .immediate _ => 2
  | .mem m => m.readCycles

/-- The base cycle count of an instruction; none for an unmapped byte. -/
def baseCycles : Instr → Option Nat
  | .lda m | .ldx m | .ldy m | .adc m | .sbc m | .and m | .ora m | .eor m | .cmp m | .cpx m | .cpy m => some m.cycles
  | .bit m | .lax m => some m.readCycles
  | .sta m | .stx m | .sty m | .sax m => some m.storeCycles
  | .inc m | .dec m | .slo m | .rla m | .sre m | .rra m | .dcp m | .isb m => some m.modifyCycles
  | .asl m | .lsr m | .rol m | .ror m => some m.cycles
  | .tax | .tay | .txa | .tya | .tsx | .txs | .inx | .iny | .dex | .dey => some 2
  | .clc | .sec | .cli | .sei | .clv | .cld | .sed | .nop => some 2
  | .bcc _ | .bcs _ | .beq _ | .bne _ | .bmi _ | .bpl _ | .bvc _ | .bvs _ => some 2
  | .jmp m => some m.cycles
  | .jsr _ _ | .rts | .rti => some 6
  | .pha | .php => some 3
  | .pla | .plp => some 4
  | .brk => some 7
  | .nopUndoc _ m => some m.cycles
  | .sbcUndoc _ => some 2
  | .unmapped _ => none

/-- A mode in which a read may cross a page (R155). -/
def MemMode.indexed16 : MemMode → Bool
  | .absoluteX _ _ | .absoluteY _ _ | .indirectY _ => true
  | .zeroPage _ | .zeroPageX _ | .zeroPageY _ | .absolute _ _ | .indirectX _ => false

def ReadMode.indexed16 : ReadMode → Bool
  | .immediate _ => false
  | .mem m => m.indexed16

def NopMode.indexed16 : NopMode → Bool
  | .implied => false
  | .immediate _ => false
  | .mem m => m.indexed16

/-- The instructions whose table row is marked `+` (R156). -/
def paysPageCrossing : Instr → Bool
  | .lda m | .ldx m | .ldy m | .adc m | .sbc m | .and m | .ora m | .eor m | .cmp m => m.indexed16
  | .lax m => m.indexed16
  | .nopUndoc _ m => m.indexed16
  | _ => false

end Sys2Proof

namespace Sys2Proof.Machine

/-! Which instruction may write which flag and register, as R28, R21 and R22 list them. -/

def writesC : Instr → Bool
  | .adc _ | .sbc _ | .cmp _ | .cpx _ | .cpy _ | .asl _ | .lsr _ | .rol _ | .ror _ | .clc | .sec | .plp | .rti
  | .slo _ | .rla _ | .sre _ | .rra _ | .dcp _ | .isb _ | .sbcUndoc _ => true
  | _ => false

def writesZN : Instr → Bool
  | .adc _ | .sbc _ | .and _ | .ora _ | .eor _ | .cmp _ | .cpx _ | .cpy _ | .bit _ | .inc _ | .dec _
  | .inx | .iny | .dex | .dey | .asl _ | .lsr _ | .rol _ | .ror _ | .lda _ | .ldx _ | .ldy _
  | .tax | .tay | .txa | .tya | .tsx | .pla | .plp | .rti
  | .slo _ | .rla _ | .sre _ | .rra _ | .lax _ | .dcp _ | .isb _ | .sbcUndoc _ => true
  | _ => false

def writesV : Instr → Bool
  | .adc _ | .sbc _ | .bit _ | .clv | .plp | .rti | .rra _ | .isb _ | .sbcUndoc _ => true
  | _ => false

def writesI : Instr → Bool
  | .sei | .cli | .plp | .rti | .brk => true
  | _ => false

def writesD : Instr → Bool
  | .sed | .cld | .plp | .rti => true
  | _ => false

/-- Whether the instruction may write the flag; bits 4 and 5 of `P` never change (R26). -/
def writesFlag (i : Instr) : Flag → Bool
  | .c => writesC i
  | .z | .n => writesZN i
  | .v => writesV i
  | .i => writesI i
  | .d => writesD i
  | .b | .u => false

def writesA : Instr → Bool
  | .adc _ | .sbc _ | .and _ | .ora _ | .eor _ | .lda _ | .pla | .txa | .tya | .lax _ | .slo _ | .rla _ | .sre _
  | .rra _ | .isb _ | .sbcUndoc _ => true
  | .asl m | .lsr m | .rol m | .ror m => m == .accumulator
  | _ => false

def writesX : Instr → Bool
  | .ldx _ | .tax | .tsx | .inx | .dex | .lax _ => true
  | _ => false

def writesY : Instr → Bool
  | .ldy _ | .tay | .iny | .dey => true
  | _ => false

/-- By `Push`, `Pull` and TXS (R22). -/
def writesSp : Instr → Bool
  | .pha | .pla | .php | .plp | .jsr _ _ | .rts | .brk | .rti | .txs => true
  | _ => false

/-- Whether the instruction may write the register (R21, R22). -/
def writesReg (i : Instr) : Reg → Bool
  | .a => writesA i
  | .x => writesX i
  | .y => writesY i
  | .sp => writesSp i

/-- The instructions that may write `PC` after it has moved past them (R23: the control transfers). -/
def transfersControl : Instr → Bool
  | .jmp _ | .jsr _ _ | .rts | .bcc _ | .bcs _ | .beq _ | .bne _ | .bmi _ | .bpl _ | .bvc _ | .bvs _ | .brk | .rti => true
  | _ => false

end Sys2Proof.Machine
end

