-- ==== Sys2Proof/Certificates/Slice0/Obligations.lean ====
section
/-! DEFINITION. The statements about the machine, for the provers. Each docstring names the rules of spec/ it formalises or
rests on, with the spec's own decisions (D<n>, log 19) and the model's choices (log <n>) it depends on; a rule that the spec
marks as general knowledge is followed as written (log 20). -/

open Sys2Proof Sys2Proof.Machine

/-! Encoding. -/

/-- Decoding what encoding wrote gives the instruction back and takes exactly its bytes (R120, R126, R129). -/
def Obligations.DecodeOfEncode : Prop :=
  ∀ (i : Instr) (rest : List Byte), i.wellFormed = true → decode (encode i ++ rest) = .ok (i, rest)

/-- What decoding answers is an instruction of the machine, and the bytes it took are that instruction's encoding: each byte
string has one meaning (R126, R129). -/
def Obligations.EncodeOfDecode : Prop :=
  ∀ (bs rest : List Byte) (i : Instr), decode bs = .ok (i, rest) → i.wellFormed = true ∧ bs = encode i ++ rest

/-- Words written out from R126 and the Encoding lines, one of each family. -/
def Obligations.SpecWordsDecode : Prop :=
  decode [0xB1, 0xFF] = .ok (.lda (.mem (.indirectY 0xFF)), []) ∧
  decode [0x8D, 0x14, 0x40] = .ok (.sta (.absolute 0x14 0x40), []) ∧
  decode [0x69, 0x50] = .ok (.adc (.immediate 0x50), []) ∧
  decode [0x3E, 0x34, 0x12] = .ok (.rol (.mem (.absoluteX 0x34 0x12)), []) ∧
  decode [0x6C, 0xFF, 0x02] = .ok (.jmp (.indirect 0xFF 0x02), []) ∧
  decode [0xD0, 0xFC] = .ok (.bne 0xFC, []) ∧
  decode [0x00, 0xEA] = .ok (.brk, [0xEA]) ∧
  decode [0x97, 0x10] = .ok (.sax (.zeroPageY 0x10), []) ∧
  decode [0xFC, 0x00, 0x20] = .ok (.nopUndoc 0xFC (.mem (.absoluteX 0x00 0x20)), []) ∧
  decode [0x02] = .ok (.unmapped 0x02, [])

/-- The opcode table and the Encoding lines of the rules R160 to R261 agree on every instruction's length (R124), base cycle
count, `+` mark (R156) and on which bytes are unmapped (R127). -/
def Obligations.TableAgreesWithRules : Prop :=
  ∀ (i : Instr) (o : Byte), i.wellFormed = true → i.opcode = some o →
    (opcodeRow o).length = (encode i).length ∧ (opcodeRow o).mapped = (baseCycles i).isSome ∧
    (∀ c, baseCycles i = some c → (opcodeRow o).cycles = c) ∧ (opcodeRow o).penalty = paysPageCrossing i

/-! The step. -/

/-- When, after the interrupt check, the bytes at `PC` are those of an instruction, the step is that instruction's meaning
with `PC` past it, followed by the PPU's dots (R122, R360). -/
def Obligations.StepRunsDecodedInstruction : Prop :=
  ∀ (s p : State) (i : Instr) (c : Nat), i.wellFormed = true → baseCycles i = some c → p = pollInterrupts (startStep s) →
    (∀ k (h : k < (encode i).length), p.held (p.cpu.pc + BitVec.ofNat 16 k) = some (encode i)[k]) →
    step s = mapNext catchUp (exec i { p with
      cpu := { p.cpu with pc := p.cpu.pc + BitVec.ofNat 16 (encode i).length }, base := c, extra := 0, dma := 0 })

/-- An unmapped byte is fatal: its meaning always is, and a step that fetches one stops with that byte and the `PC` it was
fetched from, before `PC` advances (R127, R261). -/
def Obligations.UnmappedByteStops : Prop :=
  (∀ (o : Byte) (s : State), exec (.unmapped o) s = .fault (.unknownOpcode o s.cpu.pc)) ∧
  ∀ (s p : State) (o : Byte), o ∈ unmappedBytes → p = pollInterrupts (startStep s) → p.held p.cpu.pc = some o →
    step s = .fault (.unknownOpcode o p.cpu.pc)

/-- The interrupt check of `execute()`: a pending NMI is served first and unconditionally, else a pending IRQ while `I` is
clear, else nothing; 7 cycles (R345, R346, R122). The pushed mask, the setting of `I` and the clearing of the request served are
the spec's decisions D1, D7, D8 (log 19). -/
def Obligations.InterruptCheck : Prop :=
  ∀ s : State,
    (s.cpu.nmiPending = true →
      HandlerEntered s.cpu.pc ((s.cpu.p ||| 0x20) &&& 0xEF) 0xFFFA { s with c0 := 7 } (pollInterrupts s) ∧
      (pollInterrupts s).cpu.nmiPending = false ∧ (pollInterrupts s).cpu.irqPending = s.cpu.irqPending) ∧
    (s.cpu.nmiPending = false → s.cpu.irqPending = true → s.flag .i = false →
      HandlerEntered s.cpu.pc ((s.cpu.p ||| 0x20) &&& 0xEF) 0xFFFE { s with c0 := 7 } (pollInterrupts s) ∧
      (pollInterrupts s).cpu.nmiPending = false ∧ (pollInterrupts s).cpu.irqPending = false) ∧
    (s.cpu.nmiPending = false → (s.cpu.irqPending = false ∨ s.flag .i = true) → pollInterrupts s = { s with c0 := 0 })

/-- The environment's batch, event by event, before the instruction: `IrqRequest` sets `irq_pending`, a button change its one
bit of `buttons_player`, and nothing else changes (R361, R364, R365; the batches are the model's form, log 10). -/
def Obligations.EnvironmentEvents : Prop :=
  ∀ (s : State) (rest : List (List Input)),
    (∀ es : List Input, s.inputs = (.irqRequest :: es) :: rest →
      startStep s = startStep { s with cpu := { s.cpu with irqPending := true }, inputs := es :: rest }) ∧
    (s.inputs = [] → startStep s = { s with out := [] }) ∧
    (s.inputs = [] :: rest → startStep s = { s with inputs := rest, out := [] }) ∧
    (∀ (player : Player) (button : Button) (pressed : Bool) (es : List Input),
      s.inputs = (.buttonChange player button pressed :: es) :: rest →
      ∃ b1 b2, startStep s = startStep { s with
          pads := { s.pads with buttons1 := b1, buttons2 := b2 }, inputs := es :: rest } ∧
        (∀ k < 8, b1.getLsbD k = if player = .one ∧ k = button.bit then pressed else s.pads.buttons1.getLsbD k) ∧
        (∀ k < 8, b2.getLsbD k = if player = .two ∧ k = button.bit then pressed else s.pads.buttons2.getLsbD k))

/-- BRK enters the handler at 0xFFFE with the address of BRK + 2 and `P | 0x30` on the stack; pending requests stay
(R242; the return address and `I` are decisions D7, D27 of the spec). -/
def Obligations.BrkEntersHandler : Prop :=
  ∀ s : State, ∃ t, exec .brk s = .next t ∧ HandlerEntered (s.cpu.pc + 1) (s.cpu.p ||| 0x30) 0xFFFE s t ∧
    t.cpu.nmiPending = s.cpu.nmiPending ∧ t.cpu.irqPending = s.cpu.irqPending ∧ t.extra = 0

/-- RTI pulls the status, then `PC`, low byte first, and does not add one (R243); that it ignores bits 4 and 5 of the pulled
byte is decision D2 of the spec (log 19). -/
def Obligations.RtiReturns : Prop :=
  ∀ (s : State) (b l h : Byte), s.held (stackAddr (s.cpu.sp + 1)) = some b → s.held (stackAddr (s.cpu.sp + 2)) = some l →
    s.held (stackAddr (s.cpu.sp + 3)) = some h →
    ∃ t, exec .rti s = .next t ∧ t.cpu.p = (b &&& 0xEF) ||| 0x20 ∧ t.cpu.pc = h ++ l ∧ t.cpu.sp = s.cpu.sp + 3 ∧
      t.extra = 0 ∧ RegisterFrame [.sp] [.c, .z, .i, .d, .b, .u, .v, .n] s t

/-- From a state whose `P` has bit 5 set and bit 4 clear, an RTI that finds the stack as BRK left it restores `P` and `SP`
and lands at BRK + 2 (R242, R243). The masks that make it so are decisions D1, D2, the return address is D27 (log 19). -/
def Obligations.RtiUndoesBrk : Prop :=
  ∀ s : State, s.flag .u = true → s.flag .b = false → ∃ t, exec .brk s = .next t ∧
    ∀ u : State, u.cpu.sp = t.cpu.sp → (∀ a, u.held a = t.held a) →
      ∃ w, exec .rti u = .next w ∧ w.cpu.p = s.cpu.p ∧ w.cpu.sp = s.cpu.sp ∧ w.cpu.pc = s.cpu.pc + 1

/-- Time: a system step of `n` cycles moves the PPU by exactly `3 * n` dots and the cycle counter by `n`, and emits `n` APU
ticks; `n` is the interrupt's cycles, the base count, the extra cycles and the DMA's (R122, R301, R360, R34). -/
def Obligations.DotsFollowCycles : Prop :=
  ∀ s t : State, step s = .next t →
    dotNumber t.ppu = dotNumber s.ppu + 3 * t.cycles ∧ t.cpu.cyc = s.cpu.cyc + t.cycles ∧
    t.out.count .apuTick = t.cycles ∧ (t.c0 = 0 ∨ t.c0 = 7) ∧ 2 ≤ t.base ∧ t.base ≤ 8 ∧ t.extra ≤ 2 ∧
    (t.dma = 0 ∨ t.dma = 513 ∨ t.dma = 514)

/-- Every step keeps the invariant: bits 5 and 4 of `P`, the low bits of PPUSTATUS, a legal PPU position, every memory in its
canonical form, whole lines in the frame buffer (R48; the canonical form is the model's, log 2). -/
def Obligations.StepKeepsInvariant : Prop :=
  ∀ s t : State, Inv s → step s = .next t → Inv t

/-- A power-up whose memories are in canonical form (the model's form, log 2) meets the invariant (R47, R48), and so does
`State.reset`, which is one choice of the open parameters (logs 2, 3, 9). -/
def Obligations.PowerUpMeetsInvariant : Prop :=
  (∀ q : PowerUp, q.Ok → Inv (State.powerUp q)) ∧ Inv State.reset

/-- The values the source gives for power-up, and `PC` from the reset vector, low byte first (R47, R380, R382). -/
def Obligations.PowerUpFromResetVector : Prop :=
  ∀ q : PowerUp, (State.powerUp q).cpu.p = 0x24 ∧ (State.powerUp q).cpu.sp = 0xFD ∧
    (State.powerUp q).cpu.pc =
      (cpuRead 0xFFFD (State.powerUp q)).1 ++ (cpuRead 0xFFFC (State.powerUp q)).1

/-- A step is never refused, and stops only at an unmapped byte or at a write to ROM (R342). -/
def Obligations.OnlyFatalCausesStop : Prop :=
  ∀ s : State, (∀ r, step s ≠ .refused r) ∧
    ∀ f, step s = .fault f → (∃ o pc, f = .unknownOpcode o pc ∧ o ∈ unmappedBytes) ∨
      (∃ a d, f = .romWrite a d ∧ 0x8000 ≤ a.toNat)

/-- No step changes PRG, the bank count, the mirroring, or what the cartridge does not have: CHR where it is not writable, the
work RAM where there is none (R45, R73). -/
def Obligations.CartridgeIsFixed : Prop :=
  ∀ s t : State, step s = .next t →
    t.cart = { s.cart with chr := t.cart.chr, wram := t.cart.wram } ∧
    (s.cart.chrWritable = false → t.cart.chr = s.cart.chr) ∧ (s.cart.prgRam = false → t.cart.wram = s.cart.wram)

/-! The CPU bus. -/

/-- RAM: a read below 0x2000 gives the byte of its cell and has no effect; a write there changes RAM only, reads back at each of
its mirrors, and changes no other RAM byte (R66). -/
def Obligations.RamMirrors : Prop :=
  ∀ (a b : Word) (d : Byte) (s : State), a.toNat < 0x2000 → b.toNat < 0x2000 →
    cpuRead a s = (Cells.read s.ram (a.toNat % 0x800), s) ∧
    ∃ t, cpuWrite a d s = .next t ∧ t = { s with ram := t.ram } ∧
      cpuRead b t = (if a.toNat % 0x800 = b.toNat % 0x800 then d else (cpuRead b s).1, t)

/-- A bus write is fatal exactly from 0x8000 on; an instruction that stores there is fatal, with the value it would have stored
(R73, R342, R163, R190, R200, R251). -/
def Obligations.StoresToRomStop : Prop :=
  (∀ (a : Word) (d : Byte) (s : State), (0x8000 ≤ a.toNat → cpuWrite a d s = .fault (.romWrite a d)) ∧
    (a.toNat < 0x8000 → ∃ t, cpuWrite a d s = .next t)) ∧
  ∀ (m : MemMode) (s : State) (v : Byte), 0x8000 ≤ (ea m s).toNat → s.held (ea m s) = some v →
    exec (.sta m) s = .fault (.romWrite (ea m s) s.cpu.a) ∧
    exec (.stx m) s = .fault (.romWrite (ea m s) s.cpu.x) ∧
    exec (.sty m) s = .fault (.romWrite (ea m s) s.cpu.y) ∧
    exec (.sax m) s = .fault (.romWrite (ea m s) (s.cpu.a &&& s.cpu.x)) ∧
    exec (.inc m) s = .fault (.romWrite (ea m s) (v + 1)) ∧
    exec (.isb m) s = .fault (.romWrite (ea m s) (v + 1)) ∧
    exec (.dec m) s = .fault (.romWrite (ea m s) (v - 1)) ∧
    exec (.dcp m) s = .fault (.romWrite (ea m s) (v - 1)) ∧
    exec (.asl (.mem m)) s = .fault (.romWrite (ea m s) (v <<< 1)) ∧
    exec (.slo m) s = .fault (.romWrite (ea m s) (v <<< 1)) ∧
    exec (.lsr (.mem m)) s = .fault (.romWrite (ea m s) (v >>> 1)) ∧
    exec (.sre m) s = .fault (.romWrite (ea m s) (v >>> 1)) ∧
    exec (.rol (.mem m)) s = .fault (.romWrite (ea m s) (ShiftOp.rol.result v (s.flag .c))) ∧
    exec (.rla m) s = .fault (.romWrite (ea m s) (ShiftOp.rol.result v (s.flag .c))) ∧
    exec (.ror (.mem m)) s = .fault (.romWrite (ea m s) (ShiftOp.ror.result v (s.flag .c))) ∧
    exec (.rra m) s = .fault (.romWrite (ea m s) (ShiftOp.ror.result v (s.flag .c)))

/-- Addresses nothing answers: a read takes the next free byte (whatever it is) and changes nothing else; a write to an APU
register is an output event and changes nothing else; any other write has no effect (R68, R71, R72, R282; D14, D16, D19). -/
def Obligations.UnansweredAddresses : Prop :=
  ∀ (a : Word) (d : Byte) (s : State),
    ((0x2000 ≤ a.toNat ∧ a.toNat < 0x4000 ∧ a.toNat % 8 ∈ [0, 1, 3, 5, 6]) ∨ (0x4000 ≤ a.toNat ∧ a.toNat ≤ 0x4015) ∨
        (0x4018 ≤ a.toNat ∧ a.toNat < 0x8000 ∧ ¬ Backed s a) →
      cpuRead a s = (Config.freeByte s.draws, { s with draws := s.draws + 1 })) ∧
    ((0x4000 ≤ a.toNat ∧ a.toNat ≤ 0x4013) ∨ a.toNat = 0x4015 ∨ a.toNat = 0x4017 →
      cpuWrite a d s = .next { s with out := s.out ++ [.apuWrite a d] }) ∧
    (0x4018 ≤ a.toNat ∧ a.toNat < 0x8000 ∧ ¬ Backed s a → cpuWrite a d s = .next s)

/-- A bus read changes no byte of memory, no CPU register and no flag; a byte of RAM, work RAM or PRG is read without any
effect, one 16 KiB bank the same at 0x8000 and at 0xC000, two one to one; an operand is the immediate byte itself or one bus
read of the effective address (R64, R72, R76, R82, R92, R143). -/
def Obligations.BusReads : Prop :=
  ∀ (a : Word) (s : State),
    SameMemory s (cpuRead a s).2 ∧ SameRegsBut [] s (cpuRead a s).2 ∧ SameFlagsBut [] s (cpuRead a s).2 ∧
    (cpuRead a s).2.cpu.pc = s.cpu.pc ∧ (∀ v, s.held a = some v → cpuRead a s = (v, s)) ∧
    (0x8000 ≤ a.toNat → s.cart.prgBanks = .one → a.toNat < 0xC000 → cpuRead (a + 0x4000) s = cpuRead a s) ∧
    (0x8000 ≤ a.toNat → s.cart.prgBanks = .two → cpuRead a s = (Cells.read s.cart.prg (a.toNat - 0x8000), s)) ∧
    (∀ op1, readOperand (.immediate op1) s = (op1, s)) ∧ (∀ m, readOperand (.mem m) s = cpuRead (ea m s) s)

/-! Addressing modes. -/

/-- The effective address of every mode: absolute addresses little-endian, zero-page sums mod 256, index sums mod 65536,
pointers in page 0 with a second byte that wraps within it (R144 to R149, R151, R152). -/
def Obligations.EffectiveAddresses : Prop :=
  ∀ (op1 op2 : Byte) (s : State),
    (ea (.zeroPage op1) s).toNat = op1.toNat ∧
    (ea (.zeroPageX op1) s).toNat = (op1.toNat + s.cpu.x.toNat) % 0x100 ∧
    (ea (.zeroPageY op1) s).toNat = (op1.toNat + s.cpu.y.toNat) % 0x100 ∧
    (ea (.absolute op1 op2) s).toNat = op2.toNat * 0x100 + op1.toNat ∧
    (ea (.absoluteX op1 op2) s).toNat = (op2.toNat * 0x100 + op1.toNat + s.cpu.x.toNat) % 0x10000 ∧
    (ea (.absoluteY op1 op2) s).toNat = (op2.toNat * 0x100 + op1.toNat + s.cpu.y.toNat) % 0x10000 ∧
    (∀ l h, s.held (BitVec.ofNat 16 ((op1.toNat + s.cpu.x.toNat) % 0x100)) = some l →
      s.held (BitVec.ofNat 16 ((op1.toNat + s.cpu.x.toNat + 1) % 0x100)) = some h →
      (ea (.indirectX op1) s).toNat = h.toNat * 0x100 + l.toNat) ∧
    (∀ l h, s.held (BitVec.ofNat 16 op1.toNat) = some l → s.held (BitVec.ofNat 16 ((op1.toNat + 1) % 0x100)) = some h →
      (ea (.indirectY op1) s).toNat = (h.toNat * 0x100 + l.toNat + s.cpu.y.toNat) % 0x10000)

/-- A page is crossed exactly when adding the index carries out of the low byte, and in no other mode; the penalty is one cycle
then and none otherwise (R155, R156). -/
def Obligations.PageCrossingIsLowByteCarry : Prop :=
  ∀ (op1 op2 : Byte) (s : State),
    (crossed (.absoluteX op1 op2) s = true ↔ 0xFF < op1.toNat + s.cpu.x.toNat) ∧
    (crossed (.absoluteY op1 op2) s = true ↔ 0xFF < op1.toNat + s.cpu.y.toNat) ∧
    (∀ l, s.held (BitVec.ofNat 16 op1.toNat) = some l →
      (crossed (.indirectY op1) s = true ↔ 0xFF < l.toNat + s.cpu.y.toNat)) ∧
    (∀ m : MemMode, m.indexed16 = false → crossed m s = false) ∧
    penalty (.immediate op1) s = 0 ∧ (∀ m, penalty (.mem m) s = if crossed m s = true then 1 else 0)

/-! Instructions: result, completion and frame. -/

/-- LDA, LDX, LDY, LAX (R160 to R162, R256). -/
def Obligations.Loads : Prop :=
  ∀ (m : ReadMode) (k : MemMode) (s : State),
    (∃ t, exec (.lda m) s = .next t ∧ t.cpu.a = (readOperand m s).1 ∧ SetsZN (readOperand m s).1 t ∧
      t.extra = penalty m s ∧ ReadFrame [.a] [.z, .n] m s t) ∧
    (∃ t, exec (.ldx m) s = .next t ∧ t.cpu.x = (readOperand m s).1 ∧ SetsZN (readOperand m s).1 t ∧
      t.extra = penalty m s ∧ ReadFrame [.x] [.z, .n] m s t) ∧
    (∃ t, exec (.ldy m) s = .next t ∧ t.cpu.y = (readOperand m s).1 ∧ SetsZN (readOperand m s).1 t ∧
      t.extra = penalty m s ∧ ReadFrame [.y] [.z, .n] m s t) ∧
    (∃ t, exec (.lax k) s = .next t ∧ t.cpu.a = (cpuRead (ea k s) s).1 ∧ t.cpu.x = (cpuRead (ea k s) s).1 ∧
      SetsZN (cpuRead (ea k s) s).1 t ∧ t.extra = penalty (.mem k) s ∧ ReadFrame [.a, .x] [.z, .n] (.mem k) s t)

/-- TAX, TAY, TXA, TYA, TSX, TXS (R166 to R171), and INX, INY, DEX, DEY, which wrap mod 256 (R192 to R195). -/
def Obligations.RegisterInstructions : Prop :=
  ∀ s : State,
    (∃ t, exec .tax s = .next t ∧ t.cpu.x = s.cpu.a ∧ SetsZN s.cpu.a t ∧ t.cpu.pc = s.cpu.pc ∧ t.extra = 0 ∧
      RegisterFrame [.x] [.z, .n] s t) ∧
    (∃ t, exec .tay s = .next t ∧ t.cpu.y = s.cpu.a ∧ SetsZN s.cpu.a t ∧ t.cpu.pc = s.cpu.pc ∧ t.extra = 0 ∧
      RegisterFrame [.y] [.z, .n] s t) ∧
    (∃ t, exec .txa s = .next t ∧ t.cpu.a = s.cpu.x ∧ SetsZN s.cpu.x t ∧ t.cpu.pc = s.cpu.pc ∧ t.extra = 0 ∧
      RegisterFrame [.a] [.z, .n] s t) ∧
    (∃ t, exec .tya s = .next t ∧ t.cpu.a = s.cpu.y ∧ SetsZN s.cpu.y t ∧ t.cpu.pc = s.cpu.pc ∧ t.extra = 0 ∧
      RegisterFrame [.a] [.z, .n] s t) ∧
    (∃ t, exec .tsx s = .next t ∧ t.cpu.x = s.cpu.sp ∧ SetsZN s.cpu.sp t ∧ t.cpu.pc = s.cpu.pc ∧ t.extra = 0 ∧
      RegisterFrame [.x] [.z, .n] s t) ∧
    (∃ t, exec .txs s = .next t ∧ t.cpu.sp = s.cpu.x ∧ t.cpu.pc = s.cpu.pc ∧ t.extra = 0 ∧ RegisterFrame [.sp] [] s t) ∧
    (∃ t, exec .inx s = .next t ∧ t.cpu.x.toNat = (s.cpu.x.toNat + 1) % 0x100 ∧ SetsZN t.cpu.x t ∧
      t.cpu.pc = s.cpu.pc ∧ t.extra = 0 ∧ RegisterFrame [.x] [.z, .n] s t) ∧
    (∃ t, exec .iny s = .next t ∧ t.cpu.y.toNat = (s.cpu.y.toNat + 1) % 0x100 ∧ SetsZN t.cpu.y t ∧
      t.cpu.pc = s.cpu.pc ∧ t.extra = 0 ∧ RegisterFrame [.y] [.z, .n] s t) ∧
    (∃ t, exec .dex s = .next t ∧ t.cpu.x.toNat = (s.cpu.x.toNat + 0xFF) % 0x100 ∧ SetsZN t.cpu.x t ∧
      t.cpu.pc = s.cpu.pc ∧ t.extra = 0 ∧ RegisterFrame [.x] [.z, .n] s t) ∧
    (∃ t, exec .dey s = .next t ∧ t.cpu.y.toNat = (s.cpu.y.toNat + 0xFF) % 0x100 ∧ SetsZN t.cpu.y t ∧
      t.cpu.pc = s.cpu.pc ∧ t.extra = 0 ∧ RegisterFrame [.y] [.z, .n] s t)

/-- STA, STX, STY, SAX below 0x8000: one write of the effective address, nothing else (R163 to R165, R255). From 0x8000 on they
are fatal: `StoresToRomStop`. -/
def Obligations.Stores : Prop :=
  ∀ (m : MemMode) (s : State), (ea m s).toNat < 0x8000 →
    (∃ t, exec (.sta m) s = .next t ∧ StoreFrame (ea m s) s.cpu.a s t) ∧
    (∃ t, exec (.stx m) s = .next t ∧ StoreFrame (ea m s) s.cpu.x s t) ∧
    (∃ t, exec (.sty m) s = .next t ∧ StoreFrame (ea m s) s.cpu.y s t) ∧
    (∃ t, exec (.sax m) s = .next t ∧ StoreFrame (ea m s) (s.cpu.a &&& s.cpu.x) s t)

/-- ADC: the sum of `A`, the operand and the carry; `C` is its carry out of 8 bits, `V` two's-complement overflow, whatever
`D` is (R181; binary in both states of `D` by D37). -/
def Obligations.AddWithCarry : Prop :=
  ∀ (m : ReadMode) (s : State),
    ∃ t, exec (.adc m) s = .next t ∧
      t.cpu.a.toNat = (s.cpu.a.toNat + (readOperand m s).1.toNat + (s.flag .c).toNat) % 0x100 ∧
      t.flag .c = decide (0xFF < s.cpu.a.toNat + (readOperand m s).1.toNat + (s.flag .c).toNat) ∧
      t.flag .v = ((((s.cpu.a ^^^ (readOperand m s).1) &&& 0x80) == 0) && (((s.cpu.a ^^^ t.cpu.a) &&& 0x80) == 0x80)) ∧
      SetsZN t.cpu.a t ∧ t.extra = penalty m s ∧ ReadFrame [.a] [.c, .v, .z, .n] m s t

/-- SBC, both encodings: `A` less the operand less the borrow; `C` set means no borrow (R182, R260). -/
def Obligations.SubtractWithBorrow : Prop :=
  ∀ (m : ReadMode) (op1 : Byte) (s : State),
    (∃ t, exec (.sbc m) s = .next t ∧
      (t.cpu.a.toNat : Int) = ((s.cpu.a.toNat : Int) - (readOperand m s).1.toNat - (1 - (s.flag .c).toNat)) % 0x100 ∧
      t.flag .c = decide ((readOperand m s).1.toNat + 1 ≤ s.cpu.a.toNat + (s.flag .c).toNat) ∧
      t.flag .v = ((((s.cpu.a ^^^ (readOperand m s).1) &&& 0x80) == 0x80) && (((s.cpu.a ^^^ t.cpu.a) &&& 0x80) == 0x80)) ∧
      SetsZN t.cpu.a t ∧ t.extra = penalty m s ∧ ReadFrame [.a] [.c, .v, .z, .n] m s t) ∧
    exec (.sbcUndoc op1) s = exec (.sbc (.immediate op1)) s

/-- The overflow flag of ADC is set exactly when the signed sum does not fit 8 bits, and SBC of an operand is ADC of its
complement, flags and all (R180, R181, R182). -/
def Obligations.SignedOverflow : Prop :=
  (∀ (m : ReadMode) (s t : State), exec (.adc m) s = .next t →
    (t.flag .v = true ↔
      s.cpu.a.toInt + (readOperand m s).1.toInt + (s.flag .c).toNat < -128 ∨
      127 < s.cpu.a.toInt + (readOperand m s).1.toInt + (s.flag .c).toNat)) ∧
  ∀ (op1 : Byte) (s : State), exec (.sbc (.immediate op1)) s = exec (.adc (.immediate (op1 ^^^ 0xFF))) s

/-- AND, ORA, EOR (R183 to R185). -/
def Obligations.Logic : Prop :=
  ∀ (m : ReadMode) (s : State),
    (∃ t, exec (.and m) s = .next t ∧ t.cpu.a = s.cpu.a &&& (readOperand m s).1 ∧ SetsZN t.cpu.a t ∧
      t.extra = penalty m s ∧ ReadFrame [.a] [.z, .n] m s t) ∧
    (∃ t, exec (.ora m) s = .next t ∧ t.cpu.a = s.cpu.a ||| (readOperand m s).1 ∧ SetsZN t.cpu.a t ∧
      t.extra = penalty m s ∧ ReadFrame [.a] [.z, .n] m s t) ∧
    (∃ t, exec (.eor m) s = .next t ∧ t.cpu.a = s.cpu.a ^^^ (readOperand m s).1 ∧ SetsZN t.cpu.a t ∧
      t.extra = penalty m s ∧ ReadFrame [.a] [.z, .n] m s t)

/-- CMP, CPX, CPY: C, Z, N from the comparison; BIT: Z from the and, N and V copied from the operand; no register written
(R186 to R189). -/
def Obligations.ComparesAndBitTest : Prop :=
  ∀ (m : ReadMode) (k : MemMode) (s : State),
    (∃ t, exec (.bit k) s = .next t ∧ t.flag .z = ((s.cpu.a &&& (cpuRead (ea k s) s).1) == 0) ∧
      t.flag .n = (cpuRead (ea k s) s).1.getLsbD 7 ∧ t.flag .v = (cpuRead (ea k s) s).1.getLsbD 6 ∧
      t.extra = 0 ∧ ReadFrame [] [.z, .n, .v] (.mem k) s t) ∧
    (∃ t, exec (.cmp m) s = .next t ∧ t.flag .c = decide ((readOperand m s).1.toNat ≤ s.cpu.a.toNat) ∧
      t.flag .z = (s.cpu.a == (readOperand m s).1) ∧ t.flag .n = (s.cpu.a - (readOperand m s).1).getLsbD 7 ∧
      t.extra = penalty m s ∧ ReadFrame [] [.c, .z, .n] m s t) ∧
    (∃ t, exec (.cpx m) s = .next t ∧ t.flag .c = decide ((readOperand m s).1.toNat ≤ s.cpu.x.toNat) ∧
      t.flag .z = (s.cpu.x == (readOperand m s).1) ∧ t.flag .n = (s.cpu.x - (readOperand m s).1).getLsbD 7 ∧
      t.extra = 0 ∧ ReadFrame [] [.c, .z, .n] m s t) ∧
    (∃ t, exec (.cpy m) s = .next t ∧ t.flag .c = decide ((readOperand m s).1.toNat ≤ s.cpu.y.toNat) ∧
      t.flag .z = (s.cpu.y == (readOperand m s).1) ∧ t.flag .n = (s.cpu.y - (readOperand m s).1).getLsbD 7 ∧
      t.extra = 0 ∧ ReadFrame [] [.c, .z, .n] m s t)

/-- INC and DEC below 0x8000: one read and one write of the effective address (R190, R191). -/
def Obligations.MemorySteps : Prop :=
  ∀ (m : MemMode) (s : State) (v : Byte), (ea m s).toNat < 0x8000 → v = (cpuRead (ea m s) s).1 →
    (∃ t, exec (.inc m) s = .next t ∧ SetsZN (v + 1) t ∧ ModifyFrame [] [.z, .n] (ea m s) (v + 1) s t) ∧
    (∃ t, exec (.dec m) s = .next t ∧ SetsZN (v - 1) t ∧ ModifyFrame [] [.z, .n] (ea m s) (v - 1) s t)

/-- ASL, LSR, ROL, ROR of the accumulator (R200 to R203). -/
def Obligations.AccumulatorShifts : Prop :=
  ∀ s : State,
    (∃ t, exec (.asl .accumulator) s = .next t ∧ t.cpu.a.toNat = (2 * s.cpu.a.toNat) % 0x100 ∧
      t.flag .c = s.cpu.a.getLsbD 7 ∧ SetsZN t.cpu.a t ∧ t.cpu.pc = s.cpu.pc ∧ t.extra = 0 ∧
      RegisterFrame [.a] [.c, .z, .n] s t) ∧
    (∃ t, exec (.lsr .accumulator) s = .next t ∧ t.cpu.a.toNat = s.cpu.a.toNat / 2 ∧
      t.flag .c = s.cpu.a.getLsbD 0 ∧ SetsZN t.cpu.a t ∧ t.cpu.pc = s.cpu.pc ∧ t.extra = 0 ∧
      RegisterFrame [.a] [.c, .z, .n] s t) ∧
    (∃ t, exec (.rol .accumulator) s = .next t ∧ t.cpu.a.toNat = (2 * s.cpu.a.toNat + (s.flag .c).toNat) % 0x100 ∧
      t.flag .c = s.cpu.a.getLsbD 7 ∧ SetsZN t.cpu.a t ∧ t.cpu.pc = s.cpu.pc ∧ t.extra = 0 ∧
      RegisterFrame [.a] [.c, .z, .n] s t) ∧
    (∃ t, exec (.ror .accumulator) s = .next t ∧ t.cpu.a.toNat = s.cpu.a.toNat / 2 + 0x80 * (s.flag .c).toNat ∧
      t.flag .c = s.cpu.a.getLsbD 0 ∧ SetsZN t.cpu.a t ∧ t.cpu.pc = s.cpu.pc ∧ t.extra = 0 ∧
      RegisterFrame [.a] [.c, .z, .n] s t)

/-- ASL, LSR, ROL, ROR of memory below 0x8000 (R200 to R203): the stored byte is the result named by its value. -/
def Obligations.MemoryShifts : Prop :=
  ∀ (m : MemMode) (s : State) (v : Byte), (ea m s).toNat < 0x8000 → v = (cpuRead (ea m s) s).1 →
    (∃ r t, exec (.asl (.mem m)) s = .next t ∧ r.toNat = (2 * v.toNat) % 0x100 ∧ t.flag .c = v.getLsbD 7 ∧ SetsZN r t ∧
      ModifyFrame [] [.c, .z, .n] (ea m s) r s t) ∧
    (∃ r t, exec (.lsr (.mem m)) s = .next t ∧ r.toNat = v.toNat / 2 ∧ t.flag .c = v.getLsbD 0 ∧ SetsZN r t ∧
      ModifyFrame [] [.c, .z, .n] (ea m s) r s t) ∧
    (∃ r t, exec (.rol (.mem m)) s = .next t ∧ r.toNat = (2 * v.toNat + (s.flag .c).toNat) % 0x100 ∧
      t.flag .c = v.getLsbD 7 ∧ SetsZN r t ∧ ModifyFrame [] [.c, .z, .n] (ea m s) r s t) ∧
    (∃ r t, exec (.ror (.mem m)) s = .next t ∧ r.toNat = v.toNat / 2 + 0x80 * (s.flag .c).toNat ∧
      t.flag .c = v.getLsbD 0 ∧ SetsZN r t ∧ ModifyFrame [] [.c, .z, .n] (ea m s) r s t)

/-- SLO, RLA, SRE, RRA below 0x8000: the shift of memory, then its result combined with `A` (R251 to R254); RRA adds with the
carry the rotate produced. -/
def Obligations.ShiftAndCombine : Prop :=
  ∀ (m : MemMode) (s : State) (v : Byte), (ea m s).toNat < 0x8000 → v = (cpuRead (ea m s) s).1 →
    (∃ r t, exec (.slo m) s = .next t ∧ r.toNat = (2 * v.toNat) % 0x100 ∧ t.flag .c = v.getLsbD 7 ∧
      t.cpu.a = s.cpu.a ||| r ∧ SetsZN t.cpu.a t ∧ ModifyFrame [.a] [.c, .z, .n] (ea m s) r s t) ∧
    (∃ r t, exec (.rla m) s = .next t ∧ r.toNat = (2 * v.toNat + (s.flag .c).toNat) % 0x100 ∧ t.flag .c = v.getLsbD 7 ∧
      t.cpu.a = s.cpu.a &&& r ∧ SetsZN t.cpu.a t ∧ ModifyFrame [.a] [.c, .z, .n] (ea m s) r s t) ∧
    (∃ r t, exec (.sre m) s = .next t ∧ r.toNat = v.toNat / 2 ∧ t.flag .c = v.getLsbD 0 ∧
      t.cpu.a = s.cpu.a ^^^ r ∧ SetsZN t.cpu.a t ∧ ModifyFrame [.a] [.c, .z, .n] (ea m s) r s t) ∧
    (∃ r t, exec (.rra m) s = .next t ∧ r.toNat = v.toNat / 2 + 0x80 * (s.flag .c).toNat ∧
      t.cpu.a.toNat = (s.cpu.a.toNat + r.toNat + (v.getLsbD 0).toNat) % 0x100 ∧
      t.flag .c = decide (0xFF < s.cpu.a.toNat + r.toNat + (v.getLsbD 0).toNat) ∧
      t.flag .v = ((((s.cpu.a ^^^ r) &&& 0x80) == 0) && (((s.cpu.a ^^^ t.cpu.a) &&& 0x80) == 0x80)) ∧
      SetsZN t.cpu.a t ∧ ModifyFrame [.a] [.c, .v, .z, .n] (ea m s) r s t)

/-- DCP and ISB below 0x8000: DEC then CMP, INC then SBC, on the byte written (R257, R258). -/
def Obligations.StepAndCombine : Prop :=
  ∀ (m : MemMode) (s : State) (v : Byte), (ea m s).toNat < 0x8000 → v = (cpuRead (ea m s) s).1 →
    (∃ t, exec (.dcp m) s = .next t ∧ t.flag .c = decide ((v - 1).toNat ≤ s.cpu.a.toNat) ∧
      t.flag .z = (s.cpu.a == v - 1) ∧ t.flag .n = (s.cpu.a - (v - 1)).getLsbD 7 ∧
      ModifyFrame [] [.c, .z, .n] (ea m s) (v - 1) s t) ∧
    (∃ t, exec (.isb m) s = .next t ∧
      (t.cpu.a.toNat : Int) = ((s.cpu.a.toNat : Int) - (v + 1).toNat - (1 - (s.flag .c).toNat)) % 0x100 ∧
      t.flag .c = decide ((v + 1).toNat + 1 ≤ s.cpu.a.toNat + (s.flag .c).toNat) ∧
      t.flag .v = ((((s.cpu.a ^^^ (v + 1)) &&& 0x80) == 0x80) && (((s.cpu.a ^^^ t.cpu.a) &&& 0x80) == 0x80)) ∧
      SetsZN t.cpu.a t ∧ ModifyFrame [.a] [.c, .v, .z, .n] (ea m s) (v + 1) s t)

/-- JMP: to its operand, or to the word at a pointer whose second byte comes from the same page (R210, R150). -/
def Obligations.Jumps : Prop :=
  ∀ (op1 op2 : Byte) (s : State),
    (∃ t, exec (.jmp (.absoluteJmp op1 op2)) s = .next t ∧ t.cpu.pc = op2 ++ op1 ∧ t.extra = 0 ∧
      RegisterFrame [] [] s t) ∧
    (∃ t u, u = (cpuRead (op2 ++ op1) s).2 ∧ exec (.jmp (.indirect op1 op2)) s = .next t ∧
      t.cpu.pc = (cpuRead (op2 ++ (op1 + 1)) u).1 ++ (cpuRead (op2 ++ op1) s).1 ∧ t.extra = 0 ∧
      SameRegsBut [] s t ∧ SameFlagsBut [] s t ∧ SameMemory s t ∧
      RegisterFrame [] [] (cpuRead (op2 ++ (op1 + 1)) u).2 t)

/-- JSR pushes the address of its own last byte and jumps; RTS pulls an address and goes one past it (R211, R212). -/
def Obligations.Subroutines : Prop :=
  ∀ (op1 op2 l h : Byte) (s : State),
    (∃ t, exec (.jsr op1 op2) s = .next t ∧ t.cpu.pc = op2 ++ op1 ∧ t.cpu.sp = s.cpu.sp - 2 ∧
      t.held (stackAddr s.cpu.sp) = some ((s.cpu.pc - 1).extractLsb' 8 8) ∧
      t.held (stackAddr (s.cpu.sp - 1)) = some ((s.cpu.pc - 1).extractLsb' 0 8) ∧ t.extra = 0 ∧
      t.cpu.nmiPending = s.cpu.nmiPending ∧ t.cpu.irqPending = s.cpu.irqPending ∧
      StackFrame [] [] [stackAddr s.cpu.sp, stackAddr (s.cpu.sp - 1)] s t) ∧
    (s.held (stackAddr (s.cpu.sp + 1)) = some l → s.held (stackAddr (s.cpu.sp + 2)) = some h →
      ∃ t, exec .rts s = .next t ∧ t.cpu.pc = (h ++ l : Word) + 1 ∧ t.cpu.sp = s.cpu.sp + 2 ∧ t.extra = 0 ∧
        RegisterFrame [.sp] [] s t)

/-- An RTS that finds the stack as JSR left it restores `SP` and returns to the instruction after the JSR (R211, R212). -/
def Obligations.RtsUndoesJsr : Prop :=
  ∀ (op1 op2 : Byte) (s : State), ∃ t, exec (.jsr op1 op2) s = .next t ∧
    ∀ u : State, u.cpu.sp = t.cpu.sp → (∀ a, u.held a = t.held a) →
      ∃ w, exec .rts u = .next w ∧ w.cpu.pc = s.cpu.pc ∧ w.cpu.sp = s.cpu.sp

/-- A conditional branch with condition `cond` (R213): the sign-extended offset is added to `PC` when it holds; one extra cycle
when taken, one more when the target lies on another page. -/
def BranchesWhen (i : Instr) (op1 : Byte) (cond : Bool) (s : State) : Prop :=
  ∃ t, exec i s = .next t ∧ RegisterFrame [] [] s t ∧
    (cond = false → t.cpu.pc = s.cpu.pc ∧ t.extra = 0) ∧
    (cond = true → (t.cpu.pc.toNat : Int) = ((s.cpu.pc.toNat : Int) + op1.toInt) % 0x10000 ∧
      t.extra = if s.cpu.pc.toNat / 0x100 = t.cpu.pc.toNat / 0x100 then 1 else 2)

/-- The eight branches, each on its flag (R213 to R221; the page comparison is D28). -/
def Obligations.Branches : Prop :=
  ∀ (op1 : Byte) (s : State),
    BranchesWhen (.bcc op1) op1 (!s.flag .c) s ∧ BranchesWhen (.bcs op1) op1 (s.flag .c) s ∧
    BranchesWhen (.bne op1) op1 (!s.flag .z) s ∧ BranchesWhen (.beq op1) op1 (s.flag .z) s ∧
    BranchesWhen (.bpl op1) op1 (!s.flag .n) s ∧ BranchesWhen (.bmi op1) op1 (s.flag .n) s ∧
    BranchesWhen (.bvc op1) op1 (!s.flag .v) s ∧ BranchesWhen (.bvs op1) op1 (s.flag .v) s

/-- PHA writes `A` to the slot and then decrements `SP`; PLA increments `SP`, then reads, and sets Z and N; `PHA; PLA` leaves
`A` and `SP` as they were (R230, R231). -/
def Obligations.AccumulatorStack : Prop :=
  ∀ (s : State) (b : Byte),
    (∃ t, exec .pha s = .next t ∧ t.held (stackAddr s.cpu.sp) = some s.cpu.a ∧ t.cpu.sp = s.cpu.sp - 1 ∧
      t.cpu.pc = s.cpu.pc ∧ t.extra = 0 ∧ t.cpu.nmiPending = s.cpu.nmiPending ∧ t.cpu.irqPending = s.cpu.irqPending ∧
      StackFrame [] [] [stackAddr s.cpu.sp] s t ∧
      ∃ u, exec .pla t = .next u ∧ u.cpu.a = s.cpu.a ∧ u.cpu.sp = s.cpu.sp ∧ SetsZN s.cpu.a u) ∧
    (s.held (stackAddr (s.cpu.sp + 1)) = some b →
      ∃ t, exec .pla s = .next t ∧ t.cpu.a = b ∧ SetsZN b t ∧ t.cpu.sp = s.cpu.sp + 1 ∧ t.cpu.pc = s.cpu.pc ∧
        t.extra = 0 ∧ RegisterFrame [.sp, .a] [.z, .n] s t)

/-- PHP pushes `P | 0x30`; PLP loads the pulled byte with bit 4 clear and bit 5 set; `PHP; PLP` restores a `P` that has them so
(R232, R233; the masks are D1, D2). -/
def Obligations.StatusStack : Prop :=
  ∀ (s : State) (b : Byte),
    (∃ t, exec .php s = .next t ∧ t.held (stackAddr s.cpu.sp) = some (s.cpu.p ||| 0x30) ∧ t.cpu.sp = s.cpu.sp - 1 ∧
      t.cpu.pc = s.cpu.pc ∧ t.extra = 0 ∧ t.cpu.nmiPending = s.cpu.nmiPending ∧ t.cpu.irqPending = s.cpu.irqPending ∧
      StackFrame [] [] [stackAddr s.cpu.sp] s t ∧
      (s.flag .u = true → s.flag .b = false →
        ∃ u, exec .plp t = .next u ∧ u.cpu.p = s.cpu.p ∧ u.cpu.sp = s.cpu.sp)) ∧
    (s.held (stackAddr (s.cpu.sp + 1)) = some b →
      ∃ t, exec .plp s = .next t ∧ t.cpu.p = (b &&& 0xEF) ||| 0x20 ∧ t.cpu.sp = s.cpu.sp + 1 ∧ t.cpu.pc = s.cpu.pc ∧
        t.extra = 0 ∧ RegisterFrame [.sp] [.c, .z, .i, .d, .b, .u, .v, .n] s t)

/-- Instruction `i` sets flag `f` to `b` and does nothing else. -/
def SetsFlag (i : Instr) (f : Flag) (b : Bool) (s : State) : Prop :=
  ∃ t, exec i s = .next t ∧ t.flag f = b ∧ t.cpu.pc = s.cpu.pc ∧ t.extra = 0 ∧ RegisterFrame [] [f] s t

/-- CLC, SEC, CLI, SEI, CLV, CLD, SED (R234 to R240). -/
def Obligations.FlagInstructions : Prop :=
  ∀ s : State, SetsFlag .clc .c false s ∧ SetsFlag .sec .c true s ∧ SetsFlag .cli .i false s ∧ SetsFlag .sei .i true s ∧
    SetsFlag .clv .v false s ∧ SetsFlag .cld .d false s ∧ SetsFlag .sed .d true s

/-- NOP changes nothing; the undocumented NOPs with an operand read it, with the read's effects and page-crossing cycle, and
change no register and no flag (R241, R259); that they perform the read is decision D36 of the spec (log 19). -/
def Obligations.NoOperations : Prop :=
  ∀ (s : State) (o op1 : Byte) (m : MemMode),
    (∃ t, exec .nop s = .next t ∧ t.cpu.pc = s.cpu.pc ∧ t.extra = 0 ∧ RegisterFrame [] [] s t) ∧
    (∃ t, exec (.nopUndoc o .implied) s = .next t ∧ t.cpu.pc = s.cpu.pc ∧ t.extra = 0 ∧ RegisterFrame [] [] s t) ∧
    (∃ t, exec (.nopUndoc o (.immediate op1)) s = .next t ∧ t.extra = 0 ∧ ReadFrame [] [] (.immediate op1) s t) ∧
    (∃ t, exec (.nopUndoc o (.mem m)) s = .next t ∧ t.extra = penalty (.mem m) s ∧ ReadFrame [] [] (.mem m) s t)

/-! Rules over all instructions. -/

/-- No instruction writes a register or a flag that R21, R22, R28 do not list for it; bits 4 and 5 of `P` no instruction changes
where they stand as they always do (R26); `PC` is written only by the control transfers (R23). -/
def Obligations.OnlyListedStateChanges : Prop :=
  ∀ (i : Instr) (s t : State), exec i s = .next t →
    (∀ r, writesReg i r = false → t.reg r = s.reg r) ∧ (transfersControl i = false → t.cpu.pc = s.cpu.pc) ∧
    (s.flag .u = true → s.flag .b = false → ∀ f, writesFlag i f = false → t.flag f = s.flag f)

/-! The PPU registers, at every mirror of theirs (R67). -/

/-- Writes of PPUCTRL, PPUMASK, PPUSTATUS and OAMADDR (R271, R272, R283, R275). -/
def Obligations.ControlRegisterWrites : Prop :=
  ∀ (a : Word) (d : Byte) (s : State), 0x2000 ≤ a.toNat → a.toNat < 0x4000 →
    (a.toNat % 8 = 0 → ∃ t, cpuWrite a d s = .next { s with ppu := { s.ppu with ctrl := d, t := t } } ∧
      ∀ k < 15, t.getLsbD k =
        if k = 10 then d.getLsbD 0 else if k = 11 then d.getLsbD 1 else s.ppu.t.getLsbD k) ∧
    (a.toNat % 8 = 1 → cpuWrite a d s = .next { s with ppu := { s.ppu with mask := d } }) ∧
    (a.toNat % 8 = 2 → cpuWrite a d s = .next s) ∧
    (a.toNat % 8 = 3 → cpuWrite a d s = .next { s with ppu := { s.ppu with oamaddr := d } })

/-- PPUSCROLL: two sequential writes set the horizontal, then the vertical scroll in `t` and `x`; `v` is not changed (R277). -/
def Obligations.ScrollWrites : Prop :=
  ∀ (a : Word) (d : Byte) (s : State), 0x2000 ≤ a.toNat → a.toNat < 0x4000 → a.toNat % 8 = 5 →
    (s.ppu.w = false → ∃ t x, cpuWrite a d s = .next { s with ppu := { s.ppu with t := t, x := x, w := true } } ∧
      (∀ k < 15, t.getLsbD k = if k < 5 then d.getLsbD (k + 3) else s.ppu.t.getLsbD k) ∧ x.toNat = d.toNat % 8) ∧
    (s.ppu.w = true → ∃ t, cpuWrite a d s = .next { s with ppu := { s.ppu with t := t, w := false } } ∧
      ∀ k < 15, t.getLsbD k =
        if 12 ≤ k then d.getLsbD (k - 12) else if 5 ≤ k ∧ k < 10 then d.getLsbD (k - 2) else s.ppu.t.getLsbD k)

/-- PPUADDR: the first write gives bits 13:8 of `t` and clears bit 14, the second gives bits 7:0 and loads `v` (R278). -/
def Obligations.AddressWrites : Prop :=
  ∀ (a : Word) (d : Byte) (s : State), 0x2000 ≤ a.toNat → a.toNat < 0x4000 → a.toNat % 8 = 6 →
    (s.ppu.w = false → ∃ t, cpuWrite a d s = .next { s with ppu := { s.ppu with t := t, w := true } } ∧
      t.toNat = (d.toNat % 0x40) * 0x100 + s.ppu.t.toNat % 0x100) ∧
    (s.ppu.w = true → ∃ t, cpuWrite a d s = .next { s with ppu := { s.ppu with t := t, v := t, w := false } } ∧
      t.toNat = s.ppu.t.toNat / 0x100 * 0x100 + d.toNat)

/-- PPUSTATUS: bits 7:5 of `status` are returned whatever the free low bits are; the read clears the vblank flag and the write
toggle, and at (241, 0) and (241, 2) it wins the race (R273, R274; the low bits are free by D19, log 7). -/
def Obligations.StatusReads : Prop :=
  ∀ (a : Word) (s : State), 0x2000 ≤ a.toNat → a.toNat < 0x4000 → a.toNat % 8 = 2 →
    ∃ r q, cpuRead a s = (r, { s with
        cpu := { s.cpu with
          nmiPending := if s.ppu.scanline = 241 ∧ s.ppu.cycle = 2 then false else s.cpu.nmiPending }
        ppu := { s.ppu with
          status := q, w := false
          vblSuppress := if s.ppu.scanline = 241 ∧ s.ppu.cycle = 0 then true else s.ppu.vblSuppress }
        draws := s.draws + 1 }) ∧
      (∀ k, 5 ≤ k → r.getLsbD k = s.ppu.status.getLsbD k) ∧
      (∀ k < 8, q.getLsbD k = if k = 7 then false else s.ppu.status.getLsbD k)

/-- PPUDATA: a write stores at `v` at once and leaves the buffer; a read is buffered below 0x3F00 and immediate for the palette,
with the nametable byte under it then in the buffer; each moves `v` by 1 or 32 (R279 to R281; the buffer fill is D20). -/
def Obligations.DataAccess : Prop :=
  ∀ (a : Word) (d : Byte) (s : State), 0x2000 ≤ a.toNat → a.toNat < 0x4000 → a.toNat % 8 = 7 →
    (∃ v, cpuWrite a d s = .next { ppuWrite (s.ppu.v.toNat % 0x4000) d s with
        ppu := { (ppuWrite (s.ppu.v.toNat % 0x4000) d s).ppu with v := v } } ∧
      v.toNat = (s.ppu.v.toNat + if s.ppu.ctrl.getLsbD 2 = true then 32 else 1) % 0x8000) ∧
    ∃ r b v, cpuRead a s = (r, { s with ppu := { s.ppu with readbuf := b, v := v } }) ∧
      v.toNat = (s.ppu.v.toNat + if s.ppu.ctrl.getLsbD 2 = true then 32 else 1) % 0x8000 ∧
      (s.ppu.v.toNat % 0x4000 < 0x3F00 → r = s.ppu.readbuf ∧ b = ppuRead s.ppu.v.toNat s) ∧
      (0x3F00 ≤ s.ppu.v.toNat % 0x4000 →
        r = ppuRead s.ppu.v.toNat s ∧ b = ppuRead (s.ppu.v.toNat % 0x4000 - 0x1000) s)

/-- The palette: entries 0x10, 0x14, 0x18, 0x1C are the entries 0x00, 0x04, 0x08, 0x0C, so a colour written at one of a pair
reads back at the other, and at every 32-byte mirror (R104). -/
def Obligations.PaletteMirrors : Prop :=
  ∀ (a : Nat) (d : Byte) (s : State), 0x3F00 ≤ a → a < 0x4000 →
    (∀ b, 0x3F00 ≤ b → b < 0x4000 →
      (ppuRead b (ppuWrite a d s)).toNat =
        if a % 32 = b % 32 ∨ (a % 4 = 0 ∧ b % 4 = 0 ∧ a % 16 = b % 16) then d.toNat % 0x40 else (ppuRead b s).toNat) ∧
    palIndex a = if a % 32 ∈ [0x10, 0x14, 0x18, 0x1C] then a % 32 - 0x10 else a % 32

/-- PPU memory. The nametables: a byte written in a slot reads back in every slot the mirroring mode joins to it, and at 0x3000; no
other byte of the four slots changes (R101 to R103; the table of R103 is D24). Pattern memory: a write reads back at its own
address only where CHR is writable, and does nothing otherwise (R101; that parameter is D16). Across the regions: a write changes
no byte of another region, no OAM byte, nothing else of the machine; addresses wrap at 0x4000 (R100, R102, R105, R106). -/
def Obligations.NametableMirrors : Prop :=
  ∀ (a b : Nat) (d : Byte) (s : State), a < 0x4000 → b < 0x4000 →
    (0x2000 ≤ a → a < 0x3F00 → 0x2000 ≤ b → b < 0x3F00 →
      ppuRead b (ppuWrite a d s) =
        if a % 0x400 = b % 0x400 ∧
          (match s.cart.mirroring with
            | .horizontal => a / 0x800 % 2 == b / 0x800 % 2
            | .vertical => a / 0x400 % 2 == b / 0x400 % 2
            | .singleLower => true
            | .singleUpper => true) = true then d
        else ppuRead b s) ∧
    (a < 0x2000 → s.cart.chrWritable = true → b < 0x2000 →
      ppuRead b (ppuWrite a d s) = if b = a then d else ppuRead b s) ∧
    (a < 0x2000 → s.cart.chrWritable = false → ppuWrite a d s = s) ∧
    (ppuRegion a ≠ ppuRegion b → ppuRead b (ppuWrite a d s) = ppuRead b s) ∧
    (∃ c n p, ppuWrite a d s = { s with
      cart := { s.cart with chr := c }, ppu := { s.ppu with nt := n, pal := p } }) ∧
    ppuWrite (a + 0x4000) d s = ppuWrite a d s ∧ ppuRead (b + 0x4000) s = ppuRead b s

/-- OAMDATA writes at `oamaddr` and increments it, reads without effect; OAM DMA from RAM copies 256 bytes in ascending order
from `oamaddr` on, leaves `oamaddr`, and costs 513 cycles, 514 from an odd one (R276, R284; D10, D30, D31). -/
def Obligations.OamAccess : Prop :=
  ∀ (a : Word) (d : Byte) (s : State),
    (0x2000 ≤ a.toNat → a.toNat < 0x4000 → a.toNat % 8 = 4 →
      cpuRead a s = (oamByte s.ppu.oamaddr.toNat s, s) ∧
      ∃ t, cpuWrite a d s = .next t ∧ t.ppu.oamaddr = s.ppu.oamaddr + 1 ∧
        t = { s with ppu := { s.ppu with oam := t.ppu.oam, oamaddr := t.ppu.oamaddr } } ∧
        ∀ i : Byte, oamByte i.toNat t = if i = s.ppu.oamaddr then d else oamByte i.toNat s) ∧
    (d.toNat < 0x20 → ∃ t, cpuWrite 0x4014 d s = .next t ∧
      t = { s with ppu := { s.ppu with oam := t.ppu.oam }, dma := t.dma } ∧
      t.dma = 513 + (s.cpu.cyc + s.c0) % 2 ∧
      ∀ i : Byte, some (oamByte (s.ppu.oamaddr + i).toNat t) = s.held (d ++ i))

/-! The PPU's own steps. -/

/-- The pre-render line: at cycle 1 the three status bits are cleared, at cycle 304 `t` is copied into `v` if rendering is
enabled, and no other dot of the line does anything (R302). -/
def Obligations.PreRenderLine : Prop :=
  ∀ s : State, s.ppu.scanline = -1 → -1 ≤ s.ppu.cycle → s.ppu.cycle < 340 →
    (s.ppu.cycle = 0 → ∃ q, ppuStep s = { s with ppu := { s.ppu with cycle := 1, status := q } } ∧
      ∀ k < 8, q.getLsbD k = if 5 ≤ k then false else s.ppu.status.getLsbD k) ∧
    (s.ppu.cycle = 303 → ppuStep s = { s with ppu := { s.ppu with
      cycle := 304
      v := if renderingEnabled s.ppu = true then s.ppu.t else s.ppu.v } }) ∧
    (s.ppu.cycle ≠ 0 → s.ppu.cycle ≠ 303 → ppuStep s = { s with ppu := { s.ppu with cycle := s.ppu.cycle + 1 } })

/-- The end of a frame: the dot (260, 340) resets the position to (-1, -1), so that the next dot is (-1, 0), and counts the
frame (R305). -/
def Obligations.EndOfFrame : Prop :=
  ∀ s : State, s.ppu.scanline = 260 → s.ppu.cycle = 339 →
    ppuStep s = { s with ppu := { s.ppu with scanline := -1, cycle := -1, frame := s.ppu.frame + 1 } } ∧
    (ppuStep (ppuStep s)).ppu.scanline = -1 ∧ (ppuStep (ppuStep s)).ppu.cycle = 0

/-- Vblank entry at (241, 1): flag and NMI request unless suppressed, the latch cleared, the frame emitted (R304, R315; the NMI
depends on PPUCTRL at this dot only by D26; the buffer is cleared by log 9). -/
def Obligations.VblankEntry : Prop :=
  ∀ s : State, s.ppu.scanline = 241 → s.ppu.cycle = 0 →
    ∃ q, ppuStep s = { s with
        cpu := { s.cpu with nmiPending :=
          s.cpu.nmiPending || (!s.ppu.vblSuppress && s.ppu.ctrl.getLsbD 7) }
        ppu := { s.ppu with cycle := 1, status := q, vblSuppress := false, fb := [] }
        out := s.out ++ [.newFrame s.ppu.fb] } ∧
      ∀ k < 8, q.getLsbD k = if k = 7 ∧ s.ppu.vblSuppress = false then true else s.ppu.status.getLsbD k

/-- Every dot that no rule names changes the position only, the 341st of a line going on to the next line (R301, R303, R317). -/
def Obligations.OtherDotsAreIdle : Prop :=
  ∀ s : State, -1 ≤ s.ppu.scanline → s.ppu.scanline ≤ 260 → 0 ≤ s.ppu.cycle → s.ppu.cycle < 340 →
    (s.ppu.scanline = -1 → s.ppu.cycle ≠ 0 ∧ s.ppu.cycle ≠ 303) →
    (0 ≤ s.ppu.scanline → s.ppu.scanline ≤ 239 → s.ppu.cycle ≠ 256) →
    (s.ppu.scanline = 241 → s.ppu.cycle ≠ 0) → (s.ppu.scanline = 260 → s.ppu.cycle ≠ 339) →
    ppuStep s = { s with ppu := { s.ppu with cycle := s.ppu.cycle + 1 } } ∧
    ppuStep { s with ppu := { s.ppu with cycle := 340 } } =
      { s with ppu := { s.ppu with cycle := 0, scanline := s.ppu.scanline + 1 } }

/-- A visible line at cycle 257. Its 256 pixels are written and no other line's: each is the palette entry of R311, in grayscale if
so set, with the emphasis bits (R303, R307, R311, R314); which sprite owns a pixel and what it shows is `SpriteEvaluation`.
`status` bit 5 is set by a ninth sprite (R313), bit 6 by an opaque sprite 0 pixel over an opaque background pixel, both layers
shown, not at 255 (R312); nothing else of it changes. With rendering disabled `v` stays; with it enabled `v` goes to the next
pixel row with the horizontal part of `t` (R308). The checkpoint is decision D18, the hit's exclusions D22, disabled pixels D38;
a pixel is held as the arguments of the open RGB map (D23, log 8). -/
def Obligations.VisibleLine : Prop :=
  ∀ (s : State) (line : Nat), line < 240 → s.ppu.scanline = line → s.ppu.cycle = 256 →
    ∃ t px, ppuStep s = t ∧ t.ppu.cycle = 257 ∧ px.length = 256 ∧ Sparse.find line t.ppu.fb = some px ∧
      (∀ l, l ≠ line → Sparse.find l t.ppu.fb = Sparse.find l s.ppu.fb) ∧
      (∀ x < 256, BackgroundAt s x ∧ ∃ q, px[x]? = some q ∧ q.emphasis.toNat = s.ppu.mask.toNat / 32 ∧
        q.colour = (if s.ppu.mask.getLsbD 0 = true then Cells.read s.ppu.pal (entryAt s line x) &&& 0x30
          else Cells.read s.ppu.pal (entryAt s line x))) ∧
      t = { s with ppu := { s.ppu with cycle := 257, fb := t.ppu.fb, status := t.ppu.status, v := t.ppu.v } } ∧
      (∀ k < 8, k ≠ 5 → k ≠ 6 → t.ppu.status.getLsbD k = s.ppu.status.getLsbD k) ∧
      (t.ppu.status.getLsbD 5 = true ↔ s.ppu.status.getLsbD 5 = true ∨ spriteOverflow s line = true) ∧
      (t.ppu.status.getLsbD 6 = true ↔ s.ppu.status.getLsbD 6 = true ∨
        (s.ppu.mask.getLsbD 3 = true ∧ s.ppu.mask.getLsbD 4 = true ∧ 0 ∈ selectedSprites s line ∧
          ∃ x < 255, (spriteAt s line x 0).isSome = true ∧ (bgPixel s x).value ≠ 0)) ∧
      (s.ppu.mask.getLsbD 3 = false → s.ppu.mask.getLsbD 4 = false →
        t.ppu.v = s.ppu.v ∧ t.ppu.status = s.ppu.status) ∧
      (s.ppu.mask.getLsbD 3 = true ∨ s.ppu.mask.getLsbD 4 = true →
        (∀ k < 15, k < 5 ∨ k = 10 → t.ppu.v.getLsbD k = s.ppu.t.getLsbD k) ∧
        (s.ppu.v.toNat / 0x1000 < 7 →
          (∀ k, 5 ≤ k → k ≠ 10 → k < 12 → t.ppu.v.getLsbD k = s.ppu.v.getLsbD k) ∧
          t.ppu.v.toNat / 0x1000 = s.ppu.v.toNat / 0x1000 + 1) ∧
        (s.ppu.v.toNat / 0x1000 = 7 →
          t.ppu.v.toNat / 0x1000 = 0 ∧
          t.ppu.v.toNat / 0x20 % 0x20 =
            (if s.ppu.v.toNat / 0x20 % 0x20 = 29 ∨ s.ppu.v.toNat / 0x20 % 0x20 = 31 then 0
             else s.ppu.v.toNat / 0x20 % 0x20 + 1) ∧
          t.ppu.v.getLsbD 11 = (s.ppu.v.getLsbD 11 != decide (s.ppu.v.toNat / 0x20 % 0x20 = 29))))

/-- Sprite evaluation: the selected sprites are in range of the line and at most eight, in ascending order; a sprite in range
that is not selected has eight of lower index before it; overflow is set exactly when a ninth is in range; the sprite that owns
a pixel is the selected one of lowest index that is opaque there, none while sprites are not shown; what a selected sprite shows
is R310's (R309 to R311, R313; the evaluation is decision D21, the vertical position D22). -/
def Obligations.SpriteEvaluation : Prop :=
  ∀ (s : State) (line : Nat), renderingEnabled s.ppu = true →
    (selectedSprites s line).length ≤ 8 ∧ (selectedSprites s line).Pairwise (· < ·) ∧
    (∀ i ∈ selectedSprites s line, i < 64 ∧ (oamByte (4 * i) s).toNat + 1 ≤ line ∧
      line < (oamByte (4 * i) s).toNat + 1 + (if s.ppu.ctrl.getLsbD 5 = true then 16 else 8)) ∧
    (∀ i < 64, (oamByte (4 * i) s).toNat + 1 ≤ line →
      line < (oamByte (4 * i) s).toNat + 1 + (if s.ppu.ctrl.getLsbD 5 = true then 16 else 8) →
      i ∉ selectedSprites s line →
      (selectedSprites s line).length = 8 ∧ (∀ j ∈ selectedSprites s line, j < i) ∧ spriteOverflow s line = true) ∧
    (spriteOverflow s line = true → ∃ i < 64, i ∉ selectedSprites s line ∧ spriteInRange s line i = true) ∧
    ∀ px : Nat,
      (∀ i val, ownerAt s line px = some (i, val) →
        i ∈ selectedSprites s line ∧ spriteAt s line px i = some val ∧
        ∀ j ∈ selectedSprites s line, j < i → spriteAt s line px j = none) ∧
      (ownerAt s line px = none → s.ppu.mask.getLsbD 4 = true →
        ∀ j ∈ selectedSprites s line, spriteAt s line px j = none) ∧
      (s.ppu.mask.getLsbD 4 = false → ownerAt s line px = none) ∧
      (∀ i ∈ selectedSprites s line, ∀ val, spriteAt s line px i = some val ↔ SpriteShows s line px i val)

/-! Controllers. -/

/-- The controllers (R364). Writing 1 in bit 0 strobes and latches nothing; writing 0 then latches both controllers; with no strobe
before it, it changes nothing. Then eight reads of a port return the buttons held, A first, in bit 0; the ninth and later return 1.
A read while strobed returns the live A button and shifts nothing, any other shifts a 1 in; a read of one port changes its own
shift register and the model's draw counter only. The strobed read, the fill and the free other bits are decision D15 (log 7 for
the draws). -/
def Obligations.ControllersShiftOut : Prop :=
  ∀ (s : State) (d e : Byte), d.getLsbD 0 = true → e.getLsbD 0 = false →
    (∃ t u, cpuWrite 0x4016 d s = .next t ∧ cpuWrite 0x4016 e t = .next u ∧
      t = { s with pads := { s.pads with strobe := true } } ∧
      u = { s with pads := { s.pads with
        shift1 := s.pads.buttons1, shift2 := s.pads.buttons2, strobe := false } } ∧
      ∀ k : Nat,
        (nthRead 0x4016 k t).getLsbD 0 = s.pads.buttons1.getLsbD 0 ∧
        (nthRead 0x4017 k t).getLsbD 0 = s.pads.buttons2.getLsbD 0 ∧
        (nthRead 0x4016 k u).getLsbD 0 = (if k < 8 then s.pads.buttons1.getLsbD k else true) ∧
        (nthRead 0x4017 k u).getLsbD 0 = (if k < 8 then s.pads.buttons2.getLsbD k else true)) ∧
    (s.pads.strobe = false → cpuWrite 0x4016 e s = .next s) ∧
    (∃ r q, cpuRead 0x4016 s = (r, { s with pads := { s.pads with shift1 := q }, draws := s.draws + 1 }) ∧
      (s.pads.strobe = true → q = s.pads.shift1 ∧ r.getLsbD 0 = s.pads.buttons1.getLsbD 0) ∧
      (s.pads.strobe = false → r.getLsbD 0 = s.pads.shift1.getLsbD 0 ∧
        ∀ k < 8, q.getLsbD k = if k = 7 then true else s.pads.shift1.getLsbD (k + 1))) ∧
    (∃ r q, cpuRead 0x4017 s = (r, { s with pads := { s.pads with shift2 := q }, draws := s.draws + 1 }) ∧
      (s.pads.strobe = true → q = s.pads.shift2 ∧ r.getLsbD 0 = s.pads.buttons2.getLsbD 0) ∧
      (s.pads.strobe = false → r.getLsbD 0 = s.pads.shift2.getLsbD 0 ∧
        ∀ k < 8, q.getLsbD k = if k = 7 then true else s.pads.shift2.getLsbD (k + 1)))
end

