-- ==== Sys2Proof/Laws/Memory.lean ====
section
/-! SUPPORT. The laws of the sparse memories: reading after writing, and that writing keeps the canonical form. -/

namespace Sys2Proof.Machine

namespace Sparse

variable {α : Type}

theorem find_place_self (i : Nat) (v : α) (m : Sparse α) (h : Sparse.find i m = none) :
    Sparse.find i (Sparse.place i v m) = some v := by
  induction m with
  | nil => simp [place, find]
  | cons e m ih =>
    simp only [find] at h
    split at h
    · simp at h
    · simp only [place]
      split
      · simp [find]
      · simp [find, *]

theorem find_place_ne (i j : Nat) (v : α) (m : Sparse α) (h : j ≠ i) :
    Sparse.find j (Sparse.place i v m) = Sparse.find j m := by
  induction m with
  | nil => simp [place, find, Ne.symm h]
  | cons e m ih =>
    simp only [place]
    split
    · simp [find, Ne.symm h]
    · simp only [find, ih]

theorem find_erase_self (i : Nat) (m : Sparse α) : Sparse.find i (Sparse.erase m i) = none := by
  induction m with
  | nil => rfl
  | cons e m ih =>
    simp only [erase] at ih ⊢
    by_cases he : e.1 = i
    · simpa [he] using ih
    · simp [he, find, ih]

theorem find_erase_ne (i j : Nat) (m : Sparse α) (h : j ≠ i) :
    Sparse.find j (Sparse.erase m i) = Sparse.find j m := by
  induction m with
  | nil => rfl
  | cons e m ih =>
    simp only [erase] at ih ⊢
    by_cases he : e.1 = i
    · subst he
      simp [find, Ne.symm h, ih]
    · simp [he, find, ih]

theorem find_put_self (m : Sparse α) (i : Nat) (v : α) : Sparse.find i (Sparse.put m i v) = some v :=
  find_place_self i v _ (find_erase_self i m)

theorem find_put_ne (m : Sparse α) (i j : Nat) (v : α) (h : j ≠ i) :
    Sparse.find j (Sparse.put m i v) = Sparse.find j m := by
  simp only [put, find_place_ne i j v _ h, find_erase_ne i j m h]

theorem rising_weaken {size low low' : Nat} (h : low' ≤ low) {m : Sparse α} (hm : rising size low m = true) :
    rising size low' m = true := by
  cases m with
  | nil => rfl
  | cons e m =>
    simp only [rising, Bool.and_eq_true, decide_eq_true_eq] at hm ⊢
    exact ⟨⟨by omega, hm.1.2⟩, hm.2⟩

theorem rising_erase {size low : Nat} (i : Nat) {m : Sparse α} (hm : rising size low m = true) :
    rising size low (Sparse.erase m i) = true := by
  induction m generalizing low with
  | nil => rfl
  | cons e m ih =>
    simp only [rising, Bool.and_eq_true, decide_eq_true_eq] at hm
    have h' := ih hm.2
    simp only [erase] at h' ⊢
    by_cases he : e.1 = i
    · simp only [List.filter_cons, he, bne_self_eq_false, Bool.false_eq_true, if_false]
      rw [he] at h' hm
      exact rising_weaken (by omega) h'
    · simp only [List.filter_cons, bne_iff_ne.mpr he, if_true, rising, Bool.and_eq_true, decide_eq_true_eq]
      exact ⟨hm.1, h'⟩

theorem rising_place {size low i : Nat} (v : α) {m : Sparse α} (hm : rising size low m = true) (hl : low ≤ i)
    (hs : i < size) (hn : ∀ e ∈ m, e.1 ≠ i) : rising size low (Sparse.place i v m) = true := by
  induction m generalizing low with
  | nil => simp [place, rising, hl, hs]
  | cons e m ih =>
    simp only [rising, Bool.and_eq_true, decide_eq_true_eq] at hm
    have he : e.1 ≠ i := hn e (by simp)
    simp only [place]
    split
    · rename_i hlt
      simp only [rising, Bool.and_eq_true, decide_eq_true_eq]
      exact ⟨⟨hl, hs⟩, ⟨by omega, hm.1.2⟩, hm.2⟩
    · rename_i hlt
      simp only [rising, Bool.and_eq_true, decide_eq_true_eq]
      exact ⟨hm.1, ih hm.2 (by omega) (fun e' he' => hn e' (by simp [he']))⟩

theorem erase_ne {m : Sparse α} {i : Nat} : ∀ e ∈ Sparse.erase m i, e.1 ≠ i := by
  intro e he
  simp only [erase, List.mem_filter, bne_iff_ne] at he
  exact he.2

theorem rising_put {size low i : Nat} (v : α) {m : Sparse α} (hm : rising size low m = true) (hl : low ≤ i)
    (hs : i < size) : rising size low (Sparse.put m i v) = true :=
  rising_place v (rising_erase i hm) hl hs erase_ne

theorem mem_place {i : Nat} {v : α} {m : Sparse α} {e : Nat × α} (h : e ∈ Sparse.place i v m) :
    e = (i, v) ∨ e ∈ m := by
  induction m with
  | nil => simpa [place] using h
  | cons e' m ih =>
    simp only [place] at h
    split at h
    · simpa using h
    · rcases List.mem_cons.mp h with h | h
      · exact .inr (by simp [h])
      · rcases ih h with h | h
        · exact .inl h
        · exact .inr (by simp [h])

theorem mem_put {i : Nat} {v : α} {m : Sparse α} {e : Nat × α} (h : e ∈ Sparse.put m i v) :
    e = (i, v) ∨ e ∈ m := by
  rcases mem_place h with h | h
  · exact .inl h
  · exact .inr (List.mem_filter.mp h).1

end Sparse

namespace Cells

variable {w : Nat}

/-- A read of the cell just written gives the value written. -/
theorem read_write_same (m : Cells w) (i : Nat) (v : BitVec w) : Cells.read (Cells.write m i v) i = v := by
  simp only [write, read]
  split
  · rename_i h
    rw [Sparse.find_erase_self, h]
    rfl
  · rw [Sparse.find_put_self]
    rfl

/-- A write leaves every other cell alone. -/
theorem read_write_other (m : Cells w) (i j : Nat) (v : BitVec w) (h : j ≠ i) :
    Cells.read (Cells.write m i v) j = Cells.read m j := by
  simp only [write, read]
  split
  · rw [Sparse.find_erase_ne _ _ _ h]
  · rw [Sparse.find_put_ne _ _ _ _ h]

theorem read_write (m : Cells w) (i j : Nat) (v : BitVec w) :
    Cells.read (Cells.write m i v) j = if j = i then v else Cells.read m j := by
  split
  · rename_i h
    rw [h, read_write_same]
  · rename_i h
    exact read_write_other m i j v h

/-- A write in range keeps the canonical form. -/
theorem wf_write {size : Nat} {m : Cells w} (hm : Cells.wf size m = true) {i : Nat} (hi : i < size) (v : BitVec w) :
    Cells.wf size (Cells.write m i v) = true := by
  simp only [wf, Bool.and_eq_true, List.all_eq_true, bne_iff_ne] at hm ⊢
  simp only [write]
  split
  · refine ⟨Sparse.rising_erase i hm.1, fun e he => hm.2 e ?_⟩
    exact (List.mem_filter.mp he).1
  · rename_i hv
    refine ⟨Sparse.rising_put v hm.1 (Nat.zero_le _) hi, fun e he => ?_⟩
    rcases Sparse.mem_put he with h | h
    · rw [h]
      exact hv
    · exact hm.2 e h

end Cells

end Sys2Proof.Machine
end

