-- ==== Sys2Proof/Laws/State.lean ====
section
/-! SUPPORT. One lemma per field per update of State, and what the flag accessors read after a flag is written. -/

namespace Sys2Proof.Machine

/-! Bits. -/

theorem getLsbD_one_shiftLeft (i j : Nat) (hj : j < 8) : (1#8 <<< i).getLsbD j = decide (j = i) := by
  simp only [BitVec.getLsbD_shiftLeft, hj, decide_true, Bool.true_and]
  by_cases h : j < i
  · simp [h]; omega
  · rw [BitVec.getLsbD_one]
    simp only [h, decide_false, Bool.not_false, Bool.true_and]
    simp; omega

/-- Reading a bit after one was written. -/
@[simp] theorem getLsbD_putBit (v : Byte) (i j : Nat) (b : Bool) (hj : j < 8) :
    (putBit v i b).getLsbD j = if j = i then b else v.getLsbD j := by
  unfold putBit
  rw [BitVec.getLsbD_or, BitVec.getLsbD_and, BitVec.getLsbD_not, getLsbD_one_shiftLeft i j hj]
  cases b
  · by_cases h : j = i <;> simp [h, hj]
  · simp only [if_true, getLsbD_one_shiftLeft i j hj]
    by_cases h : j = i <;> simp [h, hj]

theorem Flag.bit_lt (f : Flag) : f.bit < 8 := by cases f <;> decide

theorem Flag.bit_inj {f g : Flag} : f.bit = g.bit ↔ f = g := by
  cases f <;> cases g <;> simp [Flag.bit]

/-! Registers. -/

@[simp] theorem reg_setReg (s : State) (r q : Reg) (v : Byte) :
    (s.setReg r v).reg q = if q = r then v else s.reg q := by
  cases r <;> cases q <;> rfl

@[simp] theorem reg_a (s : State) : s.reg .a = s.cpu.a := rfl
@[simp] theorem reg_x (s : State) : s.reg .x = s.cpu.x := rfl
@[simp] theorem reg_y (s : State) : s.reg .y = s.cpu.y := rfl
@[simp] theorem reg_sp (s : State) : s.reg .sp = s.cpu.sp := rfl

@[simp] theorem cpu_a_setReg_a (s : State) (v : Byte) : (s.setReg .a v).cpu.a = v := rfl
@[simp] theorem cpu_x_setReg_a (s : State) (v : Byte) : (s.setReg .a v).cpu.x = s.cpu.x := rfl
@[simp] theorem cpu_y_setReg_a (s : State) (v : Byte) : (s.setReg .a v).cpu.y = s.cpu.y := rfl
@[simp] theorem cpu_sp_setReg_a (s : State) (v : Byte) : (s.setReg .a v).cpu.sp = s.cpu.sp := rfl
@[simp] theorem cpu_a_setReg_x (s : State) (v : Byte) : (s.setReg .x v).cpu.a = s.cpu.a := rfl
@[simp] theorem cpu_x_setReg_x (s : State) (v : Byte) : (s.setReg .x v).cpu.x = v := rfl
@[simp] theorem cpu_y_setReg_x (s : State) (v : Byte) : (s.setReg .x v).cpu.y = s.cpu.y := rfl
@[simp] theorem cpu_sp_setReg_x (s : State) (v : Byte) : (s.setReg .x v).cpu.sp = s.cpu.sp := rfl
@[simp] theorem cpu_a_setReg_y (s : State) (v : Byte) : (s.setReg .y v).cpu.a = s.cpu.a := rfl
@[simp] theorem cpu_x_setReg_y (s : State) (v : Byte) : (s.setReg .y v).cpu.x = s.cpu.x := rfl
@[simp] theorem cpu_y_setReg_y (s : State) (v : Byte) : (s.setReg .y v).cpu.y = v := rfl
@[simp] theorem cpu_sp_setReg_y (s : State) (v : Byte) : (s.setReg .y v).cpu.sp = s.cpu.sp := rfl
@[simp] theorem cpu_a_setReg_sp (s : State) (v : Byte) : (s.setReg .sp v).cpu.a = s.cpu.a := rfl
@[simp] theorem cpu_x_setReg_sp (s : State) (v : Byte) : (s.setReg .sp v).cpu.x = s.cpu.x := rfl
@[simp] theorem cpu_y_setReg_sp (s : State) (v : Byte) : (s.setReg .sp v).cpu.y = s.cpu.y := rfl
@[simp] theorem cpu_sp_setReg_sp (s : State) (v : Byte) : (s.setReg .sp v).cpu.sp = v := rfl

@[simp] theorem cpu_pc_setReg (s : State) (r : Reg) (v : Byte) : (s.setReg r v).cpu.pc = s.cpu.pc := by cases r <;> rfl
@[simp] theorem cpu_p_setReg (s : State) (r : Reg) (v : Byte) : (s.setReg r v).cpu.p = s.cpu.p := by cases r <;> rfl
@[simp] theorem cpu_nmiPending_setReg (s : State) (r : Reg) (v : Byte) : (s.setReg r v).cpu.nmiPending = s.cpu.nmiPending := by cases r <;> rfl
@[simp] theorem cpu_irqPending_setReg (s : State) (r : Reg) (v : Byte) : (s.setReg r v).cpu.irqPending = s.cpu.irqPending := by cases r <;> rfl
@[simp] theorem cpu_cyc_setReg (s : State) (r : Reg) (v : Byte) : (s.setReg r v).cpu.cyc = s.cpu.cyc := by cases r <;> rfl
@[simp] theorem ram_setReg (s : State) (r : Reg) (v : Byte) : (s.setReg r v).ram = s.ram := by cases r <;> rfl
@[simp] theorem ppu_setReg (s : State) (r : Reg) (v : Byte) : (s.setReg r v).ppu = s.ppu := by cases r <;> rfl
@[simp] theorem pads_setReg (s : State) (r : Reg) (v : Byte) : (s.setReg r v).pads = s.pads := by cases r <;> rfl
@[simp] theorem cart_setReg (s : State) (r : Reg) (v : Byte) : (s.setReg r v).cart = s.cart := by cases r <;> rfl
@[simp] theorem inputs_setReg (s : State) (r : Reg) (v : Byte) : (s.setReg r v).inputs = s.inputs := by cases r <;> rfl
@[simp] theorem out_setReg (s : State) (r : Reg) (v : Byte) : (s.setReg r v).out = s.out := by cases r <;> rfl
@[simp] theorem c0_setReg (s : State) (r : Reg) (v : Byte) : (s.setReg r v).c0 = s.c0 := by cases r <;> rfl
@[simp] theorem base_setReg (s : State) (r : Reg) (v : Byte) : (s.setReg r v).base = s.base := by cases r <;> rfl
@[simp] theorem extra_setReg (s : State) (r : Reg) (v : Byte) : (s.setReg r v).extra = s.extra := by cases r <;> rfl
@[simp] theorem dma_setReg (s : State) (r : Reg) (v : Byte) : (s.setReg r v).dma = s.dma := by cases r <;> rfl
@[simp] theorem draws_setReg (s : State) (r : Reg) (v : Byte) : (s.setReg r v).draws = s.draws := by cases r <;> rfl

/-! The other setters. -/

@[simp] theorem cpu_a_setPc (s : State) (w : Word) : (s.setPc w).cpu.a = s.cpu.a := rfl
@[simp] theorem cpu_x_setPc (s : State) (w : Word) : (s.setPc w).cpu.x = s.cpu.x := rfl
@[simp] theorem cpu_y_setPc (s : State) (w : Word) : (s.setPc w).cpu.y = s.cpu.y := rfl
@[simp] theorem cpu_sp_setPc (s : State) (w : Word) : (s.setPc w).cpu.sp = s.cpu.sp := rfl
@[simp] theorem cpu_pc_setPc (s : State) (w : Word) : (s.setPc w).cpu.pc = w := rfl
@[simp] theorem cpu_p_setPc (s : State) (w : Word) : (s.setPc w).cpu.p = s.cpu.p := rfl
@[simp] theorem cpu_nmiPending_setPc (s : State) (w : Word) : (s.setPc w).cpu.nmiPending = s.cpu.nmiPending := rfl
@[simp] theorem cpu_irqPending_setPc (s : State) (w : Word) : (s.setPc w).cpu.irqPending = s.cpu.irqPending := rfl
@[simp] theorem cpu_cyc_setPc (s : State) (w : Word) : (s.setPc w).cpu.cyc = s.cpu.cyc := rfl
@[simp] theorem ram_setPc (s : State) (w : Word) : (s.setPc w).ram = s.ram := rfl
@[simp] theorem ppu_setPc (s : State) (w : Word) : (s.setPc w).ppu = s.ppu := rfl
@[simp] theorem pads_setPc (s : State) (w : Word) : (s.setPc w).pads = s.pads := rfl
@[simp] theorem cart_setPc (s : State) (w : Word) : (s.setPc w).cart = s.cart := rfl
@[simp] theorem inputs_setPc (s : State) (w : Word) : (s.setPc w).inputs = s.inputs := rfl
@[simp] theorem out_setPc (s : State) (w : Word) : (s.setPc w).out = s.out := rfl
@[simp] theorem c0_setPc (s : State) (w : Word) : (s.setPc w).c0 = s.c0 := rfl
@[simp] theorem base_setPc (s : State) (w : Word) : (s.setPc w).base = s.base := rfl
@[simp] theorem extra_setPc (s : State) (w : Word) : (s.setPc w).extra = s.extra := rfl
@[simp] theorem dma_setPc (s : State) (w : Word) : (s.setPc w).dma = s.dma := rfl
@[simp] theorem draws_setPc (s : State) (w : Word) : (s.setPc w).draws = s.draws := rfl
@[simp] theorem reg_setPc (s : State) (w : Word) (r : Reg) : (s.setPc w).reg r = s.reg r := by cases r <;> rfl

@[simp] theorem cpu_a_setP (s : State) (v : Byte) : (s.setP v).cpu.a = s.cpu.a := rfl
@[simp] theorem cpu_x_setP (s : State) (v : Byte) : (s.setP v).cpu.x = s.cpu.x := rfl
@[simp] theorem cpu_y_setP (s : State) (v : Byte) : (s.setP v).cpu.y = s.cpu.y := rfl
@[simp] theorem cpu_sp_setP (s : State) (v : Byte) : (s.setP v).cpu.sp = s.cpu.sp := rfl
@[simp] theorem cpu_pc_setP (s : State) (v : Byte) : (s.setP v).cpu.pc = s.cpu.pc := rfl
@[simp] theorem cpu_p_setP (s : State) (v : Byte) : (s.setP v).cpu.p = v := rfl
@[simp] theorem cpu_nmiPending_setP (s : State) (v : Byte) : (s.setP v).cpu.nmiPending = s.cpu.nmiPending := rfl
@[simp] theorem cpu_irqPending_setP (s : State) (v : Byte) : (s.setP v).cpu.irqPending = s.cpu.irqPending := rfl
@[simp] theorem cpu_cyc_setP (s : State) (v : Byte) : (s.setP v).cpu.cyc = s.cpu.cyc := rfl
@[simp] theorem ram_setP (s : State) (v : Byte) : (s.setP v).ram = s.ram := rfl
@[simp] theorem ppu_setP (s : State) (v : Byte) : (s.setP v).ppu = s.ppu := rfl
@[simp] theorem pads_setP (s : State) (v : Byte) : (s.setP v).pads = s.pads := rfl
@[simp] theorem cart_setP (s : State) (v : Byte) : (s.setP v).cart = s.cart := rfl
@[simp] theorem inputs_setP (s : State) (v : Byte) : (s.setP v).inputs = s.inputs := rfl
@[simp] theorem out_setP (s : State) (v : Byte) : (s.setP v).out = s.out := rfl
@[simp] theorem c0_setP (s : State) (v : Byte) : (s.setP v).c0 = s.c0 := rfl
@[simp] theorem base_setP (s : State) (v : Byte) : (s.setP v).base = s.base := rfl
@[simp] theorem extra_setP (s : State) (v : Byte) : (s.setP v).extra = s.extra := rfl
@[simp] theorem dma_setP (s : State) (v : Byte) : (s.setP v).dma = s.dma := rfl
@[simp] theorem draws_setP (s : State) (v : Byte) : (s.setP v).draws = s.draws := rfl
@[simp] theorem reg_setP (s : State) (v : Byte) (r : Reg) : (s.setP v).reg r = s.reg r := by cases r <;> rfl

@[simp] theorem cpu_setExtra (s : State) (n : Nat) : (s.setExtra n).cpu = s.cpu := rfl
@[simp] theorem ram_setExtra (s : State) (n : Nat) : (s.setExtra n).ram = s.ram := rfl
@[simp] theorem ppu_setExtra (s : State) (n : Nat) : (s.setExtra n).ppu = s.ppu := rfl
@[simp] theorem pads_setExtra (s : State) (n : Nat) : (s.setExtra n).pads = s.pads := rfl
@[simp] theorem cart_setExtra (s : State) (n : Nat) : (s.setExtra n).cart = s.cart := rfl
@[simp] theorem inputs_setExtra (s : State) (n : Nat) : (s.setExtra n).inputs = s.inputs := rfl
@[simp] theorem out_setExtra (s : State) (n : Nat) : (s.setExtra n).out = s.out := rfl
@[simp] theorem c0_setExtra (s : State) (n : Nat) : (s.setExtra n).c0 = s.c0 := rfl
@[simp] theorem base_setExtra (s : State) (n : Nat) : (s.setExtra n).base = s.base := rfl
@[simp] theorem extra_setExtra (s : State) (n : Nat) : (s.setExtra n).extra = n := rfl
@[simp] theorem dma_setExtra (s : State) (n : Nat) : (s.setExtra n).dma = s.dma := rfl
@[simp] theorem draws_setExtra (s : State) (n : Nat) : (s.setExtra n).draws = s.draws := rfl
@[simp] theorem reg_setExtra (s : State) (n : Nat) (r : Reg) : (s.setExtra n).reg r = s.reg r := by cases r <;> rfl
@[simp] theorem flag_setExtra (s : State) (n : Nat) (f : Flag) : (s.setExtra n).flag f = s.flag f := rfl

@[simp] theorem cpu_a_setFlag (s : State) (f : Flag) (b : Bool) : (s.setFlag f b).cpu.a = s.cpu.a := rfl
@[simp] theorem cpu_x_setFlag (s : State) (f : Flag) (b : Bool) : (s.setFlag f b).cpu.x = s.cpu.x := rfl
@[simp] theorem cpu_y_setFlag (s : State) (f : Flag) (b : Bool) : (s.setFlag f b).cpu.y = s.cpu.y := rfl
@[simp] theorem cpu_sp_setFlag (s : State) (f : Flag) (b : Bool) : (s.setFlag f b).cpu.sp = s.cpu.sp := rfl
@[simp] theorem cpu_pc_setFlag (s : State) (f : Flag) (b : Bool) : (s.setFlag f b).cpu.pc = s.cpu.pc := rfl
@[simp] theorem cpu_nmiPending_setFlag (s : State) (f : Flag) (b : Bool) : (s.setFlag f b).cpu.nmiPending = s.cpu.nmiPending := rfl
@[simp] theorem cpu_irqPending_setFlag (s : State) (f : Flag) (b : Bool) : (s.setFlag f b).cpu.irqPending = s.cpu.irqPending := rfl
@[simp] theorem cpu_cyc_setFlag (s : State) (f : Flag) (b : Bool) : (s.setFlag f b).cpu.cyc = s.cpu.cyc := rfl
@[simp] theorem ram_setFlag (s : State) (f : Flag) (b : Bool) : (s.setFlag f b).ram = s.ram := rfl
@[simp] theorem ppu_setFlag (s : State) (f : Flag) (b : Bool) : (s.setFlag f b).ppu = s.ppu := rfl
@[simp] theorem pads_setFlag (s : State) (f : Flag) (b : Bool) : (s.setFlag f b).pads = s.pads := rfl
@[simp] theorem cart_setFlag (s : State) (f : Flag) (b : Bool) : (s.setFlag f b).cart = s.cart := rfl
@[simp] theorem inputs_setFlag (s : State) (f : Flag) (b : Bool) : (s.setFlag f b).inputs = s.inputs := rfl
@[simp] theorem out_setFlag (s : State) (f : Flag) (b : Bool) : (s.setFlag f b).out = s.out := rfl
@[simp] theorem c0_setFlag (s : State) (f : Flag) (b : Bool) : (s.setFlag f b).c0 = s.c0 := rfl
@[simp] theorem base_setFlag (s : State) (f : Flag) (b : Bool) : (s.setFlag f b).base = s.base := rfl
@[simp] theorem extra_setFlag (s : State) (f : Flag) (b : Bool) : (s.setFlag f b).extra = s.extra := rfl
@[simp] theorem dma_setFlag (s : State) (f : Flag) (b : Bool) : (s.setFlag f b).dma = s.dma := rfl
@[simp] theorem draws_setFlag (s : State) (f : Flag) (b : Bool) : (s.setFlag f b).draws = s.draws := rfl
@[simp] theorem reg_setFlag (s : State) (f : Flag) (b : Bool) (r : Reg) : (s.setFlag f b).reg r = s.reg r := by cases r <;> rfl

@[simp] theorem cpu_a_setZN (s : State) (v : Byte) : (s.setZN v).cpu.a = s.cpu.a := rfl
@[simp] theorem cpu_x_setZN (s : State) (v : Byte) : (s.setZN v).cpu.x = s.cpu.x := rfl
@[simp] theorem cpu_y_setZN (s : State) (v : Byte) : (s.setZN v).cpu.y = s.cpu.y := rfl
@[simp] theorem cpu_sp_setZN (s : State) (v : Byte) : (s.setZN v).cpu.sp = s.cpu.sp := rfl
@[simp] theorem cpu_pc_setZN (s : State) (v : Byte) : (s.setZN v).cpu.pc = s.cpu.pc := rfl
@[simp] theorem cpu_nmiPending_setZN (s : State) (v : Byte) : (s.setZN v).cpu.nmiPending = s.cpu.nmiPending := rfl
@[simp] theorem cpu_irqPending_setZN (s : State) (v : Byte) : (s.setZN v).cpu.irqPending = s.cpu.irqPending := rfl
@[simp] theorem cpu_cyc_setZN (s : State) (v : Byte) : (s.setZN v).cpu.cyc = s.cpu.cyc := rfl
@[simp] theorem ram_setZN (s : State) (v : Byte) : (s.setZN v).ram = s.ram := rfl
@[simp] theorem ppu_setZN (s : State) (v : Byte) : (s.setZN v).ppu = s.ppu := rfl
@[simp] theorem pads_setZN (s : State) (v : Byte) : (s.setZN v).pads = s.pads := rfl
@[simp] theorem cart_setZN (s : State) (v : Byte) : (s.setZN v).cart = s.cart := rfl
@[simp] theorem inputs_setZN (s : State) (v : Byte) : (s.setZN v).inputs = s.inputs := rfl
@[simp] theorem out_setZN (s : State) (v : Byte) : (s.setZN v).out = s.out := rfl
@[simp] theorem c0_setZN (s : State) (v : Byte) : (s.setZN v).c0 = s.c0 := rfl
@[simp] theorem base_setZN (s : State) (v : Byte) : (s.setZN v).base = s.base := rfl
@[simp] theorem extra_setZN (s : State) (v : Byte) : (s.setZN v).extra = s.extra := rfl
@[simp] theorem dma_setZN (s : State) (v : Byte) : (s.setZN v).dma = s.dma := rfl
@[simp] theorem draws_setZN (s : State) (v : Byte) : (s.setZN v).draws = s.draws := rfl
@[simp] theorem reg_setZN (s : State) (v : Byte) (r : Reg) : (s.setZN v).reg r = s.reg r := by cases r <;> rfl

/-! Flags. -/

@[simp] theorem flag_setReg (s : State) (r : Reg) (v : Byte) (f : Flag) : (s.setReg r v).flag f = s.flag f := by
  cases r <;> rfl

@[simp] theorem flag_setPc (s : State) (w : Word) (f : Flag) : (s.setPc w).flag f = s.flag f := rfl

@[simp] theorem flag_setP (s : State) (v : Byte) (f : Flag) : (s.setP v).flag f = v.getLsbD f.bit := rfl

@[simp] theorem flag_setFlag (s : State) (f g : Flag) (b : Bool) :
    (s.setFlag f b).flag g = if g = f then b else s.flag g := by
  simp only [State.setFlag, flag_setP, getLsbD_putBit _ _ _ _ g.bit_lt, Flag.bit_inj]
  rfl

@[simp] theorem flag_setZN (s : State) (v : Byte) (g : Flag) :
    (s.setZN v).flag g = if g = .n then v.getLsbD 7 else if g = .z then v == 0 else s.flag g := by
  simp [State.setZN]

/-- What the status byte of an instruction's push, an interrupt's push and a pull hold (R26). -/
theorem pushedByInstruction_bits (p : Byte) (f : Flag) :
    (pushedByInstruction p).getLsbD f.bit = (if f = .b ∨ f = .u then true else p.getLsbD f.bit) := by
  cases f <;> simp [pushedByInstruction, Flag.bit]

theorem pushedByInterrupt_bits (p : Byte) (f : Flag) :
    (pushedByInterrupt p).getLsbD f.bit = (if f = .b then false else if f = .u then true else p.getLsbD f.bit) := by
  cases f <;> simp [pushedByInterrupt, Flag.bit]

theorem loadedStatus_bits (p : Byte) (f : Flag) :
    (loadedStatus p).getLsbD f.bit = (if f = .b then false else if f = .u then true else p.getLsbD f.bit) := by
  cases f <;> simp [loadedStatus, Flag.bit]

/-! The operations on the accumulator and the flags: what they leave alone. -/

@[simp] theorem cpu_x_addToA (s : State) (m : Byte) : (s.addToA m).cpu.x = s.cpu.x := rfl
@[simp] theorem cpu_y_addToA (s : State) (m : Byte) : (s.addToA m).cpu.y = s.cpu.y := rfl
@[simp] theorem cpu_sp_addToA (s : State) (m : Byte) : (s.addToA m).cpu.sp = s.cpu.sp := rfl
@[simp] theorem cpu_pc_addToA (s : State) (m : Byte) : (s.addToA m).cpu.pc = s.cpu.pc := rfl
@[simp] theorem cpu_nmiPending_addToA (s : State) (m : Byte) : (s.addToA m).cpu.nmiPending = s.cpu.nmiPending := rfl
@[simp] theorem cpu_irqPending_addToA (s : State) (m : Byte) : (s.addToA m).cpu.irqPending = s.cpu.irqPending := rfl
@[simp] theorem cpu_cyc_addToA (s : State) (m : Byte) : (s.addToA m).cpu.cyc = s.cpu.cyc := rfl
@[simp] theorem ram_addToA (s : State) (m : Byte) : (s.addToA m).ram = s.ram := rfl
@[simp] theorem ppu_addToA (s : State) (m : Byte) : (s.addToA m).ppu = s.ppu := rfl
@[simp] theorem pads_addToA (s : State) (m : Byte) : (s.addToA m).pads = s.pads := rfl
@[simp] theorem cart_addToA (s : State) (m : Byte) : (s.addToA m).cart = s.cart := rfl
@[simp] theorem inputs_addToA (s : State) (m : Byte) : (s.addToA m).inputs = s.inputs := rfl
@[simp] theorem out_addToA (s : State) (m : Byte) : (s.addToA m).out = s.out := rfl
@[simp] theorem c0_addToA (s : State) (m : Byte) : (s.addToA m).c0 = s.c0 := rfl
@[simp] theorem base_addToA (s : State) (m : Byte) : (s.addToA m).base = s.base := rfl
@[simp] theorem extra_addToA (s : State) (m : Byte) : (s.addToA m).extra = s.extra := rfl
@[simp] theorem dma_addToA (s : State) (m : Byte) : (s.addToA m).dma = s.dma := rfl
@[simp] theorem draws_addToA (s : State) (m : Byte) : (s.addToA m).draws = s.draws := rfl

@[simp] theorem cpu_x_subFromA (s : State) (m : Byte) : (s.subFromA m).cpu.x = s.cpu.x := rfl
@[simp] theorem cpu_y_subFromA (s : State) (m : Byte) : (s.subFromA m).cpu.y = s.cpu.y := rfl
@[simp] theorem cpu_sp_subFromA (s : State) (m : Byte) : (s.subFromA m).cpu.sp = s.cpu.sp := rfl
@[simp] theorem cpu_pc_subFromA (s : State) (m : Byte) : (s.subFromA m).cpu.pc = s.cpu.pc := rfl
@[simp] theorem cpu_nmiPending_subFromA (s : State) (m : Byte) : (s.subFromA m).cpu.nmiPending = s.cpu.nmiPending := rfl
@[simp] theorem cpu_irqPending_subFromA (s : State) (m : Byte) : (s.subFromA m).cpu.irqPending = s.cpu.irqPending := rfl
@[simp] theorem cpu_cyc_subFromA (s : State) (m : Byte) : (s.subFromA m).cpu.cyc = s.cpu.cyc := rfl
@[simp] theorem ram_subFromA (s : State) (m : Byte) : (s.subFromA m).ram = s.ram := rfl
@[simp] theorem ppu_subFromA (s : State) (m : Byte) : (s.subFromA m).ppu = s.ppu := rfl
@[simp] theorem pads_subFromA (s : State) (m : Byte) : (s.subFromA m).pads = s.pads := rfl
@[simp] theorem cart_subFromA (s : State) (m : Byte) : (s.subFromA m).cart = s.cart := rfl
@[simp] theorem inputs_subFromA (s : State) (m : Byte) : (s.subFromA m).inputs = s.inputs := rfl
@[simp] theorem out_subFromA (s : State) (m : Byte) : (s.subFromA m).out = s.out := rfl
@[simp] theorem c0_subFromA (s : State) (m : Byte) : (s.subFromA m).c0 = s.c0 := rfl
@[simp] theorem base_subFromA (s : State) (m : Byte) : (s.subFromA m).base = s.base := rfl
@[simp] theorem extra_subFromA (s : State) (m : Byte) : (s.subFromA m).extra = s.extra := rfl
@[simp] theorem dma_subFromA (s : State) (m : Byte) : (s.subFromA m).dma = s.dma := rfl
@[simp] theorem draws_subFromA (s : State) (m : Byte) : (s.subFromA m).draws = s.draws := rfl

@[simp] theorem cpu_a_compare (s : State) (r m : Byte) : (s.compare r m).cpu.a = s.cpu.a := rfl
@[simp] theorem cpu_x_compare (s : State) (r m : Byte) : (s.compare r m).cpu.x = s.cpu.x := rfl
@[simp] theorem cpu_y_compare (s : State) (r m : Byte) : (s.compare r m).cpu.y = s.cpu.y := rfl
@[simp] theorem cpu_sp_compare (s : State) (r m : Byte) : (s.compare r m).cpu.sp = s.cpu.sp := rfl
@[simp] theorem cpu_pc_compare (s : State) (r m : Byte) : (s.compare r m).cpu.pc = s.cpu.pc := rfl
@[simp] theorem cpu_nmiPending_compare (s : State) (r m : Byte) : (s.compare r m).cpu.nmiPending = s.cpu.nmiPending := rfl
@[simp] theorem cpu_irqPending_compare (s : State) (r m : Byte) : (s.compare r m).cpu.irqPending = s.cpu.irqPending := rfl
@[simp] theorem cpu_cyc_compare (s : State) (r m : Byte) : (s.compare r m).cpu.cyc = s.cpu.cyc := rfl
@[simp] theorem ram_compare (s : State) (r m : Byte) : (s.compare r m).ram = s.ram := rfl
@[simp] theorem ppu_compare (s : State) (r m : Byte) : (s.compare r m).ppu = s.ppu := rfl
@[simp] theorem pads_compare (s : State) (r m : Byte) : (s.compare r m).pads = s.pads := rfl
@[simp] theorem cart_compare (s : State) (r m : Byte) : (s.compare r m).cart = s.cart := rfl
@[simp] theorem inputs_compare (s : State) (r m : Byte) : (s.compare r m).inputs = s.inputs := rfl
@[simp] theorem out_compare (s : State) (r m : Byte) : (s.compare r m).out = s.out := rfl
@[simp] theorem c0_compare (s : State) (r m : Byte) : (s.compare r m).c0 = s.c0 := rfl
@[simp] theorem base_compare (s : State) (r m : Byte) : (s.compare r m).base = s.base := rfl
@[simp] theorem extra_compare (s : State) (r m : Byte) : (s.compare r m).extra = s.extra := rfl
@[simp] theorem dma_compare (s : State) (r m : Byte) : (s.compare r m).dma = s.dma := rfl
@[simp] theorem draws_compare (s : State) (r m : Byte) : (s.compare r m).draws = s.draws := rfl

@[simp] theorem cpu_a_bitTest (s : State) (m : Byte) : (s.bitTest m).cpu.a = s.cpu.a := rfl
@[simp] theorem cpu_x_bitTest (s : State) (m : Byte) : (s.bitTest m).cpu.x = s.cpu.x := rfl
@[simp] theorem cpu_y_bitTest (s : State) (m : Byte) : (s.bitTest m).cpu.y = s.cpu.y := rfl
@[simp] theorem cpu_sp_bitTest (s : State) (m : Byte) : (s.bitTest m).cpu.sp = s.cpu.sp := rfl
@[simp] theorem cpu_pc_bitTest (s : State) (m : Byte) : (s.bitTest m).cpu.pc = s.cpu.pc := rfl
@[simp] theorem cpu_nmiPending_bitTest (s : State) (m : Byte) : (s.bitTest m).cpu.nmiPending = s.cpu.nmiPending := rfl
@[simp] theorem cpu_irqPending_bitTest (s : State) (m : Byte) : (s.bitTest m).cpu.irqPending = s.cpu.irqPending := rfl
@[simp] theorem cpu_cyc_bitTest (s : State) (m : Byte) : (s.bitTest m).cpu.cyc = s.cpu.cyc := rfl
@[simp] theorem ram_bitTest (s : State) (m : Byte) : (s.bitTest m).ram = s.ram := rfl
@[simp] theorem ppu_bitTest (s : State) (m : Byte) : (s.bitTest m).ppu = s.ppu := rfl
@[simp] theorem pads_bitTest (s : State) (m : Byte) : (s.bitTest m).pads = s.pads := rfl
@[simp] theorem cart_bitTest (s : State) (m : Byte) : (s.bitTest m).cart = s.cart := rfl
@[simp] theorem inputs_bitTest (s : State) (m : Byte) : (s.bitTest m).inputs = s.inputs := rfl
@[simp] theorem out_bitTest (s : State) (m : Byte) : (s.bitTest m).out = s.out := rfl
@[simp] theorem c0_bitTest (s : State) (m : Byte) : (s.bitTest m).c0 = s.c0 := rfl
@[simp] theorem base_bitTest (s : State) (m : Byte) : (s.bitTest m).base = s.base := rfl
@[simp] theorem extra_bitTest (s : State) (m : Byte) : (s.bitTest m).extra = s.extra := rfl
@[simp] theorem dma_bitTest (s : State) (m : Byte) : (s.bitTest m).dma = s.dma := rfl
@[simp] theorem draws_bitTest (s : State) (m : Byte) : (s.bitTest m).draws = s.draws := rfl

@[simp] theorem cpu_a_addToA (s : State) (m : Byte) : (s.addToA m).cpu.a = adcResult s.cpu.a m (s.flag .c) := rfl

@[simp] theorem cpu_a_subFromA (s : State) (m : Byte) : (s.subFromA m).cpu.a = sbcResult s.cpu.a m (s.flag .c) := rfl

@[simp] theorem flag_addToA (s : State) (m : Byte) (g : Flag) :
    (s.addToA m).flag g =
      match g with
      | .c => adcCarry s.cpu.a m (s.flag .c)
      | .z => adcResult s.cpu.a m (s.flag .c) == 0
      | .v => adcOverflow s.cpu.a m (adcResult s.cpu.a m (s.flag .c))
      | .n => (adcResult s.cpu.a m (s.flag .c)).getLsbD 7
      | g => s.flag g := by
  cases g <;> simp [State.addToA]

@[simp] theorem flag_subFromA (s : State) (m : Byte) (g : Flag) :
    (s.subFromA m).flag g =
      match g with
      | .c => sbcCarry s.cpu.a m (s.flag .c)
      | .z => sbcResult s.cpu.a m (s.flag .c) == 0
      | .v => sbcOverflow s.cpu.a m (sbcResult s.cpu.a m (s.flag .c))
      | .n => (sbcResult s.cpu.a m (s.flag .c)).getLsbD 7
      | g => s.flag g := by
  cases g <;> simp [State.subFromA]

@[simp] theorem flag_compare (s : State) (r m : Byte) (g : Flag) :
    (s.compare r m).flag g =
      match g with
      | .c => decide (m.toNat ≤ r.toNat)
      | .z => r == m
      | .n => (r - m).getLsbD 7
      | g => s.flag g := by
  cases g <;> simp [State.compare]

@[simp] theorem flag_bitTest (s : State) (m : Byte) (g : Flag) :
    (s.bitTest m).flag g =
      match g with
      | .z => (s.cpu.a &&& m) == 0
      | .n => m.getLsbD 7
      | .v => m.getLsbD 6
      | g => s.flag g := by
  cases g <;> simp [State.bitTest]

end Sys2Proof.Machine
end

