-- ==== Sys2Proof/Laws/Bus.lean ====
section
/-! SUPPORT. Everything a bus read and a bus write can do, said once; the stack. -/

namespace Sys2Proof.Machine

/-! Bus reads. -/

/-- All that a bus read can change: the free-value counter, a pending NMI (R274), the PPU's register latches, the
controllers' shift registers. -/
structure ReadKeeps (s t : State) : Prop where
  cpu    : t.cpu = { s.cpu with nmiPending := t.cpu.nmiPending }
  ram    : t.ram = s.ram
  ppu    : t.ppu = { s.ppu with
              status := t.ppu.status, v := t.ppu.v, w := t.ppu.w, readbuf := t.ppu.readbuf,
              vblSuppress := t.ppu.vblSuppress }
  status : t.ppu.status = s.ppu.status ∨ t.ppu.status = putBit s.ppu.status 7 false
  pads   : t.pads = { s.pads with shift1 := t.pads.shift1, shift2 := t.pads.shift2 }
  cart   : t.cart = s.cart
  inputs : t.inputs = s.inputs
  out    : t.out = s.out
  c0     : t.c0 = s.c0
  base   : t.base = s.base
  extra  : t.extra = s.extra
  dma    : t.dma = s.dma

theorem ReadKeeps.refl (s : State) : ReadKeeps s s := ⟨rfl, rfl, rfl, .inl rfl, rfl, rfl, rfl, rfl, rfl, rfl, rfl, rfl⟩

theorem putBit_putBit (v : Byte) (i : Nat) (b c : Bool) : putBit (putBit v i b) i c = putBit v i c := by
  refine BitVec.eq_of_getLsbD_eq fun j hj => ?_
  simp only [getLsbD_putBit _ _ _ _ hj]
  split <;> rfl

theorem ReadKeeps.trans {s t u : State} (h : ReadKeeps s t) (k : ReadKeeps t u) : ReadKeeps s u where
  cpu := by rw [k.cpu, h.cpu]
  ram := by rw [k.ram, h.ram]
  ppu := by
    have h1 := h.ppu
    have k1 := k.ppu
    cases hs : s.ppu; cases ht : t.ppu; cases hu : u.ppu
    simp_all
  status := by
    rcases k.status with hk | hk <;> rcases h.status with hh | hh <;> rw [hk, hh]
    · exact .inl rfl
    · exact .inr rfl
    · exact .inr rfl
    · exact .inr (putBit_putBit _ _ _ _)
  pads := by
    have h1 := h.pads
    have k1 := k.pads
    cases hs : s.pads; cases ht : t.pads; cases hu : u.pads
    simp_all
  cart := k.cart.trans h.cart
  inputs := k.inputs.trans h.inputs
  out := k.out.trans h.out
  c0 := k.c0.trans h.c0
  base := k.base.trans h.base
  extra := k.extra.trans h.extra
  dma := k.dma.trans h.dma

theorem draw_keeps (s : State) : ReadKeeps s (draw s).2 := ⟨rfl, rfl, rfl, .inl rfl, rfl, rfl, rfl, rfl, rfl, rfl, rfl, rfl⟩

theorem readStatus_keeps (s : State) : ReadKeeps s (readStatus s).2 :=
  ⟨rfl, rfl, rfl, .inr rfl, rfl, rfl, rfl, rfl, rfl, rfl, rfl, rfl⟩

theorem readData_keeps (s : State) : ReadKeeps s (readData s).2 := by
  have h : ∃ b v, (readData s).2 = { s with ppu := { s.ppu with readbuf := b, v := v } } := by
    simp only [readData]
    split <;> exact ⟨_, _, rfl⟩
  obtain ⟨b, v, h⟩ := h
  rw [h]
  exact ⟨rfl, rfl, rfl, .inl rfl, rfl, rfl, rfl, rfl, rfl, rfl, rfl, rfl⟩

theorem ppuRegRead_keeps (r : Nat) (s : State) : ReadKeeps s (ppuRegRead r s).2 := by
  unfold ppuRegRead
  split
  · exact readStatus_keeps s
  · exact .refl s
  · exact readData_keeps s
  · exact draw_keeps s

theorem ctrlRead_keeps (k : Player) (s : State) : ReadKeeps s (ctrlRead k s).2 := by
  refine ⟨rfl, rfl, rfl, .inl rfl, ?_, rfl, rfl, rfl, rfl, rfl, rfl, rfl⟩
  simp only [ctrlRead, draw, padShift]
  split <;> rfl

theorem cartRead_keeps (a : Word) (s : State) : ReadKeeps s (cartRead a s).2 := by
  unfold cartRead
  split
  · exact .refl s
  · split
    · exact .refl s
    · exact draw_keeps s

/-- What a bus read can do. -/
theorem cpuRead_keeps (a : Word) (s : State) : ReadKeeps s (cpuRead a s).2 := by
  unfold cpuRead
  repeat' split
  · exact .refl s
  · exact ppuRegRead_keeps _ s
  · exact draw_keeps s
  · exact ctrlRead_keeps _ s
  · exact ctrlRead_keeps _ s
  · exact draw_keeps s
  · exact cartRead_keeps a s

theorem readOperand_keeps (m : ReadMode) (s : State) : ReadKeeps s (readOperand m s).2 := by
  cases m with
  | immediate op1 => exact .refl s
  | mem m => exact cpuRead_keeps _ s

/-! What a state keeps when memory, wherever it lies, is kept. -/

theorem held_congr {s t : State} (hr : t.ram = s.ram) (hp : t.cart.prg = s.cart.prg) (hb : t.cart.prgBanks = s.cart.prgBanks)
    (hq : t.cart.prgRam = s.cart.prgRam) (hw : t.cart.wram = s.cart.wram) (a : Word) : t.held a = s.held a := by
  simp only [State.held, Cart.prgByte, Cart.prgOffset, hr, hp, hb, hq, hw]

theorem ppuRead_congr {s t : State} (hc : t.cart.chr = s.cart.chr) (hm : t.cart.mirroring = s.cart.mirroring)
    (hn : t.ppu.nt = s.ppu.nt) (hp : t.ppu.pal = s.ppu.pal) (a : Nat) : ppuRead a t = ppuRead a s := by
  simp only [ppuRead, hc, hm, hn, hp]

theorem ReadKeeps.memory {s t : State} (h : ReadKeeps s t) : SameMemory s t where
  cpu := held_congr h.ram (by rw [h.cart]) (by rw [h.cart]) (by rw [h.cart]) (by rw [h.cart])
  ppu := ppuRead_congr (by rw [h.cart]) (by rw [h.cart]) (by rw [h.ppu]) (by rw [h.ppu])
  oam := fun i => by simp only [oamByte]; rw [h.ppu]

theorem OnlyCpu.memory {s t : State} (h : OnlyCpu s t) : SameMemory s t where
  cpu := fun a => by rw [h]; rfl
  ppu := fun a => by rw [h]; rfl
  oam := fun a => by rw [h]; rfl

theorem SameMemory.trans {s t u : State} (h : SameMemory s t) (k : SameMemory t u) : SameMemory s u :=
  ⟨fun a => (k.cpu a).trans (h.cpu a), fun a => (k.ppu a).trans (h.ppu a), fun a => (k.oam a).trans (h.oam a)⟩

/-- A bus read sees no CPU register and no flag. -/
theorem cpuRead_setP (a : Word) (s : State) (p : Byte) :
    cpuRead a (s.setP p) = ((cpuRead a s).1, (cpuRead a s).2.setP p) := by
  unfold cpuRead
  repeat' split
  · rfl
  · unfold ppuRegRead
    split
    · rfl
    · rfl
    · simp only [readData, ppu_setP]
      by_cases h : s.ppu.v.toNat % 0x4000 < 0x3F00 <;> simp only [h, if_true, if_false] <;> rfl
    · rfl
  · rfl
  · rfl
  · rfl
  · rfl
  · simp only [cartRead, cart_setP]
    by_cases h : 0x8000 ≤ a.toNat <;> by_cases h' : 0x6000 ≤ a.toNat ∧ s.cart.prgRam = true <;>
      simp only [h, h', if_true, if_false] <;> rfl

/-! Bus writes. -/

theorem dmaByte_setP (d : Byte) (s : State) (i : Nat) (p : Byte) :
    dmaByte d (s.setP p) i = (dmaByte d s i).setP p := by
  simp only [dmaByte, cpuRead_setP]
  rfl

theorem dmaBytes_setP (d : Byte) (l : List Nat) (s : State) (p : Byte) :
    l.foldl (dmaByte d) (s.setP p) = (l.foldl (dmaByte d) s).setP p := by
  induction l generalizing s with
  | nil => rfl
  | cons i l ih => simp only [List.foldl_cons, dmaByte_setP, ih]

theorem oamDma_setP (d : Byte) (s : State) (p : Byte) : oamDma d (s.setP p) = (oamDma d s).setP p := by
  simp only [oamDma, dmaBytes_setP]
  rfl

theorem ppuRegWrite_setP (r : Nat) (v : Byte) (s : State) (p : Byte) :
    ppuRegWrite r v (s.setP p) = (ppuRegWrite r v s).setP p := by
  unfold ppuRegWrite
  split <;> try rfl
  · cases h : s.ppu.w <;> simp only [writeScroll, ppu_setP, h, if_true, if_false, Bool.false_eq_true] <;> rfl
  · cases h : s.ppu.w <;> simp only [writeAddr, ppu_setP, h, if_true, if_false, Bool.false_eq_true] <;> rfl
  · by_cases h1 : s.ppu.v.toNat % 0x4000 < 0x2000 <;> by_cases h2 : s.ppu.v.toNat % 0x4000 < 0x3F00 <;>
      cases h3 : s.cart.chrWritable <;>
      simp only [writeData, ppuWrite, ppu_setP, cart_setP, h1, h2, h3, if_true, if_false, Bool.false_eq_true] <;> rfl

/-- A bus write sees no flag. -/
theorem cpuWrite_setP (a : Word) (v : Byte) (s : State) (p : Byte) :
    cpuWrite a v (s.setP p) = mapNext (·.setP p) (cpuWrite a v s) := by
  unfold cpuWrite
  repeat' split
  · rfl
  · rw [ppuRegWrite_setP]; rfl
  · rw [oamDma_setP]; rfl
  · by_cases h : s.pads.strobe = true ∧ v.getLsbD 0 = false <;>
      simp only [ctrlStrobe, pads_setP, mapNext, h, if_false] <;> rfl
  · rfl
  · rfl
  · by_cases h : 0x8000 ≤ a.toNat <;> by_cases h' : 0x6000 ≤ a.toNat ∧ s.cart.prgRam = true <;>
      simp only [cartWrite, cart_setP, h, h', if_true, if_false] <;> rfl

/-- What OAM DMA can do: what its 256 reads can do, the OAM and the DMA cycle count. -/
structure DmaKeeps (s t : State) : Prop where
  reads : ReadKeeps s { t with ppu := { t.ppu with oam := s.ppu.oam }, dma := s.dma }

theorem dmaByte_keeps (d : Byte) (s : State) (i : Nat) : DmaKeeps s (dmaByte d s i) := by
  have h := cpuRead_keeps (pair d (BitVec.ofNat 8 i)) s
  refine ⟨⟨h.cpu, h.ram, ?_, h.status, h.pads, h.cart, h.inputs, h.out, h.c0, h.base, h.extra, rfl⟩⟩
  simp only [dmaByte]
  rw [h.ppu]

theorem DmaKeeps.trans {s t u : State} (h : DmaKeeps s t) (k : DmaKeeps t u) : DmaKeeps s u := by
  have h := h.reads
  have k := k.reads
  refine ⟨?_⟩
  constructor
  case cpu => have h1 := h.cpu; have k1 := k.cpu; simp only at h1 k1 ⊢; rw [k1, h1]
  case ram => exact k.ram.trans h.ram
  case ppu => have h1 := h.ppu; have k1 := k.ppu; cases hs : s.ppu; cases ht : t.ppu; cases hu : u.ppu; simp_all
  case status =>
    have h1 := h.status; have k1 := k.status
    simp only at h1 k1 ⊢
    rcases k1 with hk | hk <;> rcases h1 with hh | hh <;> rw [hk, hh]
    · exact .inl rfl
    · exact .inr rfl
    · exact .inr rfl
    · exact .inr (putBit_putBit _ _ _ _)
  case pads => have h1 := h.pads; have k1 := k.pads; simp only at h1 k1 ⊢; rw [k1, h1]
  case cart => exact k.cart.trans h.cart
  case inputs => exact k.inputs.trans h.inputs
  case out => exact k.out.trans h.out
  case c0 => exact k.c0.trans h.c0
  case base => exact k.base.trans h.base
  case extra => exact k.extra.trans h.extra
  case dma => rfl

theorem dmaBytes_keeps (d : Byte) (l : List Nat) (s : State) : DmaKeeps s (l.foldl (dmaByte d) s) := by
  induction l generalizing s with
  | nil => exact ⟨.refl s⟩
  | cons i l ih => exact (dmaByte_keeps d s i).trans (ih _)

theorem oamDma_keeps (d : Byte) (s : State) : DmaKeeps s (oamDma d s) :=
  ⟨(dmaBytes_keeps d (List.range 256) s).reads⟩

theorem DmaKeeps.held {s t : State} (h : DmaKeeps s t) (a : Word) : t.held a = s.held a :=
  h.reads.memory.cpu a

theorem DmaKeeps.ppuRead {s t : State} (h : DmaKeeps s t) (a : Nat) : ppuRead a t = ppuRead a s :=
  h.reads.memory.ppu a

/-! What a write to a PPU register can do. -/

theorem ppuWrite_cases (a : Nat) (v : Byte) (s : State) : ∃ c n p, ppuWrite a v s =
    { s with cart := { s.cart with chr := c }, ppu := { s.ppu with nt := n, pal := p } } := by
  simp only [ppuWrite]
  repeat' split
  all_goals exact ⟨_, _, _, rfl⟩

/-- All that a write to a PPU register can change. -/
theorem ppuRegWrite_cases (r : Nat) (d : Byte) (s : State) : ∃ c ct mk oa v t x w n p o, ppuRegWrite r d s =
    { s with cart := { s.cart with chr := c }, ppu := { s.ppu with
        ctrl := ct, mask := mk, oamaddr := oa, v := v, t := t, x := x, w := w, nt := n, pal := p, oam := o } } := by
  unfold ppuRegWrite
  split
  · exact ⟨_, _, _, _, _, _, _, _, _, _, _, rfl⟩
  · exact ⟨_, _, _, _, _, _, _, _, _, _, _, rfl⟩
  · exact ⟨_, _, _, _, _, _, _, _, _, _, _, rfl⟩
  · exact ⟨_, _, _, _, _, _, _, _, _, _, _, rfl⟩
  · unfold writeScroll
    split <;> exact ⟨_, _, _, _, _, _, _, _, _, _, _, rfl⟩
  · unfold writeAddr
    split <;> exact ⟨_, _, _, _, _, _, _, _, _, _, _, rfl⟩
  · obtain ⟨c, n, p, h⟩ := ppuWrite_cases s.ppu.v.toNat d s
    simp only [writeData, h]
    exact ⟨_, _, _, _, _, _, _, _, _, _, _, rfl⟩
  · exact ⟨_, _, _, _, _, _, _, _, _, _, _, rfl⟩

theorem ppuRegWrite_held (r : Nat) (v : Byte) (s : State) (a : Word) : (ppuRegWrite r v s).held a = s.held a := by
  obtain ⟨c, ct, mk, oa, v', t, x, w, n, p, o, h⟩ := ppuRegWrite_cases r v s
  rw [h]
  rfl

theorem ppuRegWrite_cpu (r : Nat) (v : Byte) (s : State) : (ppuRegWrite r v s).cpu = s.cpu := by
  obtain ⟨c, ct, mk, oa, v', t, x, w, n, p, o, h⟩ := ppuRegWrite_cases r v s
  rw [h]

theorem ppuRegWrite_extra (r : Nat) (v : Byte) (s : State) : (ppuRegWrite r v s).extra = s.extra := by
  obtain ⟨c, ct, mk, oa, v', t, x, w, n, p, o, h⟩ := ppuRegWrite_cases r v s
  rw [h]

/-- A RAM write as a read of any address sees it. -/
theorem held_writeRam (a : Word) (v : Byte) (s : State) (b : Word) :
    (writeRam a v s).held b = if b.toNat < 0x2000 ∧ ramCell b = ramCell a then some v else s.held b := by
  simp only [State.held, writeRam, Cells.read_write]
  by_cases hb : b.toNat < 0x2000
  · by_cases hc : ramCell b = ramCell a <;> simp [hb, hc]
  · simp [hb]
    rfl

theorem OnlyCpu.refl (s : State) : OnlyCpu s s := rfl

theorem OnlyCpu.trans {s t u : State} (h : OnlyCpu s t) (k : OnlyCpu t u) : OnlyCpu s u := by
  unfold OnlyCpu at *
  rw [k, h]

/-- What a bus write below 0x8000 does; above, it is fatal. -/
theorem cpuWrite_effect (a : Word) (v : Byte) (s : State) (ha : a.toNat < 0x8000) :
    ∃ w, cpuWrite a v s = .next w ∧ StoreEffect a v s w ∧
      w.cpu = { s.cpu with nmiPending := w.cpu.nmiPending } ∧ w.extra = s.extra := by
  have ha14 : a = 0x4014 ↔ a.toNat = 0x4014 := by constructor <;> intro h; rw [h]; rfl; exact BitVec.eq_of_toNat_eq h
  have ha16 : a = 0x4016 ↔ a.toNat = 0x4016 := by constructor <;> intro h; rw [h]; rfl; exact BitVec.eq_of_toNat_eq h
  unfold cpuWrite
  by_cases h1 : a.toNat < 0x2000
  · refine ⟨writeRam a v s, by simp [h1], ?_, rfl, rfl⟩
    constructor
    case there => intro _; rw [held_writeRam a v s a]; simp [h1]
    case elsewhere =>
      intro b hb
      rw [held_writeRam a v s b, if_neg]
      intro ⟨h2, h3⟩
      exact hb (.inr ⟨h1, h2, h3.symm⟩)
    case vram => intro _ b; rfl
    case oam => intro _ _ b; rfl
    case ram => intro _; rfl
    case nmi => intro _; rfl
    all_goals (intros; first | omega | contradiction |
      (have := ha14.mp ‹a = 0x4014›; omega) | (have := ha16.mp ‹a = 0x4016›; omega))
  by_cases h2 : a.toNat < 0x4000
  · refine ⟨ppuRegWrite (a.toNat % 8) v s, by simp [h1, h2], ?_, by rw [ppuRegWrite_cpu], ?_⟩
    · constructor
      case there => intro h; rcases h with h | h <;> omega
      case elsewhere => intro b _; exact ppuRegWrite_held _ _ _ _
      case vram => intro h; omega
      case oam => intro h; omega
      case ram => intro h; omega
      case ppuReg => intro _ _; rfl
      case nmi => intro _; rw [ppuRegWrite_cpu]
      all_goals (intros; first | omega | contradiction |
      (have := ha14.mp ‹a = 0x4014›; omega) | (have := ha16.mp ‹a = 0x4016›; omega))
    · exact ppuRegWrite_extra _ _ _
  by_cases h3 : a.toNat = 0x4014
  · have e := ha14.mpr h3
    have hk := oamDma_keeps v s
    refine ⟨oamDma v s, by simp [h3], ?_, hk.reads.cpu, hk.reads.extra⟩
    constructor
    case there => intro h; rcases h with h | h <;> omega
    case elsewhere => intro b _; exact hk.held b
    case vram => intro _ b; exact hk.ppuRead b
    case workRam => intros; omega
    case ignored => intros; omega
    case dma => intro _; rfl
    case dmaNmi => intro _; rfl
    all_goals (intros; first | omega | contradiction |
      (have := ha14.mp ‹a = 0x4014›; omega) | (have := ha16.mp ‹a = 0x4016›; omega))
  by_cases h4 : a.toNat = 0x4016
  · have e := ha16.mpr h4
    have hc : ∃ q, ctrlStrobe v s = { s with pads := q } := by
      simp only [ctrlStrobe]
      split <;> exact ⟨_, rfl⟩
    obtain ⟨q, hq⟩ := hc
    refine ⟨ctrlStrobe v s, by simp [h4], ?_, by rw [hq], by rw [hq]⟩
    constructor
    case there => intro h; rcases h with h | h <;> omega
    case elsewhere => intro b _; rw [hq]; rfl
    case vram => intro _ b; rw [hq]; rfl
    case oam => intro _ _ b; rw [hq]; rfl
    case strobe => intro _; rfl
    case nmi => intro _; rw [hq]
    all_goals (intros; first | omega | contradiction |
      (have := ha14.mp ‹a = 0x4014›; omega))
  by_cases h5 : a.toNat ≤ 0x4017
  · refine ⟨apuWrite a v s, by simp [h1, h2, h3, h4, h5], ?_, rfl, rfl⟩
    constructor
    case there => intro h; rcases h with h | h <;> omega
    case elsewhere => intro b _; rfl
    case vram => intro _ b; rfl
    case oam => intro _ _ b; rfl
    case apu => intros; rfl
    case nmi => intro _; rfl
    all_goals (intros; first | omega | contradiction |
      (have := ha14.mp ‹a = 0x4014›; omega) | (have := ha16.mp ‹a = 0x4016›; omega))
  by_cases h6 : a.toNat < 0x4020
  · refine ⟨s, by simp [h1, h2, h3, h4, h5, h6], ?_, rfl, rfl⟩
    constructor
    case there => intro h; rcases h with h | h <;> omega
    case elsewhere => intro b _; rfl
    case vram => intro _ b; rfl
    case oam => intro _ _ b; rfl
    case ignored => intros; rfl
    case nmi => intro _; rfl
    all_goals (intros; first | omega | contradiction |
      (have := ha14.mp ‹a = 0x4014›; omega) | (have := ha16.mp ‹a = 0x4016›; omega))
  by_cases h7 : 0x6000 ≤ a.toNat ∧ s.cart.prgRam = true
  · refine ⟨{ s with cart := { s.cart with wram := Cells.write s.cart.wram (a.toNat - 0x6000) v } }, ?_, ?_, rfl, rfl⟩
    · simp [h1, h2, h3, h4, h5, h6, cartWrite, h7, Nat.not_le.mpr ha]
    constructor
    case there =>
      intro _
      simp only [State.held, h1, if_false, Nat.not_le.mpr ha, h7.1, h7.2, and_self, if_true, Cells.read_write_same]
    case elsewhere =>
      intro b hb
      simp only [State.held]
      split
      · rfl
      · split
        · rfl
        · split
          · rename_i h8 h9 h10
            rw [Cells.read_write_other]
            intro h11
            apply hb
            left
            apply BitVec.eq_of_toNat_eq
            omega
          · rfl
    case vram => intro _ b; rfl
    case oam => intro _ _ b; rfl
    case workRam => intros; rfl
    case nmi => intro _; rfl
    case ignored => intro _ h; exact absurd (.inr ⟨h7.1, ha, h7.2⟩) h
    all_goals (intros; first | omega | contradiction |
      (have := ha14.mp ‹a = 0x4014›; omega) | (have := ha16.mp ‹a = 0x4016›; omega))
  · refine ⟨s, ?_, ?_, rfl, rfl⟩
    · simp [h1, h2, h3, h4, h5, h6, cartWrite, Nat.not_le.mpr ha]
      intro h8 h9
      exact absurd ⟨h8, h9⟩ h7
    constructor
    case there =>
      intro h
      rcases h with h | h
      · omega
      · exact absurd ⟨h.1, h.2.2⟩ h7
    case elsewhere => intro b _; rfl
    case vram => intro _ b; rfl
    case oam => intro _ _ b; rfl
    case ignored => intros; rfl
    case workRam => intro h8 h9; exact absurd ⟨h8, h9⟩ h7
    case nmi => intro _; rfl
    all_goals (intros; first | omega | contradiction |
      (have := ha14.mp ‹a = 0x4014›; omega) | (have := ha16.mp ‹a = 0x4016›; omega))

theorem cpuWrite_rom (a : Word) (v : Byte) (s : State) (ha : 0x8000 ≤ a.toNat) :
    cpuWrite a v s = .fault (.romWrite a v) := by
  unfold cpuWrite cartWrite
  rw [if_neg (by omega), if_neg (by omega), if_neg (by omega), if_neg (by omega), if_neg (by omega), if_neg (by omega),
    if_pos ha]

/-- The effect of a store does not depend on what happens to the CPU registers after it. -/
theorem StoreEffect.of_onlyCpu {a : Word} {v : Byte} {s w t : State} (h : StoreEffect a v s w) (k : OnlyCpu w t)
    (hn : t.cpu.nmiPending = w.cpu.nmiPending) : StoreEffect a v s t where
  there := fun hb => (k.memory.cpu a).trans (h.there hb)
  elsewhere := fun b hb => (k.memory.cpu b).trans (h.elsewhere b hb)
  vram := fun hb b => (k.memory.ppu b).trans (h.vram hb b)
  oam := fun hb h4 i => (k.memory.oam i).trans (h.oam hb h4 i)
  ram := fun hb => by
    have hr : t.ram = w.ram := by rw [k]
    rw [hr]
    exact (h.ram hb).trans k
  ppuReg := fun h1 h2 => (h.ppuReg h1 h2).trans k
  dma := fun h1 => (h.dma h1).trans k
  strobe := fun h1 => (h.strobe h1).trans k
  apu := fun h1 h2 h3 h4 => (h.apu h1 h2 h3 h4).trans k
  workRam := fun h1 h2 => by
    have hr : t.cart.wram = w.cart.wram := by rw [k]
    rw [hr]
    exact (h.workRam h1 h2).trans k
  ignored := fun h1 h2 => (h.ignored h1 h2).trans k
  nmi := fun h1 => hn.trans (h.nmi h1)
  dmaNmi := fun h1 => hn.trans (h.dmaNmi h1)

/-! The stack lies in RAM. -/

theorem stackAddr_toNat (sp : Byte) : (stackAddr sp).toNat = 0x100 + sp.toNat := by
  simp only [stackAddr, pair, BitVec.toNat_append]
  have := sp.isLt
  rw [Nat.shiftLeft_eq]
  change 1 * 2 ^ 8 ||| sp.toNat = 256 + sp.toNat
  rw [← Nat.two_pow_add_eq_or_of_lt this 1]

theorem stackAddr_lt (sp : Byte) : (stackAddr sp).toNat < 0x2000 := by
  rw [stackAddr_toNat]
  have := sp.isLt
  omega

/-- `CpuWrite` and `CpuRead` on a stack address are the RAM accesses `push` and `pull` make (R30, R31, log 14). -/
theorem cpuWrite_stack (sp v : Byte) (s : State) : cpuWrite (stackAddr sp) v s = .next (writeRam (stackAddr sp) v s) := by
  simp only [cpuWrite, stackAddr_lt, if_true]

theorem cpuRead_stack (sp : Byte) (s : State) :
    cpuRead (stackAddr sp) s = (Cells.read s.ram (ramCell (stackAddr sp)), s) := by
  simp only [cpuRead, stackAddr_lt, if_true]

theorem zext16_lt (b : Byte) : (zext16 b).toNat < 0x2000 := by
  have := b.isLt
  simp only [zext16, BitVec.toNat_setWidth]
  omega

/-- A pointer byte of Indirect_X and Indirect_Y is what `CpuRead` gives, without effect (R151, R152, log 14). -/
theorem cpuRead_zeroPage (p : Byte) (s : State) : cpuRead (zext16 p) s = (zeroPageByte p s, s) := by
  simp only [cpuRead, zext16_lt, if_true, zeroPageByte]

/-- A read from 0x8000 on is a PRG byte, without effect. -/
theorem cpuRead_prg (a : Word) (s : State) (ha : 0x8000 ≤ a.toNat) : cpuRead a s = (s.cart.prgByte a, s) := by
  unfold cpuRead cartRead
  rw [if_neg (by omega), if_neg (by omega), if_neg (by omega), if_neg (by omega), if_neg (by omega), if_neg (by omega),
    if_pos ha]

/-- A bus read of a held byte gives that byte, without effect. -/
theorem cpuRead_held {a : Word} {b : Byte} {s : State} (h : s.held a = some b) : cpuRead a s = (b, s) := by
  unfold State.held at h
  split at h
  · rename_i h1
    simp only [cpuRead, h1, if_true]
    injection h with h
    rw [h]
  · split at h
    · rename_i h2
      rw [cpuRead_prg a s h2]
      injection h with h
      rw [h]
    · split at h
      · rename_i h1 h2 h3
        unfold cpuRead cartRead
        rw [if_neg h1, if_neg (by omega), if_neg (by omega), if_neg (by omega), if_neg (by omega), if_neg (by omega),
          if_neg h2, if_pos h3]
        injection h with h
        rw [h]
      · exact absurd h (by simp)

theorem vectorAt_eq (a : Word) (s : State) (h : 0x8000 ≤ a.toNat) (h' : 0x8000 ≤ (a + 1).toNat) :
    vectorAt a s = s.cart.vectorWord a := by
  simp only [vectorAt, cpuRead_prg a s h, cpuRead_prg (a + 1) s h', Cart.vectorWord]

/-- Pushing and pulling gives the byte back and restores the stack pointer (R31). -/
theorem pull_push (v : Byte) (s : State) : (pull (push v s)).1 = v ∧ (pull (push v s)).2.cpu.sp = s.cpu.sp := by
  have h : s.cpu.sp - 1 + 1 = s.cpu.sp := by
    apply BitVec.eq_of_toNat_eq
    have := s.cpu.sp.isLt
    simp only [BitVec.toNat_add, BitVec.toNat_sub]
    change (((256 - 1) + s.cpu.sp.toNat) % 256 + 1) % 256 = _
    omega
  constructor
  · simp only [pull, push, cpu_sp_setReg_sp, ram_setReg, h, writeRam]
    exact Cells.read_write_same _ _ _
  · simp only [pull, push, cpu_sp_setReg_sp, h]

theorem ramCell_stackAddr (a b : Byte) : ramCell (stackAddr a) = ramCell (stackAddr b) ↔ a = b := by
  simp only [ramCell, stackAddr_toNat]
  constructor
  · intro h
    apply BitVec.eq_of_toNat_eq
    have := a.isLt
    have := b.isLt
    omega
  · rintro rfl
    rfl

/-- What any address reads as after a push. -/
theorem held_push (v : Byte) (s : State) (b : Word) : (push v s).held b =
    if b.toNat < 0x2000 ∧ ramCell b = ramCell (stackAddr s.cpu.sp) then some v else s.held b :=
  held_writeRam (stackAddr s.cpu.sp) v s b

/-- A pull is the byte held at the slot above `SP`, and `SP` goes up by one. -/
theorem pull_held {s : State} {b : Byte} (h : s.held (stackAddr (s.cpu.sp + 1)) = some b) :
    pull s = (b, s.setReg .sp (s.cpu.sp + 1)) := by
  simp only [State.held, stackAddr_lt, if_true] at h
  injection h with h
  simp only [pull, h]

end Sys2Proof.Machine
end

