-- ==== Sys2Proof/Laws/Exec.lean ====
section
/-! SUPPORT. All that one instruction can do, said once: `exec_keeps`. Each shared operation has its own lemma; the case
analysis over the instructions cites them. -/

namespace Sys2Proof.Machine

/-- What the CPU's own actions (bus accesses, register writes, interrupt entry) can never change, and what they change only in
one way. -/
structure Keeps (s t : State) : Prop where
  cyc      : t.cpu.cyc = s.cpu.cyc
  irq      : t.cpu.irqPending = true → s.cpu.irqPending = true
  unused   : s.flag .u = true → t.flag .u = true
  brk      : s.flag .b = false → t.flag .b = false
  status   : t.ppu.status = s.ppu.status ∨ t.ppu.status = putBit s.ppu.status 7 false
  scanline : t.ppu.scanline = s.ppu.scanline
  cycle    : t.ppu.cycle = s.ppu.cycle
  frame    : t.ppu.frame = s.ppu.frame
  fb       : t.ppu.fb = s.ppu.fb
  cart     : t.cart = { s.cart with chr := t.cart.chr, wram := t.cart.wram }
  chr      : s.cart.chrWritable = false → t.cart.chr = s.cart.chr
  wram     : s.cart.prgRam = false → t.cart.wram = s.cart.wram
  inputs   : t.inputs = s.inputs
  out      : ∃ l, t.out = s.out ++ l ∧ ∀ e ∈ l, ∃ a d, e = Output.apuWrite a d
  c0       : t.c0 = s.c0
  base     : t.base = s.base
  dma      : t.dma = s.dma ∨ t.dma = 513 ∨ t.dma = 514
  ramWf    : Memory.wf 0x800 s.ram = true → Memory.wf 0x800 t.ram = true
  wramWf   : Memory.wf 0x2000 s.cart.wram = true → Memory.wf 0x2000 t.cart.wram = true
  chrWf    : Memory.wf 0x2000 s.cart.chr = true → Memory.wf 0x2000 t.cart.chr = true
  ntWf     : Memory.wf 0x800 s.ppu.nt = true → Memory.wf 0x800 t.ppu.nt = true
  palWf    : Cells.wf 32 s.ppu.pal = true → Cells.wf 32 t.ppu.pal = true
  oamWf    : Memory.wf 0x100 s.ppu.oam = true → Memory.wf 0x100 t.ppu.oam = true

theorem Keeps.refl (s : State) : Keeps s s := by
  constructor <;> first | rfl | exact id | (intro; rfl) | exact .inl rfl | skip
  exact ⟨[], by simp, by simp⟩

theorem Keeps.trans {s t u : State} (h : Keeps s t) (k : Keeps t u) : Keeps s u where
  cyc := k.cyc.trans h.cyc
  irq := fun x => h.irq (k.irq x)
  unused := fun x => k.unused (h.unused x)
  brk := fun x => k.brk (h.brk x)
  status := by
    rcases k.status with hk | hk <;> rcases h.status with hh | hh <;> rw [hk, hh]
    · exact .inl rfl
    · exact .inr rfl
    · exact .inr rfl
    · exact .inr (putBit_putBit _ _ _ _)
  scanline := k.scanline.trans h.scanline
  cycle := k.cycle.trans h.cycle
  frame := k.frame.trans h.frame
  fb := k.fb.trans h.fb
  cart := by
    have h1 := h.cart
    have k1 := k.cart
    cases hs : s.cart; cases ht : t.cart; cases hu : u.cart
    simp_all
  chr := fun x => (k.chr (by rw [h.cart]; exact x)).trans (h.chr x)
  wram := fun x => (k.wram (by rw [h.cart]; exact x)).trans (h.wram x)
  inputs := k.inputs.trans h.inputs
  out := by
    obtain ⟨l, hl, hl'⟩ := h.out
    obtain ⟨m, hm, hm'⟩ := k.out
    refine ⟨l ++ m, by rw [hm, hl, List.append_assoc], fun e he => ?_⟩
    rcases List.mem_append.mp he with he | he
    · exact hl' e he
    · exact hm' e he
  c0 := k.c0.trans h.c0
  base := k.base.trans h.base
  dma := by
    rcases k.dma with hk | hk
    · rw [hk]; exact h.dma
    · exact .inr hk
  ramWf := fun x => k.ramWf (h.ramWf x)
  wramWf := fun x => k.wramWf (h.wramWf x)
  chrWf := fun x => k.chrWf (h.chrWf x)
  ntWf := fun x => k.ntWf (h.ntWf x)
  palWf := fun x => k.palWf (h.palWf x)
  oamWf := fun x => k.oamWf (h.oamWf x)

/-- A change of CPU registers that leaves bits 4 and 5 of `P` right (R26). -/
theorem Keeps.ofCpu {s t : State} (h : OnlyCpu s t) (hc : t.cpu.cyc = s.cpu.cyc)
    (hi : t.cpu.irqPending = true → s.cpu.irqPending = true)
    (hu : s.flag .u = true → t.flag .u = true) (hb : s.flag .b = false → t.flag .b = false) : Keeps s t := by
  have h1 := h
  constructor <;> first | exact hc | exact hi | exact hu | exact hb | skip
  all_goals rw [h1]
  all_goals first | rfl | exact id | (intro; rfl) | exact .inl rfl | skip
  exact ⟨[], by simp, by simp⟩

theorem ReadKeeps.flag {s t : State} (h : ReadKeeps s t) (f : Flag) : t.flag f = s.flag f := by
  simp only [State.flag]
  rw [h.cpu]

theorem ReadKeeps.reg {s t : State} (h : ReadKeeps s t) (r : Reg) : t.reg r = s.reg r := by
  cases r <;> simp only [State.reg] <;> rw [h.cpu]

theorem ReadKeeps.pc {s t : State} (h : ReadKeeps s t) : t.cpu.pc = s.cpu.pc := by rw [h.cpu]
theorem ReadKeeps.p {s t : State} (h : ReadKeeps s t) : t.cpu.p = s.cpu.p := by rw [h.cpu]
theorem ReadKeeps.irq {s t : State} (h : ReadKeeps s t) : t.cpu.irqPending = s.cpu.irqPending := by rw [h.cpu]
theorem ReadKeeps.cyc {s t : State} (h : ReadKeeps s t) : t.cpu.cyc = s.cpu.cyc := by rw [h.cpu]

theorem ReadKeeps.keeps {s t : State} (h : ReadKeeps s t) : Keeps s t where
  cyc := h.cyc
  irq := fun x => h.irq ▸ x
  unused := fun x => (h.flag .u).trans x
  brk := fun x => (h.flag .b).trans x
  status := h.status
  scanline := by rw [h.ppu]
  cycle := by rw [h.ppu]
  frame := by rw [h.ppu]
  fb := by rw [h.ppu]
  cart := by rw [h.cart]
  chr := fun _ => by rw [h.cart]
  wram := fun _ => by rw [h.cart]
  inputs := h.inputs
  out := ⟨[], by simp [h.out], by simp⟩
  c0 := h.c0
  base := h.base
  dma := .inl h.dma
  ramWf := fun x => by rw [h.ram]; exact x
  wramWf := fun x => by rw [h.cart]; exact x
  chrWf := fun x => by rw [h.cart]; exact x
  ntWf := fun x => by rw [h.ppu]; exact x
  palWf := fun x => by rw [h.ppu]; exact x
  oamWf := fun x => by rw [h.ppu]; exact x

theorem ramCell_lt (a : Word) : ramCell a < 0x800 := Nat.mod_lt _ (by decide)

theorem writeRam_keeps (a : Word) (d : Byte) (s : State) : Keeps s (writeRam a d s) := by
  constructor <;> first | rfl | exact id | (intro; rfl) | exact .inl rfl | skip
  · exact ⟨[], by simp [writeRam], by simp⟩
  · intro h
    exact Cells.wf_write h (ramCell_lt a) d

theorem table_lt (m : Mirroring) (k : Nat) : m.table (k &&& 3) < 2 := by
  have h : k &&& 3 ≤ 3 := Nat.and_le_right
  cases m <;> simp only [Mirroring.table] <;> omega

theorem ntCell_lt (m : Mirroring) (a : Nat) : ntCell m a < 0x800 := by
  have h := table_lt m (a >>> 10)
  simp only [ntCell]
  omega

theorem palIndex_lt (a : Nat) : palIndex a < 32 := by
  simp only [palIndex]
  split <;> omega

theorem ppuWrite_keeps (a : Nat) (d : Byte) (s : State) : Keeps s (ppuWrite a d s) := by
  simp only [ppuWrite]
  repeat' split
  · rename_i h1 h2
    constructor <;> first | rfl | exact id | (intro; rfl) | exact .inl rfl | skip
    · intro h; rw [h] at h2; exact absurd h2 (by decide)
    · exact ⟨[], by simp, by simp⟩
    · exact fun h => Cells.wf_write h h1 d
  · exact .refl s
  · constructor <;> first | rfl | exact id | (intro; rfl) | exact .inl rfl | skip
    · exact ⟨[], by simp, by simp⟩
    · exact fun h => Cells.wf_write h (ntCell_lt _ _) d
  · constructor <;> first | rfl | exact id | (intro; rfl) | exact .inl rfl | skip
    · exact ⟨[], by simp, by simp⟩
    · exact fun h => Cells.wf_write h (palIndex_lt _) _

/-- A change of the PPU's write-only registers and latches. -/
theorem Keeps.ofLatches (s : State) (ct mk oa rb : Byte) (v t : BitVec 15) (x : BitVec 3) (w vs : Bool) :
    Keeps s { s with ppu := { s.ppu with
      ctrl := ct, mask := mk, oamaddr := oa, readbuf := rb, v := v, t := t, x := x, w := w, vblSuppress := vs } } := by
  constructor <;> first | rfl | exact id | (intro; rfl) | exact .inl rfl | skip
  exact ⟨[], by simp, by simp⟩

theorem ppuRegWrite_keeps (r : Nat) (d : Byte) (s : State) : Keeps s (ppuRegWrite r d s) := by
  unfold ppuRegWrite
  split
  · exact .ofLatches s _ _ _ _ _ _ _ _ _
  · exact .ofLatches s _ _ _ _ _ _ _ _ _
  · exact .ofLatches s _ _ _ _ _ _ _ _ _
  · constructor <;> first | rfl | exact id | (intro; rfl) | exact .inl rfl | skip
    · exact ⟨[], by simp [writeOamData], by simp⟩
    · exact fun h => Cells.wf_write h s.ppu.oamaddr.isLt d
  · unfold writeScroll
    split <;> exact .ofLatches s _ _ _ _ _ _ _ _ _
  · unfold writeAddr
    split <;> exact .ofLatches s _ _ _ _ _ _ _ _ _
  · exact (ppuWrite_keeps _ d s).trans (.ofLatches _ _ _ _ _ _ _ _ _ _)
  · exact .refl s

theorem dmaByte_keeps' (d : Byte) (s : State) (i : Nat) : Keeps s (dmaByte d s i) := by
  refine (cpuRead_keeps (pair d (BitVec.ofNat 8 i)) s).keeps.trans ?_
  constructor <;> first | rfl | exact id | (intro; rfl) | exact .inl rfl | skip
  · exact ⟨[], by simp [dmaByte], by simp⟩
  · exact fun h => Cells.wf_write h (BitVec.isLt _) _

theorem dmaBytes_keeps' (d : Byte) (l : List Nat) (s : State) : Keeps s (l.foldl (dmaByte d) s) := by
  induction l generalizing s with
  | nil => exact .refl s
  | cons i l ih => exact (dmaByte_keeps' d s i).trans (ih _)

theorem oamDma_keeps' (d : Byte) (s : State) : Keeps s (oamDma d s) := by
  refine (dmaBytes_keeps' d (List.range 256) s).trans ?_
  unfold oamDma
  generalize (List.range 256).foldl (dmaByte d) s = u
  generalize s.cycInstr = n
  constructor <;> first | rfl | exact id | (intro; rfl) | exact .inl rfl | skip
  · exact ⟨[], by simp, by simp⟩
  · right
    simp only
    omega

theorem ctrlStrobe_keeps (d : Byte) (s : State) : Keeps s (ctrlStrobe d s) := by
  have h : ∃ q, ctrlStrobe d s = { s with pads := q } := by
    simp only [ctrlStrobe]
    split <;> exact ⟨_, rfl⟩
  obtain ⟨q, h⟩ := h
  rw [h]
  constructor <;> first | rfl | exact id | (intro; rfl) | exact .inl rfl | skip
  exact ⟨[], by simp, by simp⟩

/-- What a bus write that does not fault can do. -/
theorem cpuWrite_keeps {a : Word} {d : Byte} {s t : State} (h : cpuWrite a d s = .next t) : Keeps s t := by
  unfold cpuWrite at h
  split at h
  · injection h with h; rw [← h]; exact writeRam_keeps a d s
  split at h
  · injection h with h; rw [← h]; exact ppuRegWrite_keeps _ d s
  split at h
  · injection h with h; rw [← h]; exact oamDma_keeps' d s
  split at h
  · injection h with h; rw [← h]; exact ctrlStrobe_keeps d s
  split at h
  · injection h with h
    rw [← h]
    constructor <;> first | rfl | exact id | (intro; rfl) | exact .inl rfl | skip
    exact ⟨[_], rfl, fun e he => ⟨a, d, by simpa using he⟩⟩
  split at h
  · injection h with h; rw [← h]; exact .refl s
  unfold cartWrite at h
  split at h
  · exact absurd h (by simp)
  split at h
  · rename_i h8 h9
    injection h with h
    rw [← h]
    constructor <;> first | rfl | exact id | (intro; rfl) | exact .inl rfl | skip
    · intro hp; rw [hp] at h9; exact absurd h9.2 (by decide)
    · exact ⟨[], by simp, by simp⟩
    · exact fun hw => Cells.wf_write hw (by omega) d
  · injection h with h; rw [← h]; exact .refl s

/-- A bus write never refuses, and faults only as a write to ROM. -/
theorem cpuWrite_fault {a : Word} {d : Byte} {s : State} {f : Fault} (h : cpuWrite a d s = .fault f) :
    f = .romWrite a d ∧ 0x8000 ≤ a.toNat := by
  by_cases ha : a.toNat < 0x8000
  · obtain ⟨w, hw, _⟩ := cpuWrite_effect a d s ha
    rw [hw] at h
    exact absurd h (by simp)
  · rw [cpuWrite_rom a d s (by omega)] at h
    injection h with h
    exact ⟨h.symm, by omega⟩

theorem cpuWrite_not_refused {a : Word} {d : Byte} {s : State} {r : Refusal} : cpuWrite a d s ≠ .refused r := by
  by_cases ha : a.toNat < 0x8000
  · obtain ⟨w, hw, _⟩ := cpuWrite_effect a d s ha
    rw [hw]
    simp
  · rw [cpuWrite_rom a d s (by omega)]
    simp

/-! Register and flag writes. -/

theorem setReg_keeps (s : State) (r : Reg) (v : Byte) : Keeps s (s.setReg r v) := by
  refine .ofCpu ?_ ?_ ?_ ?_ ?_ <;> cases r <;> first | rfl | exact id

theorem setPc_keeps (s : State) (w : Word) : Keeps s (s.setPc w) := .ofCpu rfl rfl id id id

theorem setExtra_keeps (s : State) (n : Nat) : Keeps s (s.setExtra n) := .ofCpu rfl rfl id id id

theorem setFlag_keeps (s : State) (f : Flag) (b : Bool) (hu : f ≠ .u) (hb : f ≠ .b) : Keeps s (s.setFlag f b) :=
  .ofCpu rfl rfl id (by simp [hu.symm]) (by simp [hb.symm])

theorem setZN_keeps (s : State) (v : Byte) : Keeps s (s.setZN v) :=
  (setFlag_keeps s .z _ (by decide) (by decide)).trans (setFlag_keeps _ .n _ (by decide) (by decide))

theorem setP_loaded_keeps (s : State) (v : Byte) : Keeps s (s.setP (loadedStatus v)) := by
  refine .ofCpu rfl rfl id (fun _ => ?_) (fun _ => ?_) <;> rw [flag_setP, loadedStatus_bits] <;> simp

theorem addToA_keeps (s : State) (m : Byte) : Keeps s (s.addToA m) :=
  .ofCpu rfl rfl id (by simp) (by simp)

theorem subFromA_keeps (s : State) (m : Byte) : Keeps s (s.subFromA m) :=
  .ofCpu rfl rfl id (by simp) (by simp)

theorem compare_keeps (s : State) (r m : Byte) : Keeps s (s.compare r m) :=
  .ofCpu rfl rfl id (by simp) (by simp)

theorem bitTest_keeps (s : State) (m : Byte) : Keeps s (s.bitTest m) :=
  .ofCpu rfl rfl id (by simp) (by simp)

/-! The stack and interrupt entry. -/

theorem push_keeps (v : Byte) (s : State) : Keeps s (push v s) := (writeRam_keeps _ v s).trans (setReg_keeps _ _ _)

theorem pull_keeps (s : State) : Keeps s (pull s).2 := setReg_keeps s .sp _

theorem pushWord_keeps (w : Word) (s : State) : Keeps s (pushWord w s) := (push_keeps _ s).trans (push_keeps _ _)

theorem pullWord_keeps (s : State) : Keeps s (pullWord s).2 := (pull_keeps s).trans (pull_keeps _)

theorem enterHandler_keeps (ret : Word) (p : Byte) (v : Word) (s : State) : Keeps s (enterHandler ret p v s) :=
  (((pushWord_keeps ret s).trans (push_keeps p _)).trans (setFlag_keeps _ .i true (by decide) (by decide))).trans
    (setPc_keeps _ _)

theorem returnFromHandler_keeps (s : State) : Keeps s (returnFromHandler s) :=
  (((pull_keeps s).trans (setP_loaded_keeps _ _)).trans (pullWord_keeps _)).trans (setPc_keeps _ _)

/-! The operation shapes. -/

/-- What a result can be: a next state that keeps what an instruction keeps and has at most two extra cycles, or one of the
two faults. -/
inductive Allowed (s : State) : Result → Prop
  | next (t : State) (h : Keeps s t) (he : t.extra ≤ 2) : Allowed s (.next t)
  | rom (a : Word) (d : Byte) (h : 0x8000 ≤ a.toNat) : Allowed s (.fault (.romWrite a d))

theorem penalty_le (m : ReadMode) (s : State) : penalty m s ≤ 1 := by
  cases m with
  | immediate _ => exact Nat.zero_le _
  | mem m =>
    simp only [penalty]
    split <;> decide

theorem readOp_allowed (m : ReadMode) (op : Byte → State → State) (s : State) (h : ∀ v t, Keeps t (op v t)) :
    Allowed s (readOp m op s) :=
  .next _ (((readOperand_keeps m s).keeps.trans (h _ _)).trans (setExtra_keeps _ _))
    (Nat.le_succ_of_le (penalty_le m s))

theorem readOpFlat_allowed (m : ReadMode) (op : Byte → State → State) (s : State) (h : ∀ v t, Keeps t (op v t)) :
    Allowed s (readOpFlat m op s) :=
  .next _ (((readOperand_keeps m s).keeps.trans (h _ _)).trans (setExtra_keeps _ _)) (Nat.zero_le _)

theorem impliedOp_allowed (op : State → State) (s : State) (h : Keeps s (op s)) : Allowed s (impliedOp op s) :=
  .next _ (h.trans (setExtra_keeps _ _)) (Nat.zero_le _)

theorem branchOp_allowed (c : Bool) (op1 : Byte) (s : State) : Allowed s (branchOp c op1 s) := by
  unfold branchOp
  split
  · refine .next _ ((setPc_keeps s _).trans (setExtra_keeps _ _)) ?_
    simp only [extra_setExtra]
    split <;> decide
  · exact .next _ (setExtra_keeps _ _) (Nat.zero_le _)

theorem mapNext_allowed {s s1 : State} {a : Word} {d : Byte} {f : State → State} (h1 : Keeps s s1)
    (hf : ∀ t, Keeps t (f t)) (he : ∀ t, (f t).extra ≤ 2) : Allowed s (mapNext f (cpuWrite a d s1)) := by
  cases hc : cpuWrite a d s1 with
  | next t => exact .next _ ((h1.trans (cpuWrite_keeps hc)).trans (hf t)) (he t)
  | fault r =>
    obtain ⟨hr, ha⟩ := cpuWrite_fault hc
    simp only [mapNext, hr]
    exact .rom a d ha
  | refused r => exact absurd hc cpuWrite_not_refused

theorem storeOp_allowed (m : MemMode) (v : Byte) (s : State) : Allowed s (storeOp m v s) :=
  mapNext_allowed (.refl s) (fun t => setExtra_keeps t 0) (fun _ => Nat.zero_le _)

theorem rmwOp_allowed (m : MemMode) (result : Byte → State → Byte) (early late : Byte → State → State) (s : State)
    (h : ∀ v t, Keeps t (early v t)) (k : ∀ v t, Keeps t (late v t)) : Allowed s (rmwOp m result early late s) :=
  mapNext_allowed ((cpuRead_keeps _ s).keeps.trans (h _ _)) (fun t => (k _ t).trans (setExtra_keeps _ _))
    (fun _ => Nat.zero_le _)

theorem shiftMemory_allowed (op : ShiftOp) (m : MemMode) (late : Byte → State → State) (s : State)
    (k : ∀ v t, Keeps t (late v t)) : Allowed s (shiftMemory op m late s) :=
  rmwOp_allowed m _ _ _ s (fun _ t => setFlag_keeps t .c _ (by decide) (by decide)) k

theorem shiftOp_allowed (op : ShiftOp) (m : ShiftMode) (s : State) : Allowed s (shiftOp op m s) := by
  cases m with
  | accumulator =>
    exact .next _ ((((setFlag_keeps s .c _ (by decide) (by decide)).trans (setReg_keeps _ _ _)).trans
      (setZN_keeps _ _)).trans (setExtra_keeps _ _)) (Nat.zero_le _)
  | mem m => exact shiftMemory_allowed op m _ s (fun v t => setZN_keeps t v)

theorem load_keeps (r : Reg) (v w : Byte) (t : State) : Keeps t ((t.setReg r v).setZN w) :=
  (setReg_keeps t r v).trans (setZN_keeps _ w)

theorem execJmp_allowed (m : JumpMode) (s : State) : Allowed s (execJmp m s) := by
  cases m with
  | absoluteJmp op1 op2 =>
    unfold execJmp
    refine impliedOp_allowed _ s ?_
    exact setPc_keeps s _
  | indirect op1 op2 =>
    unfold execJmp
    refine impliedOp_allowed _ s ?_
    exact ((cpuRead_keeps _ s).keeps.trans (cpuRead_keeps _ _).keeps).trans (setPc_keeps _ _)

theorem execNopUndoc_allowed (o : Byte) (m : NopMode) (s : State) : Allowed s (execNopUndoc o m s) := by
  cases m with
  | implied =>
    unfold execNopUndoc
    refine impliedOp_allowed _ s ?_
    exact .refl s
  | immediate op1 =>
    unfold execNopUndoc
    refine readOp_allowed _ _ s ?_
    exact fun _ t => .refl t
  | mem m =>
    unfold execNopUndoc
    refine readOp_allowed _ _ s ?_
    exact fun _ t => .refl t

/-- All that an instruction can do, but for the unmapped bytes: those fault (R261). -/
theorem exec_allowed (i : Instr) (s : State) : Allowed s (exec i s) ∨ ∃ o, i = .unmapped o := by
  cases i
  case unmapped o => exact .inr ⟨o, rfl⟩
  all_goals left
  case lda m =>
    change Allowed s (execLda m s)
    unfold execLda
    refine readOp_allowed m _ s ?_
    exact (fun v t => load_keeps .a v v t)
  case ldx m =>
    change Allowed s (execLdx m s)
    unfold execLdx
    refine readOp_allowed m _ s ?_
    exact (fun v t => load_keeps .x v v t)
  case ldy m =>
    change Allowed s (execLdy m s)
    unfold execLdy
    refine readOp_allowed m _ s ?_
    exact (fun v t => load_keeps .y v v t)
  case sta m =>
    change Allowed s (execSta m s)
    unfold execSta
    exact storeOp_allowed m _ s
  case stx m =>
    change Allowed s (execStx m s)
    unfold execStx
    exact storeOp_allowed m _ s
  case sty m =>
    change Allowed s (execSty m s)
    unfold execSty
    exact storeOp_allowed m _ s
  case tax =>
    change Allowed s (execTax s)
    unfold execTax
    refine impliedOp_allowed _ s ?_
    exact (load_keeps _ _ _ s)
  case tay =>
    change Allowed s (execTay s)
    unfold execTay
    refine impliedOp_allowed _ s ?_
    exact (load_keeps _ _ _ s)
  case txa =>
    change Allowed s (execTxa s)
    unfold execTxa
    refine impliedOp_allowed _ s ?_
    exact (load_keeps _ _ _ s)
  case tya =>
    change Allowed s (execTya s)
    unfold execTya
    refine impliedOp_allowed _ s ?_
    exact (load_keeps _ _ _ s)
  case tsx =>
    change Allowed s (execTsx s)
    unfold execTsx
    refine impliedOp_allowed _ s ?_
    exact (load_keeps _ _ _ s)
  case txs =>
    change Allowed s (execTxs s)
    unfold execTxs
    refine impliedOp_allowed _ s ?_
    exact (setReg_keeps s _ _)
  case adc m =>
    change Allowed s (execAdc m s)
    unfold execAdc
    refine readOp_allowed m _ s ?_
    exact (fun v t => addToA_keeps t v)
  case sbc m =>
    change Allowed s (execSbc m s)
    unfold execSbc
    refine readOp_allowed m _ s ?_
    exact (fun v t => subFromA_keeps t v)
  case and m =>
    change Allowed s (execAnd m s)
    unfold execAnd
    refine readOp_allowed m _ s ?_
    exact (fun _ t => load_keeps .a _ _ t)
  case ora m =>
    change Allowed s (execOra m s)
    unfold execOra
    refine readOp_allowed m _ s ?_
    exact (fun _ t => load_keeps .a _ _ t)
  case eor m =>
    change Allowed s (execEor m s)
    unfold execEor
    refine readOp_allowed m _ s ?_
    exact (fun _ t => load_keeps .a _ _ t)
  case cmp m =>
    change Allowed s (execCmp m s)
    unfold execCmp
    refine readOp_allowed m _ s ?_
    exact (fun v t => compare_keeps t _ v)
  case cpx m =>
    change Allowed s (execCpx m s)
    unfold execCpx
    refine readOpFlat_allowed m _ s ?_
    exact (fun v t => compare_keeps t _ v)
  case cpy m =>
    change Allowed s (execCpy m s)
    unfold execCpy
    refine readOpFlat_allowed m _ s ?_
    exact (fun v t => compare_keeps t _ v)
  case bit m =>
    change Allowed s (execBit m s)
    unfold execBit
    refine readOpFlat_allowed _ _ s ?_
    exact (fun v t => bitTest_keeps t v)
  case inc m =>
    change Allowed s (execInc m s)
    unfold execInc
    refine rmwOp_allowed m _ _ _ s ?_ ?_
    exact (fun _ t => .refl t)
    exact (fun v t => setZN_keeps t v)
  case dec m =>
    change Allowed s (execDec m s)
    unfold execDec
    refine rmwOp_allowed m _ _ _ s ?_ ?_
    exact (fun _ t => .refl t)
    exact (fun v t => setZN_keeps t v)
  case inx =>
    change Allowed s (execInx s)
    unfold execInx
    refine impliedOp_allowed _ s ?_
    exact (load_keeps _ _ _ s)
  case iny =>
    change Allowed s (execIny s)
    unfold execIny
    refine impliedOp_allowed _ s ?_
    exact (load_keeps _ _ _ s)
  case dex =>
    change Allowed s (execDex s)
    unfold execDex
    refine impliedOp_allowed _ s ?_
    exact (load_keeps _ _ _ s)
  case dey =>
    change Allowed s (execDey s)
    unfold execDey
    refine impliedOp_allowed _ s ?_
    exact (load_keeps _ _ _ s)
  case asl m =>
    change Allowed s (execAsl m s)
    unfold execAsl
    exact shiftOp_allowed _ m s
  case lsr m =>
    change Allowed s (execLsr m s)
    unfold execLsr
    exact shiftOp_allowed _ m s
  case rol m =>
    change Allowed s (execRol m s)
    unfold execRol
    exact shiftOp_allowed _ m s
  case ror m =>
    change Allowed s (execRor m s)
    unfold execRor
    exact shiftOp_allowed _ m s
  case jmp m => exact execJmp_allowed m s
  case jsr op1 op2 =>
    change Allowed s (execJsr op1 op2 s)
    unfold execJsr
    refine impliedOp_allowed _ s ?_
    exact ((pushWord_keeps _ s).trans (setPc_keeps _ _))
  case rts =>
    change Allowed s (execRts s)
    unfold execRts
    refine impliedOp_allowed _ s ?_
    exact ((pullWord_keeps s).trans (setPc_keeps _ _))
  case bcc op1 =>
    change Allowed s (execBcc op1 s)
    unfold execBcc
    exact branchOp_allowed _ op1 s
  case bcs op1 =>
    change Allowed s (execBcs op1 s)
    unfold execBcs
    exact branchOp_allowed _ op1 s
  case beq op1 =>
    change Allowed s (execBeq op1 s)
    unfold execBeq
    exact branchOp_allowed _ op1 s
  case bne op1 =>
    change Allowed s (execBne op1 s)
    unfold execBne
    exact branchOp_allowed _ op1 s
  case bmi op1 =>
    change Allowed s (execBmi op1 s)
    unfold execBmi
    exact branchOp_allowed _ op1 s
  case bpl op1 =>
    change Allowed s (execBpl op1 s)
    unfold execBpl
    exact branchOp_allowed _ op1 s
  case bvc op1 =>
    change Allowed s (execBvc op1 s)
    unfold execBvc
    exact branchOp_allowed _ op1 s
  case bvs op1 =>
    change Allowed s (execBvs op1 s)
    unfold execBvs
    exact branchOp_allowed _ op1 s
  case pha =>
    change Allowed s (execPha s)
    unfold execPha
    refine impliedOp_allowed _ s ?_
    exact (push_keeps _ s)
  case pla =>
    change Allowed s (execPla s)
    unfold execPla
    refine impliedOp_allowed _ s ?_
    exact ((pull_keeps s).trans (load_keeps _ _ _ _))
  case php =>
    change Allowed s (execPhp s)
    unfold execPhp
    refine impliedOp_allowed _ s ?_
    exact (push_keeps _ s)
  case plp =>
    change Allowed s (execPlp s)
    unfold execPlp
    refine impliedOp_allowed _ s ?_
    exact ((pull_keeps s).trans (setP_loaded_keeps _ _))
  case clc =>
    change Allowed s (execClc s)
    unfold execClc
    refine impliedOp_allowed _ s ?_
    exact (setFlag_keeps s _ _ (by decide) (by decide))
  case sec =>
    change Allowed s (execSec s)
    unfold execSec
    refine impliedOp_allowed _ s ?_
    exact (setFlag_keeps s _ _ (by decide) (by decide))
  case cli =>
    change Allowed s (execCli s)
    unfold execCli
    refine impliedOp_allowed _ s ?_
    exact (setFlag_keeps s _ _ (by decide) (by decide))
  case sei =>
    change Allowed s (execSei s)
    unfold execSei
    refine impliedOp_allowed _ s ?_
    exact (setFlag_keeps s _ _ (by decide) (by decide))
  case clv =>
    change Allowed s (execClv s)
    unfold execClv
    refine impliedOp_allowed _ s ?_
    exact (setFlag_keeps s _ _ (by decide) (by decide))
  case cld =>
    change Allowed s (execCld s)
    unfold execCld
    refine impliedOp_allowed _ s ?_
    exact (setFlag_keeps s _ _ (by decide) (by decide))
  case sed =>
    change Allowed s (execSed s)
    unfold execSed
    refine impliedOp_allowed _ s ?_
    exact (setFlag_keeps s _ _ (by decide) (by decide))
  case nop =>
    change Allowed s (execNop s)
    unfold execNop
    refine impliedOp_allowed _ s ?_
    exact (.refl s)
  case brk =>
    change Allowed s (execBrk s)
    unfold execBrk
    refine impliedOp_allowed _ s ?_
    exact (enterHandler_keeps _ _ _ s)
  case rti =>
    change Allowed s (execRti s)
    unfold execRti
    refine impliedOp_allowed _ s ?_
    exact (returnFromHandler_keeps s)
  case slo m =>
    change Allowed s (execSlo m s)
    unfold execSlo
    refine shiftMemory_allowed _ m _ s ?_
    exact (fun _ t => load_keeps .a _ _ t)
  case rla m =>
    change Allowed s (execRla m s)
    unfold execRla
    refine shiftMemory_allowed _ m _ s ?_
    exact (fun _ t => load_keeps .a _ _ t)
  case sre m =>
    change Allowed s (execSre m s)
    unfold execSre
    refine shiftMemory_allowed _ m _ s ?_
    exact (fun _ t => load_keeps .a _ _ t)
  case rra m =>
    change Allowed s (execRra m s)
    unfold execRra
    refine shiftMemory_allowed _ m _ s ?_
    exact (fun v t => addToA_keeps t v)
  case sax m =>
    change Allowed s (execSax m s)
    unfold execSax
    exact storeOp_allowed m _ s
  case lax m =>
    change Allowed s (execLax m s)
    unfold execLax
    refine readOp_allowed _ _ s ?_
    exact (fun v t => (setReg_keeps t .a v).trans (load_keeps .x v v _))
  case dcp m =>
    change Allowed s (execDcp m s)
    unfold execDcp
    refine rmwOp_allowed m _ _ _ s ?_ ?_
    exact (fun _ t => .refl t)
    exact (fun v t => compare_keeps t _ v)
  case isb m =>
    change Allowed s (execIsb m s)
    unfold execIsb
    refine rmwOp_allowed m _ _ _ s ?_ ?_
    exact (fun _ t => .refl t)
    exact (fun v t => subFromA_keeps t v)
  case nopUndoc o m => exact execNopUndoc_allowed o m s
  case sbcUndoc op1 =>
    change Allowed s (execSbcUndoc op1 s)
    unfold execSbcUndoc
    refine readOp_allowed _ _ s ?_
    exact (fun v t => subFromA_keeps t v)

end Sys2Proof.Machine
end

