-- ==== Sys2Proof/Laws/Instr.lean ====
section
/-! SUPPORT. The frames of the operation shapes: what is left to show of an instruction is what its own operation does to the
CPU registers. -/

namespace Sys2Proof.Machine

/-- What an operation on the CPU registers alone leaves: registers `rs` and flags `fs` at most, not the pending interrupts, not
the cycle count. -/
structure CpuStep (rs : List Reg) (fs : List Flag) (s t : State) : Prop where
  regs  : SameRegsBut rs s t
  flags : SameFlagsBut fs s t
  rest  : OnlyCpu s t
  nmi   : t.cpu.nmiPending = s.cpu.nmiPending
  irq   : t.cpu.irqPending = s.cpu.irqPending
  cyc   : t.cpu.cyc = s.cpu.cyc

theorem CpuStep.refl (s : State) : CpuStep [] [] s s := ⟨fun _ _ => rfl, fun _ _ => rfl, rfl, rfl, rfl, rfl⟩

theorem CpuStep.extra {rs : List Reg} {fs : List Flag} {s t : State} (h : CpuStep rs fs s t) (n : Nat) :
    CpuStep rs fs s (t.setExtra n) :=
  ⟨fun r hr => (reg_setExtra t n r).trans (h.regs r hr), fun f hf => (flag_setExtra t n f).trans (h.flags f hf),
    h.rest.trans rfl, h.nmi, h.irq, h.cyc⟩

theorem CpuStep.setReg (s : State) (r : Reg) (v : Byte) : CpuStep [r] [] s (s.setReg r v) where
  regs := fun q hq => by rw [reg_setReg, if_neg (by simpa using hq)]
  flags := fun f _ => flag_setReg s r v f
  rest := by cases r <;> rfl
  nmi := by cases r <;> rfl
  irq := by cases r <;> rfl
  cyc := by cases r <;> rfl

theorem CpuStep.setZN (s : State) (v : Byte) : CpuStep [] [.z, .n] s (s.setZN v) where
  regs := fun q _ => reg_setZN s v q
  flags := fun f hf => by
    simp only [List.mem_cons, List.not_mem_nil, or_false, not_or] at hf
    rw [flag_setZN, if_neg hf.2, if_neg hf.1]
  rest := rfl
  nmi := rfl
  irq := rfl
  cyc := rfl

theorem CpuStep.setFlag (s : State) (f : Flag) (b : Bool) : CpuStep [] [f] s (s.setFlag f b) where
  regs := fun q _ => by cases q <;> rfl
  flags := fun g hg => by rw [flag_setFlag, if_neg (by simpa using hg)]
  rest := rfl
  nmi := rfl
  irq := rfl
  cyc := rfl

theorem CpuStep.setPc (s : State) (w : Word) : CpuStep [] [] s (s.setPc w) :=
  ⟨fun q _ => by cases q <;> rfl, fun _ _ => rfl, rfl, rfl, rfl, rfl⟩

theorem CpuStep.addToA (s : State) (m : Byte) : CpuStep [.a] [.c, .v, .z, .n] s (s.addToA m) where
  regs := fun q hq => by cases q <;> first | rfl | simp at hq
  flags := fun f hf => by cases f <;> simp at hf ⊢
  rest := rfl
  nmi := rfl
  irq := rfl
  cyc := rfl

theorem CpuStep.subFromA (s : State) (m : Byte) : CpuStep [.a] [.c, .v, .z, .n] s (s.subFromA m) where
  regs := fun q hq => by cases q <;> first | rfl | simp at hq
  flags := fun f hf => by cases f <;> simp at hf ⊢
  rest := rfl
  nmi := rfl
  irq := rfl
  cyc := rfl

theorem CpuStep.compare (s : State) (r m : Byte) : CpuStep [] [.c, .z, .n] s (s.compare r m) where
  regs := fun q _ => by cases q <;> rfl
  flags := fun f hf => by cases f <;> simp at hf ⊢
  rest := rfl
  nmi := rfl
  irq := rfl
  cyc := rfl

theorem CpuStep.bitTest (s : State) (m : Byte) : CpuStep [] [.z, .n, .v] s (s.bitTest m) where
  regs := fun q _ => by cases q <;> rfl
  flags := fun f hf => by cases f <;> simp at hf ⊢
  rest := rfl
  nmi := rfl
  irq := rfl
  cyc := rfl

/-- Two operations one after the other. -/
theorem CpuStep.trans {rs rs' : List Reg} {fs fs' : List Flag} {s t u : State} (h : CpuStep rs fs s t)
    (k : CpuStep rs' fs' t u) : CpuStep (rs ++ rs') (fs ++ fs') s u where
  regs := fun r hr => by
    simp only [List.mem_append, not_or] at hr
    exact (k.regs r hr.2).trans (h.regs r hr.1)
  flags := fun f hf => by
    simp only [List.mem_append, not_or] at hf
    exact (k.flags f hf.2).trans (h.flags f hf.1)
  rest := h.rest.trans k.rest
  nmi := k.nmi.trans h.nmi
  irq := k.irq.trans h.irq
  cyc := k.cyc.trans h.cyc

/-- Fewer changes are also at most these. -/
theorem CpuStep.weaken {rs rs' : List Reg} {fs fs' : List Flag} {s t : State} (h : CpuStep rs fs s t)
    (hr : ∀ r ∈ rs, r ∈ rs') (hf : ∀ f ∈ fs, f ∈ fs') : CpuStep rs' fs' s t :=
  ⟨fun r hn => h.regs r (fun hm => hn (hr r hm)), fun f hn => h.flags f (fun hm => hn (hf f hm)), h.rest, h.nmi, h.irq, h.cyc⟩

/-- An instruction without a memory operand. -/
theorem CpuStep.registerFrame {rs : List Reg} {fs : List Flag} {s t : State} (h : CpuStep rs fs s t) :
    RegisterFrame rs fs s t :=
  ⟨h.regs, h.flags, h.rest.memory, h.rest, h.nmi, h.irq, h.cyc⟩

/-- An instruction that reads its operand and then works on the CPU registers. -/
theorem CpuStep.readFrame {rs : List Reg} {fs : List Flag} {m : ReadMode} {s t : State}
    (h : CpuStep rs fs (readOperand m s).2 t) (hpc : t.cpu.pc = (readOperand m s).2.cpu.pc) : ReadFrame rs fs m s t :=
  have k := readOperand_keeps m s
  { regs := fun r hr => (h.regs r hr).trans (k.reg r)
    flags := fun f hf => (h.flags f hf).trans (k.flag f)
    pc := hpc.trans k.pc
    memory := k.memory.trans h.rest.memory
    rest := h.rest
    nmi := h.nmi
    irq := h.irq.trans k.irq
    cyc := h.cyc.trans k.cyc }

/-- A store below 0x8000. -/
theorem storeOp_frame (m : MemMode) (v : Byte) (s : State) (ha : (ea m s).toNat < 0x8000) :
    ∃ t, storeOp m v s = .next t ∧ StoreFrame (ea m s) v s t := by
  obtain ⟨w, hw, he, hc, _⟩ := cpuWrite_effect (ea m s) v s ha
  refine ⟨w.setExtra 0, by simp only [storeOp, hw, mapNext], ?_⟩
  refine ⟨fun r _ => ?_, fun f _ => ?_, ?_, ?_, ?_, rfl, he.of_onlyCpu rfl rfl⟩
  · rw [reg_setExtra]
    cases r <;> simp only [State.reg] <;> rw [hc]
  · rw [flag_setExtra]
    simp only [State.flag]
    rw [hc]
  · rw [cpu_setExtra, hc]
  · rw [cpu_setExtra, hc]
  · rw [cpu_setExtra, hc]

/-- A read-modify-write below 0x8000, whose operation before the write sets `C` at most: the byte written, and the state the
operation after the write works on. -/
theorem rmwOp_frame (m : MemMode) (result : Byte → State → Byte) (late : Byte → State → State)
    (early : Byte → State → State) (s : State) (ha : (ea m s).toNat < 0x8000)
    (he : ∀ b t, ∃ p, early b t = t.setP p) {rs : List Reg} {fs : List Flag}
    (hf : ∀ b t, SameFlagsBut fs t (early b t))
    (hl : ∀ b t, CpuStep rs fs t (late b t)) (hpc : ∀ b t, (late b t).cpu.pc = t.cpu.pc) :
    ∃ w, (∀ r, w.reg r = s.reg r) ∧ (∀ f, w.flag f = (early (cpuRead (ea m s) s).1 (cpuRead (ea m s) s).2).flag f) ∧
      rmwOp m result early late s =
        .next ((late (result (cpuRead (ea m s) s).1 (cpuRead (ea m s) s).2) w).setExtra 0) ∧
      ModifyFrame rs fs (ea m s) (result (cpuRead (ea m s) s).1 (cpuRead (ea m s) s).2) s
        ((late (result (cpuRead (ea m s) s).1 (cpuRead (ea m s) s).2) w).setExtra 0) := by
  have k := cpuRead_keeps (ea m s) s
  have hu := hf (cpuRead (ea m s) s).1 (cpuRead (ea m s) s).2
  simp only [rmwOp]
  generalize hb : result (cpuRead (ea m s) s).1 (cpuRead (ea m s) s).2 = b
  obtain ⟨p, hp⟩ := he (cpuRead (ea m s) s).1 (cpuRead (ea m s) s).2
  rw [hp] at hu ⊢
  generalize hr : (cpuRead (ea m s) s).2 = r at *
  obtain ⟨w, hw, hE, hc, _⟩ := cpuWrite_effect (ea m s) b r ha
  have hcp : (w.setP p).cpu = { r.cpu with nmiPending := w.cpu.nmiPending, p := p } := by
    simp only [State.setP]
    rw [hc]
  have hreg : ∀ q, (w.setP p).reg q = s.reg q := by
    intro q
    have hk := k.cpu
    cases q <;> simp only [State.reg, hcp] <;> rw [hk]
  have hflag : ∀ f, (w.setP p).flag f = (r.setP p).flag f := fun f => rfl
  have hL := (hl b (w.setP p)).extra 0
  refine ⟨w.setP p, hreg, hflag, ?_, ?_⟩
  · rw [cpuWrite_setP, hw]
    rfl
  · have hcpu : (w.setP p).cpu.pc = s.cpu.pc ∧ (w.setP p).cpu.irqPending = s.cpu.irqPending ∧
        (w.setP p).cpu.cyc = s.cpu.cyc := by
      rw [hcp]
      exact ⟨k.pc, k.irq, k.cyc⟩
    exact {
      regs := fun q hq => (hL.regs q hq).trans (hreg q)
      flags := fun f hq => ((hL.flags f hq).trans (hflag f)).trans ((hu f hq).trans (k.flag f))
      pc := (hpc b _).trans hcpu.1
      irq := hL.irq.trans hcpu.2.1
      cyc := hL.cyc.trans hcpu.2.2
      extra := rfl
      elsewhere := fun a h => ((hL.rest.memory.cpu a).trans (hE.elsewhere a h)).trans (k.memory.cpu a)
      effect := by
        rw [hr]
        exact hE.of_onlyCpu (OnlyCpu.trans (t := w.setP p) rfl hL.rest) hL.nmi }

end Sys2Proof.Machine
end

