-- ==== Sys2Proof/Laws/PerInstr.lean ====
section
/-! SUPPORT. What the case split over `Instr` needs for statements about every instruction: the length of an encoding. -/

namespace Sys2Proof

theorem MemMode.operandBytes_length (m : MemMode) : 1 ≤ m.operandBytes.length ∧ m.operandBytes.length ≤ 2 := by
  cases m <;> simp [MemMode.operandBytes]

theorem ReadMode.operandBytes_length (m : ReadMode) : m.operandBytes.length ≤ 2 := by
  cases m with
  | immediate a => simp [ReadMode.operandBytes]
  | mem m => exact m.operandBytes_length.2

theorem ShiftMode.operandBytes_length (m : ShiftMode) : m.operandBytes.length ≤ 2 := by
  cases m with
  | accumulator => simp [ShiftMode.operandBytes]
  | mem m => exact m.operandBytes_length.2

theorem JumpMode.operandBytes_length (m : JumpMode) : m.operandBytes.length = 2 := by
  cases m <;> rfl

theorem NopMode.operandBytes_length (m : NopMode) : m.operandBytes.length ≤ 2 := by
  cases m with
  | implied => simp [NopMode.operandBytes]
  | immediate a => simp [NopMode.operandBytes]
  | mem m => exact m.operandBytes_length.2

namespace Laws.EncodedSize

/-- An instruction that has an opcode byte is encoded by that byte and its operand bytes, three bytes at most (R120, R124). -/
def Statement (i : Instr) : Prop :=
  ∀ o, i.opcode = some o → encode i = o :: i.operandBytes ∧ i.operandBytes.length ≤ 2

/-- From the operand bytes alone. -/
theorem of_length {i : Instr} (h : i.operandBytes.length ≤ 2) : Statement i := by
  intro o ho
  simp only [encode, ho]
  exact ⟨trivial, h⟩

theorem lda (m : ReadMode) : Statement (.lda m) := of_length m.operandBytes_length

theorem ldx (m : ReadMode) : Statement (.ldx m) := of_length m.operandBytes_length

theorem ldy (m : ReadMode) : Statement (.ldy m) := of_length m.operandBytes_length

theorem sta (m : MemMode) : Statement (.sta m) := of_length m.operandBytes_length.2

theorem stx (m : MemMode) : Statement (.stx m) := of_length m.operandBytes_length.2

theorem sty (m : MemMode) : Statement (.sty m) := of_length m.operandBytes_length.2

theorem tax : Statement .tax := of_length (by decide)

theorem tay : Statement .tay := of_length (by decide)

theorem txa : Statement .txa := of_length (by decide)

theorem tya : Statement .tya := of_length (by decide)

theorem tsx : Statement .tsx := of_length (by decide)

theorem txs : Statement .txs := of_length (by decide)

theorem adc (m : ReadMode) : Statement (.adc m) := of_length m.operandBytes_length

theorem sbc (m : ReadMode) : Statement (.sbc m) := of_length m.operandBytes_length

theorem and (m : ReadMode) : Statement (.and m) := of_length m.operandBytes_length

theorem ora (m : ReadMode) : Statement (.ora m) := of_length m.operandBytes_length

theorem eor (m : ReadMode) : Statement (.eor m) := of_length m.operandBytes_length

theorem cmp (m : ReadMode) : Statement (.cmp m) := of_length m.operandBytes_length

theorem cpx (m : ReadMode) : Statement (.cpx m) := of_length m.operandBytes_length

theorem cpy (m : ReadMode) : Statement (.cpy m) := of_length m.operandBytes_length

theorem bit (m : MemMode) : Statement (.bit m) := of_length m.operandBytes_length.2

theorem inc (m : MemMode) : Statement (.inc m) := of_length m.operandBytes_length.2

theorem dec (m : MemMode) : Statement (.dec m) := of_length m.operandBytes_length.2

theorem inx : Statement .inx := of_length (by decide)

theorem iny : Statement .iny := of_length (by decide)

theorem dex : Statement .dex := of_length (by decide)

theorem dey : Statement .dey := of_length (by decide)

theorem asl (m : ShiftMode) : Statement (.asl m) := of_length m.operandBytes_length

theorem lsr (m : ShiftMode) : Statement (.lsr m) := of_length m.operandBytes_length

theorem rol (m : ShiftMode) : Statement (.rol m) := of_length m.operandBytes_length

theorem ror (m : ShiftMode) : Statement (.ror m) := of_length m.operandBytes_length

theorem jmp (m : JumpMode) : Statement (.jmp m) := of_length (Nat.le_of_eq m.operandBytes_length)

theorem jsr (op1 op2 : Byte) : Statement (.jsr op1 op2) := of_length (by simp [Instr.operandBytes])

theorem rts : Statement .rts := of_length (by decide)

theorem bcc (op1 : Byte) : Statement (.bcc op1) := of_length (by simp [Instr.operandBytes])

theorem bcs (op1 : Byte) : Statement (.bcs op1) := of_length (by simp [Instr.operandBytes])

theorem beq (op1 : Byte) : Statement (.beq op1) := of_length (by simp [Instr.operandBytes])

theorem bne (op1 : Byte) : Statement (.bne op1) := of_length (by simp [Instr.operandBytes])

theorem bmi (op1 : Byte) : Statement (.bmi op1) := of_length (by simp [Instr.operandBytes])

theorem bpl (op1 : Byte) : Statement (.bpl op1) := of_length (by simp [Instr.operandBytes])

theorem bvc (op1 : Byte) : Statement (.bvc op1) := of_length (by simp [Instr.operandBytes])

theorem bvs (op1 : Byte) : Statement (.bvs op1) := of_length (by simp [Instr.operandBytes])

theorem pha : Statement .pha := of_length (by decide)

theorem pla : Statement .pla := of_length (by decide)

theorem php : Statement .php := of_length (by decide)

theorem plp : Statement .plp := of_length (by decide)

theorem clc : Statement .clc := of_length (by decide)

theorem sec : Statement .sec := of_length (by decide)

theorem cli : Statement .cli := of_length (by decide)

theorem sei : Statement .sei := of_length (by decide)

theorem clv : Statement .clv := of_length (by decide)

theorem cld : Statement .cld := of_length (by decide)

theorem sed : Statement .sed := of_length (by decide)

theorem nop : Statement .nop := of_length (by decide)

theorem brk : Statement .brk := of_length (by decide)

theorem rti : Statement .rti := of_length (by decide)

theorem slo (m : MemMode) : Statement (.slo m) := of_length m.operandBytes_length.2

theorem rla (m : MemMode) : Statement (.rla m) := of_length m.operandBytes_length.2

theorem sre (m : MemMode) : Statement (.sre m) := of_length m.operandBytes_length.2

theorem rra (m : MemMode) : Statement (.rra m) := of_length m.operandBytes_length.2

theorem sax (m : MemMode) : Statement (.sax m) := of_length m.operandBytes_length.2

theorem lax (m : MemMode) : Statement (.lax m) := of_length m.operandBytes_length.2

theorem dcp (m : MemMode) : Statement (.dcp m) := of_length m.operandBytes_length.2

theorem isb (m : MemMode) : Statement (.isb m) := of_length m.operandBytes_length.2

theorem nopUndoc (opcode : Byte) (m : NopMode) : Statement (.nopUndoc opcode m) := of_length m.operandBytes_length

theorem sbcUndoc (op1 : Byte) : Statement (.sbcUndoc op1) := of_length (by simp [Instr.operandBytes])

theorem unmapped (opcode : Byte) : Statement (.unmapped opcode) := of_length (by simp [Instr.operandBytes])

end Laws.EncodedSize

end Sys2Proof
end

