-- ==== Sys2Proof/Laws/Ppu.lean ====
section
/-! SUPPORT. All that the PPU's dots can do, said once: `ppuSteps_keeps`; and where the position stands after them. -/

namespace Sys2Proof.Machine

/-- What the PPU's own steps can never change, and what they change only in one way. -/
structure DotKeeps (s t : State) : Prop where
  cpu    : t.cpu = { s.cpu with nmiPending := t.cpu.nmiPending }
  nmi    : s.cpu.nmiPending = true → t.cpu.nmiPending = true
  ram    : t.ram = s.ram
  ppu    : t.ppu = { s.ppu with
              status := t.ppu.status, v := t.ppu.v, scanline := t.ppu.scanline, cycle := t.ppu.cycle,
              frame := t.ppu.frame, vblSuppress := t.ppu.vblSuppress, fb := t.ppu.fb }
  pads   : t.pads = s.pads
  cart   : t.cart = s.cart
  inputs : t.inputs = s.inputs
  out    : ∃ l, t.out = s.out ++ l ∧ ∀ e ∈ l, ∃ fb, e = Output.newFrame fb
  c0     : t.c0 = s.c0
  base   : t.base = s.base
  extra  : t.extra = s.extra
  dma    : t.dma = s.dma
  draws  : t.draws = s.draws
  status : s.ppu.status &&& 0x1F = 0 → t.ppu.status &&& 0x1F = 0
  fbWf   : FrameBuffer.wf s.ppu.fb = true → FrameBuffer.wf t.ppu.fb = true

theorem DotKeeps.refl (s : State) : DotKeeps s s :=
  ⟨rfl, id, rfl, rfl, rfl, rfl, rfl, ⟨[], by simp, by simp⟩, rfl, rfl, rfl, rfl, rfl, id, id⟩

theorem DotKeeps.trans {s t u : State} (h : DotKeeps s t) (k : DotKeeps t u) : DotKeeps s u where
  cpu := by
    have h1 := h.cpu
    have k1 := k.cpu
    cases hs : s.cpu; cases ht : t.cpu; cases hu : u.cpu
    simp_all
  nmi := fun x => k.nmi (h.nmi x)
  ram := k.ram.trans h.ram
  ppu := by
    have h1 := h.ppu
    have k1 := k.ppu
    cases hs : s.ppu; cases ht : t.ppu; cases hu : u.ppu
    simp_all
  pads := k.pads.trans h.pads
  cart := k.cart.trans h.cart
  inputs := k.inputs.trans h.inputs
  out := by
    obtain ⟨l, hl, hl'⟩ := h.out
    obtain ⟨m, hm, hm'⟩ := k.out
    refine ⟨l ++ m, by rw [hm, hl, List.append_assoc], fun e he => ?_⟩
    rcases List.mem_append.mp he with he | he
    · exact hl' e he
    · exact hm' e he
  c0 := k.c0.trans h.c0
  base := k.base.trans h.base
  extra := k.extra.trans h.extra
  dma := k.dma.trans h.dma
  draws := k.draws.trans h.draws
  status := fun x => k.status (h.status x)
  fbWf := fun x => k.fbWf (h.fbWf x)

theorem advanceDot_cases (s : State) : ∃ c l, advanceDot s = { s with ppu := { s.ppu with cycle := c, scanline := l } } ∧
    (s.ppu.cycle = 340 ∧ c = 0 ∧ l = s.ppu.scanline + 1 ∨ s.ppu.cycle ≠ 340 ∧ c = s.ppu.cycle + 1 ∧ l = s.ppu.scanline) := by
  unfold advanceDot
  split
  · rename_i h
    exact ⟨_, _, rfl, .inl ⟨h, rfl, rfl⟩⟩
  · rename_i h
    exact ⟨_, s.ppu.scanline, rfl, .inr ⟨h, rfl, rfl⟩⟩

theorem advanceDot_keeps (s : State) : DotKeeps s (advanceDot s) := by
  obtain ⟨c, l, h, _⟩ := advanceDot_cases s
  rw [h]
  exact ⟨rfl, id, rfl, rfl, rfl, rfl, rfl, ⟨[], by simp, by simp⟩, rfl, rfl, rfl, rfl, rfl, id, id⟩

theorem endFrame_keeps (s : State) : DotKeeps s (endFrame s) := by
  unfold endFrame
  split
  · exact ⟨rfl, id, rfl, rfl, rfl, rfl, rfl, ⟨[], by simp, by simp⟩, rfl, rfl, rfl, rfl, rfl, id, id⟩
  · exact .refl s

theorem clearStatus_keeps (s : State) : DotKeeps s (clearStatus s) := by
  refine ⟨rfl, id, rfl, rfl, rfl, rfl, rfl, ⟨[], by simp [clearStatus], by simp⟩, rfl, rfl, rfl, rfl, rfl, ?_, id⟩
  intro h
  simp only [clearStatus]
  rw [h]
  rfl

theorem copyScroll_keeps (s : State) : DotKeeps s (copyScroll s) := by
  unfold copyScroll
  split
  · exact ⟨rfl, id, rfl, rfl, rfl, rfl, rfl, ⟨[], by simp, by simp⟩, rfl, rfl, rfl, rfl, rfl, id, id⟩
  · exact .refl s

theorem renderLine_keeps (line : Nat) (s : State) (hl : line < 240) : DotKeeps s (renderLine line s) := by
  refine ⟨rfl, id, rfl, rfl, rfl, rfl, rfl, ⟨[], by simp [renderLine], by simp⟩, rfl, rfl, rfl, rfl, rfl, ?_, ?_⟩
  · intro h
    have hor : ∀ a b c : Byte, (a ||| b ||| c) &&& 0x1F = (a &&& 0x1F) ||| ((b ||| c) &&& 0x1F) := by
      intro a b c
      apply BitVec.eq_of_getLsbD_eq
      intro i _
      simp only [BitVec.getLsbD_and, BitVec.getLsbD_or]
      cases a.getLsbD i <;> cases b.getLsbD i <;> cases c.getLsbD i <;> cases (0x1F#8).getLsbD i <;> rfl
    simp only [renderLine]
    rw [hor, h]
    cases spriteOverflow s line <;> cases spriteZeroHit s line <;> rfl
  · intro h
    simp only [FrameBuffer.wf, renderLine, Bool.and_eq_true, List.all_eq_true] at h ⊢
    refine ⟨Sparse.rising_put _ h.1 (Nat.zero_le _) hl, fun e he => ?_⟩
    rcases Sparse.mem_put he with h2 | h2
    · rw [h2]
      simp [linePixels]
    · exact h.2 e h2

theorem putBit7_and (v : Byte) (b : Bool) : putBit v 7 b &&& 0x1F = v &&& 0x1F := by
  apply BitVec.eq_of_getLsbD_eq
  intro i hi
  simp only [BitVec.getLsbD_and, getLsbD_putBit _ _ _ _ hi]
  split
  · rename_i h
    rw [h]
    simp
  · rfl

theorem enterVblank_keeps (s : State) : DotKeeps s (enterVblank s) := by
  refine ⟨rfl, ?_, rfl, rfl, rfl, rfl, rfl, ⟨[_], rfl, fun e he => ⟨s.ppu.fb, by simpa using he⟩⟩, rfl, rfl, rfl, rfl, rfl,
    ?_, fun _ => rfl⟩
  · intro h
    simp [enterVblank, h]
  · intro h
    simp only [enterVblank]
    split
    · exact h
    · rw [putBit7_and, h]

theorem dotEvents_keeps (s : State) : DotKeeps s (dotEvents s) := by
  unfold dotEvents
  split
  · exact clearStatus_keeps s
  split
  · exact copyScroll_keeps s
  split
  · exact renderLine_keeps _ s (by omega)
  split
  · exact enterVblank_keeps s
  · exact .refl s

/-- What one dot can do. -/
theorem ppuStep_keeps (s : State) : DotKeeps s (ppuStep s) :=
  ((advanceDot_keeps s).trans (dotEvents_keeps _)).trans (endFrame_keeps _)

/-- What `n` dots can do. -/
theorem ppuSteps_keeps (n : Nat) (s : State) : DotKeeps s (ppuSteps n s) := by
  induction n generalizing s with
  | zero => exact .refl s
  | succ n ih => exact (ppuStep_keeps s).trans (ih _)

/-- The events of a dot do not move the position. -/
theorem dotEvents_position (s : State) : (dotEvents s).ppu.scanline = s.ppu.scanline ∧
    (dotEvents s).ppu.cycle = s.ppu.cycle ∧ (dotEvents s).ppu.frame = s.ppu.frame := by
  unfold dotEvents
  split
  · exact ⟨rfl, rfl, rfl⟩
  split
  · unfold copyScroll
    split <;> exact ⟨rfl, rfl, rfl⟩
  split
  · exact ⟨rfl, rfl, rfl⟩
  split <;> exact ⟨rfl, rfl, rfl⟩

/-- One dot adds one to the number of dots, a legal position goes to a legal one. -/
theorem ppuStep_position (s : State) : dotNumber (ppuStep s).ppu = dotNumber s.ppu + 1 ∧
    (legalPosition s.ppu = true → legalPosition (ppuStep s).ppu = true) := by
  obtain ⟨c, l, h, hcl⟩ := advanceDot_cases s
  obtain ⟨e1, e2, e3⟩ := dotEvents_position (advanceDot s)
  have f1 : (advanceDot s).ppu.scanline = l := by rw [h]
  have f2 : (advanceDot s).ppu.cycle = c := by rw [h]
  have f3 : (advanceDot s).ppu.frame = s.ppu.frame := by rw [h]
  rw [f1] at e1
  rw [f2] at e2
  rw [f3] at e3
  unfold ppuStep endFrame
  split
  · rename_i hp
    rw [e1, e2] at hp
    refine ⟨?_, fun _ => rfl⟩
    simp only [dotNumber]
    rw [e3]
    push_cast
    omega
  · rename_i hp
    rw [e1, e2] at hp
    simp only [dotNumber, legalPosition, e1, e2, e3]
    refine ⟨by omega, fun hl => ?_⟩
    simp only [Bool.or_eq_true, Bool.and_eq_true, beq_iff_eq, decide_eq_true_eq, Bool.not_eq_true',
      Bool.and_eq_false_iff, beq_eq_false_iff_ne] at hl ⊢
    omega

theorem ppuSteps_position (n : Nat) (s : State) : dotNumber (ppuSteps n s).ppu = dotNumber s.ppu + n ∧
    (legalPosition s.ppu = true → legalPosition (ppuSteps n s).ppu = true) := by
  induction n generalizing s with
  | zero => exact ⟨by simp [ppuSteps], id⟩
  | succ n ih =>
    obtain ⟨h1, h2⟩ := ih (ppuStep s)
    obtain ⟨k1, k2⟩ := ppuStep_position s
    refine ⟨?_, fun x => h2 (k2 x)⟩
    simp only [ppuSteps]
    rw [h1, k1]
    push_cast
    omega

/-! The ranges of what a line is composed from. -/

theorem patternValue_lt (s : State) (pa b : Nat) : patternValue s pa b < 4 := by
  have h := Bool.toNat_lt ((ppuRead (pa + 8) s).getLsbD b)
  have k := Bool.toNat_lt ((ppuRead pa s).getLsbD b)
  simp only [patternValue, bitNat]
  omega

theorem bgPixel_value_lt (s : State) (px : Nat) : (bgPixel s px).value < 4 := by
  unfold bgPixel
  split
  · exact Nat.zero_lt_succ 3
  · split
    · exact Nat.zero_lt_succ 3
    · exact patternValue_lt _ _ _

theorem bgPixel_palette_lt (s : State) (px : Nat) : (bgPixel s px).palette < 4 := by
  have h : (bgUnclipped s px).palette < 4 := Nat.lt_succ_of_le Nat.and_le_right
  unfold bgPixel
  split
  · exact Nat.zero_lt_succ 3
  · split <;> exact h

/-- A sprite that shows something at a pixel is opaque there, in one of three values. -/
theorem spriteAt_range {s : State} {line px i val : Nat} (h : spriteAt s line px i = some val) : val ≠ 0 ∧ val < 4 := by
  simp only [spriteAt] at h
  split at h
  · split at h
    · cases h
    · split at h
      · cases h
      · cases h
        exact ⟨by assumption, patternValue_lt _ _ _⟩
  · cases h

/-- The owner of a pixel shows its value there. -/
theorem spriteAt_of_ownerAt {s : State} {line px i val : Nat} (h : ownerAt s line px = some (i, val)) :
    i ∈ selectedSprites s line ∧ spriteAt s line px i = some val := by
  simp only [ownerAt] at h
  split at h
  · obtain ⟨j, hj, h⟩ := List.exists_of_findSome?_eq_some h
    rw [Option.map_eq_some_iff] at h
    obtain ⟨v, hv, h⟩ := h
    cases h
    exact ⟨hj, hv⟩
  · cases h

end Sys2Proof.Machine
end

