-- ==== Sys2Proof/Laws/Step.lean ====
section
/-! SUPPORT. The parts of the system step, each said once: the environment's batch, the interrupt check, the fetch, the step as
a whole. -/

namespace Sys2Proof.Machine

/-! The table. -/

/-- Base cycle counts lie in 2 to 8 (R126). -/
theorem row_cycles : ∀ o : Byte, (opcodeRow o).mapped = true → 2 ≤ (opcodeRow o).cycles ∧ (opcodeRow o).cycles ≤ 8 := by
  have h : ∀ o : Fin 256, (opcodeRow ⟨o⟩).mapped = true → 2 ≤ (opcodeRow ⟨o⟩).cycles ∧ (opcodeRow ⟨o⟩).cycles ≤ 8 := by
    decide +kernel
  exact fun o => h o.toFin

/-- The rows that are no instruction (R127). -/
theorem row_unmapped : ∀ o : Byte, (opcodeRow o).mapped = false →
    (opcodeRow o).build 0 0 = .unmapped o ∧ o ∈ unmappedBytes := by
  have h : ∀ o : Fin 256, (opcodeRow ⟨o⟩).mapped = false →
      (opcodeRow ⟨o⟩).build 0 0 = .unmapped ⟨o⟩ ∧ (⟨o⟩ : Byte) ∈ unmappedBytes := by
    decide +kernel
  exact fun o => h o.toFin

/-! The environment's batch. -/

/-- All that the environment's events can change (R361, R364, R365). -/
structure InputKeeps (s t : State) : Prop where
  cpu  : t.cpu = { s.cpu with irqPending := t.cpu.irqPending }
  pads : t.pads = { s.pads with buttons1 := t.pads.buttons1, buttons2 := t.pads.buttons2 }
  rest : t = { s with cpu := t.cpu, pads := t.pads, inputs := t.inputs, out := t.out }

theorem InputKeeps.trans {s t u : State} (h : InputKeeps s t) (k : InputKeeps t u) : InputKeeps s u where
  cpu := by rw [k.cpu, h.cpu]
  pads := by rw [k.pads, h.pads]
  rest := by rw [k.rest, h.rest]

theorem applyInput_keeps (s : State) (e : Input) : InputKeeps s (applyInput s e) := by
  unfold applyInput
  split <;> exact ⟨rfl, rfl, rfl⟩

theorem applyInput_out (s : State) (e : Input) : (applyInput s e).out = s.out := by
  unfold applyInput
  split <;> rfl

theorem applyInputs_fold (l : List Input) (s : State) :
    InputKeeps s (l.foldl applyInput s) ∧ (l.foldl applyInput s).out = s.out := by
  induction l generalizing s with
  | nil => exact ⟨⟨rfl, rfl, rfl⟩, rfl⟩
  | cons e l ih =>
    exact ⟨(applyInput_keeps s e).trans (ih _).1, (ih _).2.trans (applyInput_out s e)⟩

theorem startStep_keeps (s : State) : InputKeeps s (startStep s) ∧ (startStep s).out = [] := by
  unfold startStep applyInputs
  split
  · exact ⟨⟨rfl, rfl, rfl⟩, rfl⟩
  · rename_i batch rest h
    obtain ⟨h1, h2⟩ := applyInputs_fold batch { { s with out := [] } with inputs := rest }
    exact ⟨(InputKeeps.mk rfl rfl rfl : InputKeeps s { { s with out := [] } with inputs := rest }).trans h1, h2⟩

/-! The interrupt check. -/

theorem enterNmi_keeps (s : State) : Keeps s (enterNmi s) :=
  (enterHandler_keeps _ _ _ s).trans (.ofCpu rfl rfl id id id)

theorem enterIrq_keeps (s : State) : Keeps s (enterIrq s) :=
  (enterHandler_keeps _ _ _ s).trans (.ofCpu rfl rfl (fun h => nomatch h) id id)

/-- What the interrupt check can do: what an interrupt entry can do, and set the entry's cycles. -/
theorem pollInterrupts_keeps (s : State) : ∃ t, Keeps s t ∧ ∃ n, pollInterrupts s = { t with c0 := n } ∧ (n = 0 ∨ n = 7) := by
  unfold pollInterrupts
  split
  · exact ⟨_, enterNmi_keeps s, 7, rfl, .inr rfl⟩
  split
  · exact ⟨_, enterIrq_keeps s, 7, rfl, .inr rfl⟩
  · exact ⟨s, .refl s, 0, rfl, .inl rfl⟩

/-! The fetch. -/

theorem fetch_keeps (s : State) : Keeps s (fetch s).state := by
  simp only [fetch]
  have h1 := (cpuRead_keeps s.cpu.pc s).keeps
  split
  · refine .trans ?_ (setPc_keeps _ _)
    split <;> split
    · exact (h1.trans (cpuRead_keeps _ _).keeps).trans (cpuRead_keeps _ _).keeps
    · exact h1.trans (cpuRead_keeps _ _).keeps
    · exact h1.trans (cpuRead_keeps _ _).keeps
    · exact h1
  · exact h1

/-- What a fetch gives: an instruction of the table with its row's cycles, or an unmapped byte. -/
theorem fetch_cases (s : State) :
    (∃ o a b, (opcodeRow o).mapped = true ∧ (fetch s).instr = (opcodeRow o).build a b ∧
      (fetch s).cycles = (opcodeRow o).cycles) ∨
    (∃ o, o ∈ unmappedBytes ∧ (fetch s).instr = .unmapped o) := by
  simp only [fetch]
  split
  · rename_i h
    exact .inl ⟨_, _, _, h, rfl, rfl⟩
  · rename_i h
    obtain ⟨h1, h2⟩ := row_unmapped _ (by simpa using h)
    exact .inr ⟨_, h2, h1⟩

/-- Fetching an instruction whose bytes are held where `PC` points (R122). -/
theorem fetch_held {s : State} {o a b : Byte} (hm : (opcodeRow o).mapped = true) (h0 : s.held s.cpu.pc = some o)
    (h1 : 2 ≤ (opcodeRow o).length → s.held (s.cpu.pc + 1) = some a)
    (h2 : (opcodeRow o).length = 3 → s.held (s.cpu.pc + 2) = some b) :
    fetch s = ⟨(opcodeRow o).build (if 2 ≤ (opcodeRow o).length then a else 0)
        (if (opcodeRow o).length = 3 then b else 0), (opcodeRow o).cycles,
      s.setPc (s.cpu.pc + BitVec.ofNat 16 (opcodeRow o).length)⟩ := by
  simp only [fetch, cpuRead_held h0, hm, if_true]
  by_cases k1 : 2 ≤ (opcodeRow o).length
  · simp only [k1, if_true, cpuRead_held (h1 k1)]
    by_cases k2 : (opcodeRow o).length = 3
    · simp only [k2, if_true, cpuRead_held (h2 k2)]
    · simp only [k2, if_false]
  · have k2 : (opcodeRow o).length ≠ 3 := by omega
    simp only [k1, k2, if_false]

/-! The step. -/

/-- A step that goes on: the parts it consists of. -/
theorem step_next {s t : State} (h : step s = .next t) :
    ∃ p f u, p = pollInterrupts (startStep s) ∧ f = fetch p ∧ exec f.instr (startInstr f.cycles f.state) = .next u ∧
      t = catchUp u := by
  unfold step execute at h
  cases he : exec (fetch (pollInterrupts (startStep s))).instr
      (startInstr (fetch (pollInterrupts (startStep s))).cycles (fetch (pollInterrupts (startStep s))).state) with
  | next u =>
    simp only [he, mapNext] at h
    injection h with h
    exact ⟨_, _, u, rfl, rfl, he, h.symm⟩
  | fault r => simp [he, mapNext] at h
  | refused r => simp [he, mapNext] at h

/-- All that a step which goes on has done: the environment's batch (`s1`), the interrupt check (`s2`, `c0` from it), the fetch
and the instruction (`u`), the counters and ticks (`u1`), the dots. -/
theorem step_parts {s t : State} (h : step s = .next t) :
    ∃ s1 s2 s3 u : State, InputKeeps s s1 ∧ s1.out = [] ∧ Keeps s1 s2 ∧
      (∃ n, (n = 0 ∨ n = 7) ∧ s3.c0 = n ∧ ∃ c, 2 ≤ c ∧ c ≤ 8 ∧ s3.base = c) ∧ s3.dma = 0 ∧
      Keeps s2 { s3 with c0 := s2.c0, base := s2.base, extra := s3.extra, dma := s2.dma } ∧ Keeps s3 u ∧
      u.extra ≤ 2 ∧ t = catchUp u := by
  obtain ⟨p, f, u, hp, hf, hu, ht⟩ := step_next h
  obtain ⟨hi, ho⟩ := startStep_keeps s
  obtain ⟨q, hq, n, hn, hn'⟩ := pollInterrupts_keeps (startStep s)
  have hfk := fetch_keeps p
  have hex := exec_allowed f.instr (startInstr f.cycles f.state)
  have hcyc : 2 ≤ f.cycles ∧ f.cycles ≤ 8 := by
    rcases fetch_cases p with ⟨o, a, b, hm, hi', hc⟩ | ⟨o, _, hi'⟩
    · rw [hf, hc]
      exact row_cycles o hm
    · rw [hf, hi'] at hu
      exact absurd hu (by simp [exec, execUnmapped])
  have hku : Keeps (startInstr f.cycles f.state) u ∧ u.extra ≤ 2 := by
    rcases hex with hex | ⟨o, hex⟩
    · rw [hu] at hex
      cases hex with
      | next _ h1 h2 => exact ⟨h1, h2⟩
    · rw [hex] at hu
      exact absurd hu (by simp [exec, execUnmapped])
  refine ⟨startStep s, q, startInstr f.cycles f.state, u, hi, ho, hq, ⟨n, hn', ?_, f.cycles, hcyc.1, hcyc.2, rfl⟩, rfl, ?_,
    hku.1, hku.2, ht⟩
  · change f.state.c0 = n
    rw [hf, hfk.c0, hp, hn]
  · have hqp : Keeps q { p with c0 := q.c0 } := by
      rw [hp, hn]
      exact .refl q
    refine hqp.trans ?_
    rw [hf]
    constructor
    case dma => exact .inl (by rw [hp, hn])
    case c0 => rfl
    case base => rw [hp, hn]
    all_goals first | exact hfk.cyc | exact hfk.irq | exact hfk.unused | exact hfk.brk | exact hfk.status |
      exact hfk.scanline | exact hfk.cycle | exact hfk.frame | exact hfk.fb | exact hfk.cart | exact hfk.chr |
      exact hfk.wram | exact hfk.inputs | exact hfk.out | exact hfk.ramWf | exact hfk.wramWf | exact hfk.chrWf |
      exact hfk.ntWf | exact hfk.palWf | exact hfk.oamWf

end Sys2Proof.Machine
end

