-- ==== Sys2Proof/Tests/Slice0.lean ====
section
/-! SUPPORT. Tests: the well-formedness check refuses what it should, words written out from the spec's encodings decode,
single steps give what spec/95_test_vectors.md says, and for every statement with hypotheses a state and operands that meet
them. -/

namespace Sys2Proof.Tests

open Sys2Proof.Machine

/-! The well-formedness check: one ill-formed term for each list of operand forms it goes by. -/

theorem test_wf_no_zero_page_y : (Instr.lda (.mem (.zeroPageY 0x10))).wellFormed = false := by decide
theorem test_wf_ldx_no_absolute_x : (Instr.ldx (.mem (.absoluteX 0x00 0x02))).wellFormed = false := by decide
theorem test_wf_ldy_no_absolute_y : (Instr.ldy (.mem (.absoluteY 0x00 0x02))).wellFormed = false := by decide
theorem test_wf_stx_no_zero_page_x : (Instr.stx (.zeroPageX 0x10)).wellFormed = false := by decide
theorem test_wf_sty_no_zero_page_y : (Instr.sty (.zeroPageY 0x10)).wellFormed = false := by decide
theorem test_wf_cpx_not_indexed : (Instr.cpx (.mem (.zeroPageX 0x10))).wellFormed = false := by decide
theorem test_wf_bit_not_indirect : (Instr.bit (.indirectY 0x10)).wellFormed = false := by decide
theorem test_wf_inc_no_absolute_y : (Instr.inc (.absoluteY 0x00 0x02)).wellFormed = false := by decide
theorem test_wf_asl_not_indirect : (Instr.asl (.mem (.indirectX 0x10))).wellFormed = false := by decide
theorem test_wf_slo_no_zero_page_y : (Instr.slo (.zeroPageY 0x10)).wellFormed = false := by decide
theorem test_wf_sax_no_absolute_y : (Instr.sax (.absoluteY 0x00 0x02)).wellFormed = false := by decide
theorem test_wf_lax_no_zero_page_x : (Instr.lax (.zeroPageX 0x10)).wellFormed = false := by decide
theorem test_wf_nop_byte_of_another_form : (Instr.nopUndoc 0x04 .implied).wellFormed = false := by decide
theorem test_wf_nop_documented_byte : (Instr.nopUndoc 0xEA .implied).wellFormed = false := by decide
theorem test_wf_unmapped_mapped_byte : (Instr.unmapped 0x00).wellFormed = false := by decide

/-! Decoding: words written out from the Encoding lines of the rules, at least one for every constructor. -/

def decodesTo (bs : List Byte) (i : Instr) : Bool :=
  match decode bs with
  | .ok (j, []) => j == i
  | _ => false

/-- R160 to R165. -/
theorem test_decode_loads_stores : [
    ([0xA9, 0x12], .lda (.immediate 0x12)), ([0xBD, 0x34, 0x12], .lda (.mem (.absoluteX 0x34 0x12))),
    ([0xB6, 0x12], .ldx (.mem (.zeroPageY 0x12))), ([0xBE, 0x34, 0x12], .ldx (.mem (.absoluteY 0x34 0x12))),
    ([0xA0, 0x12], .ldy (.immediate 0x12)), ([0xB4, 0x12], .ldy (.mem (.zeroPageX 0x12))),
    ([0x81, 0x12], .sta (.indirectX 0x12)), ([0x91, 0x12], .sta (.indirectY 0x12)),
    ([0x96, 0x12], .stx (.zeroPageY 0x12)), ([0x8C, 0x34, 0x12], .sty (.absolute 0x34 0x12))].all
    (fun e => decodesTo e.1 e.2) = true := by decide

/-- R166 to R171, R192 to R195. -/
theorem test_decode_registers : [
    ([0xAA], .tax), ([0xA8], .tay), ([0x8A], .txa), ([0x98], .tya), ([0xBA], .tsx), ([0x9A], .txs), ([0xE8], .inx),
    ([0xC8], .iny), ([0xCA], .dex), ([0x88], .dey)].all (fun e => decodesTo e.1 e.2) = true := by decide

/-- R181 to R191. -/
theorem test_decode_arithmetic : [
    ([0x7D, 0x34, 0x12], .adc (.mem (.absoluteX 0x34 0x12))), ([0xF1, 0x12], .sbc (.mem (.indirectY 0x12))),
    ([0x29, 0x12], .and (.immediate 0x12)), ([0x15, 0x12], .ora (.mem (.zeroPageX 0x12))),
    ([0x59, 0x34, 0x12], .eor (.mem (.absoluteY 0x34 0x12))), ([0xC1, 0x12], .cmp (.mem (.indirectX 0x12))),
    ([0xE0, 0x12], .cpx (.immediate 0x12)), ([0xC4, 0x12], .cpy (.mem (.zeroPage 0x12))),
    ([0x2C, 0x34, 0x12], .bit (.absolute 0x34 0x12)), ([0xF6, 0x12], .inc (.zeroPageX 0x12)),
    ([0xDE, 0x34, 0x12], .dec (.absoluteX 0x34 0x12))].all (fun e => decodesTo e.1 e.2) = true := by decide

/-- R200 to R203. -/
theorem test_decode_shifts : [
    ([0x0A], .asl .accumulator), ([0x1E, 0x34, 0x12], .asl (.mem (.absoluteX 0x34 0x12))), ([0x4A], .lsr .accumulator),
    ([0x46, 0x12], .lsr (.mem (.zeroPage 0x12))), ([0x2A], .rol .accumulator), ([0x36, 0x12], .rol (.mem (.zeroPageX 0x12))),
    ([0x6A], .ror .accumulator), ([0x6E, 0x34, 0x12], .ror (.mem (.absolute 0x34 0x12)))].all
    (fun e => decodesTo e.1 e.2) = true := by decide

/-- R210 to R221. -/
theorem test_decode_control : [
    ([0x4C, 0x34, 0x12], .jmp (.absoluteJmp 0x34 0x12)), ([0x6C, 0x34, 0x12], .jmp (.indirect 0x34 0x12)),
    ([0x20, 0x34, 0x12], .jsr 0x34 0x12), ([0x60], .rts), ([0x90, 0xFE], .bcc 0xFE), ([0xB0, 0xFE], .bcs 0xFE),
    ([0xF0, 0xFE], .beq 0xFE), ([0xD0, 0xFE], .bne 0xFE), ([0x30, 0xFE], .bmi 0xFE), ([0x10, 0xFE], .bpl 0xFE),
    ([0x50, 0xFE], .bvc 0xFE), ([0x70, 0xFE], .bvs 0xFE)].all (fun e => decodesTo e.1 e.2) = true := by decide

/-- R230 to R243. -/
theorem test_decode_stack_flags_system : [
    ([0x48], .pha), ([0x68], .pla), ([0x08], .php), ([0x28], .plp), ([0x18], .clc), ([0x38], .sec), ([0x58], .cli),
    ([0x78], .sei), ([0xB8], .clv), ([0xD8], .cld), ([0xF8], .sed), ([0xEA], .nop), ([0x00], .brk), ([0x40], .rti)].all
    (fun e => decodesTo e.1 e.2) = true := by decide

/-- R251 to R261. -/
theorem test_decode_undocumented : [
    ([0x13, 0x12], .slo (.indirectY 0x12)), ([0x3B, 0x34, 0x12], .rla (.absoluteY 0x34 0x12)),
    ([0x43, 0x12], .sre (.indirectX 0x12)), ([0x77, 0x12], .rra (.zeroPageX 0x12)), ([0x97, 0x12], .sax (.zeroPageY 0x12)),
    ([0xB7, 0x12], .lax (.zeroPageY 0x12)), ([0xCF, 0x34, 0x12], .dcp (.absolute 0x34 0x12)), ([0xE7, 0x12], .isb (.zeroPage 0x12)),
    ([0x1A], .nopUndoc 0x1A .implied), ([0x89, 0x12], .nopUndoc 0x89 (.immediate 0x12)),
    ([0xD4, 0x12], .nopUndoc 0xD4 (.mem (.zeroPageX 0x12))), ([0xEB, 0x12], .sbcUndoc 0x12), ([0x9C], .unmapped 0x9C),
    ([0xBB], .unmapped 0xBB)].all (fun e => decodesTo e.1 e.2) = true := by decide

/-- An instruction cut short is rejected by name (R120, R129). -/
theorem test_decode_truncated : decode [0x4C, 0x34] = .error .truncated := by decide

/-- The opcode table's numbering: the first byte is the lowest (LDA $1234). -/
theorem test_decode_table_word : decodeTableWord 24 0x1234AD = some (.lda (.mem (.absolute 0x34 0x12))) := by decide

/-- An operand byte above `nbits` is zero. -/
theorem test_decode_table_word_short : decodeTableWord 8 0xFFAD = some (.lda (.mem (.absolute 0x00 0x00))) := by decide

/-! Single steps from the start state of spec/95_test_vectors.md Part 2 (`execute()`, R122). -/

/-- The registers, at the default values of Part 2. -/
structure Regs where
  a  : Byte := 0x00
  x  : Byte := 0x00
  y  : Byte := 0x00
  p  : Byte := 0x24
  sp : Byte := 0xFD
  pc : Word := 0x8000
  deriving DecidableEq, Repr

def poke : List (Nat × Byte) → State → State
  | [], s => s
  | e :: l, s => poke l (placeByte (BitVec.ofNat 16 e.1) e.2 s)

def pokeAt : Word → List Byte → State → State
  | _, [], s => s
  | a, b :: l, s => pokeAt (a + 1) l (placeByte a b s)

/-- The start state: registers, instruction bytes at `PC`, memory bytes by CPU address. -/
def start (r : Regs) (code : List Byte) (mem : List (Nat × Byte)) : State :=
  pokeAt r.pc code (poke mem { State.reset with cpu := {
    State.reset.cpu with a := r.a, x := r.x, y := r.y, p := r.p, sp := r.sp, pc := r.pc } })

/-- `execute()` ends with these registers, returns `n`, and leaves these RAM bytes. -/
def ends (s : State) (r : Regs) (n : Nat) (mem : List (Nat × Byte)) : Bool :=
  match execute s with
  | .next t => decide (Regs.mk t.cpu.a t.cpu.x t.cpu.y t.cpu.p t.cpu.sp t.cpu.pc = r) && t.cycles == n &&
      mem.all (fun e => Cells.read t.ram e.1 == e.2)
  | _ => false

/-- `execute()` raises this fault. -/
def stops (s : State) (f : Fault) : Bool :=
  match execute s with
  | .fault g => decide (g = f)
  | _ => false

/-- LS9: `LDA ($FF,X)`. -/
theorem test_lda_pointer_wraps_in_page_0 :
    ends (start { x := 0x00 } [0xA1, 0xFF] [(0x00FF, 0x34), (0x0000, 0x02), (0x0100, 0x07), (0x0234, 0xCD)])
      { a := 0xCD, p := 0xA4, pc := 0x8002 } 6 [] = true := by decide

/-- LS10: `LDA ($20),Y`. -/
theorem test_lda_page_crossing :
    ends (start { y := 0x10 } [0xB1, 0x20] [(0x0020, 0xF8), (0x0021, 0x02), (0x0308, 0x5A)])
      { a := 0x5A, y := 0x10, pc := 0x8002 } 6 [] = true := by decide

/-- LS14: `LDX $10,Y`. -/
theorem test_ldx_zero_page_y_wraps :
    ends (start { y := 0xF8 } [0xB6, 0x10] [(0x0008, 0x11)])
      { x := 0x11, y := 0xF8, pc := 0x8002 } 4 [] = true := by decide

/-- LS17: `LDY $0700,X`. -/
theorem test_ldy_absolute_x :
    ends (start { x := 0xFF } [0xBC, 0x00, 0x07] [(0x07FF, 0x01)])
      { x := 0xFF, y := 0x01, pc := 0x8003 } 4 [] = true := by decide

/-- LS19: `STA $06FF,X`. -/
theorem test_sta_absolute_x_pays_no_crossing :
    ends (start { a := 0x77, x := 0x01 } [0x9D, 0xFF, 0x06] [])
      { a := 0x77, x := 0x01, pc := 0x8003 } 5 [(0x0700, 0x77)] = true := by decide

/-- LS23: `STA $8000`. -/
theorem test_sta_rom_is_fatal :
    stops (start { a := 0x01 } [0x8D, 0x00, 0x80] []) (.romWrite 0x8000 0x1) = true := by decide

/-- LS24: `STX $10,Y`. -/
theorem test_stx_zero_page_y :
    ends (start { x := 0x12, y := 0x01 } [0x96, 0x10] [])
      { x := 0x12, y := 0x01, pc := 0x8002 } 4 [(0x0011, 0x12)] = true := by decide

/-- LS25: `STY $FF,X`. -/
theorem test_sty_zero_page_x_wraps :
    ends (start { x := 0x02, y := 0x13 } [0x94, 0xFF] [])
      { x := 0x02, y := 0x13, pc := 0x8002 } 4 [(0x0001, 0x13)] = true := by decide

/-- LS26: `TAX`. -/
theorem test_tax :
    ends (start { a := 0x80 } [0xAA] [])
      { a := 0x80, x := 0x80, p := 0xA4, pc := 0x8001 } 2 [] = true := by decide

/-- LS27: `TAY`. -/
theorem test_tay :
    ends (start { a := 0x00, y := 0x44 } [0xA8] [])
      { p := 0x26, pc := 0x8001 } 2 [] = true := by decide

/-- LS28: `TXA`. -/
theorem test_txa :
    ends (start { a := 0xFF, x := 0x7F } [0x8A] [])
      { a := 0x7F, x := 0x7F, pc := 0x8001 } 2 [] = true := by decide

/-- LS29: `TYA`. -/
theorem test_tya :
    ends (start { y := 0xFF } [0x98] [])
      { a := 0xFF, y := 0xFF, p := 0xA4, pc := 0x8001 } 2 [] = true := by decide

/-- LS30: `TSX`. -/
theorem test_tsx :
    ends (start { sp := 0xFD } [0xBA] [])
      { x := 0xFD, p := 0xA4, pc := 0x8001 } 2 [] = true := by decide

/-- LS31: `TXS`. -/
theorem test_txs_writes_no_flag :
    ends (start { x := 0x00, sp := 0xFD } [0x9A] [])
      { sp := 0x00, pc := 0x8001 } 2 [] = true := by decide

/-- AD4: `ADC #$80`. -/
theorem test_adc_carry_overflow_zero :
    ends (start { a := 0x80, p := 0x24 } [0x69, 0x80] [])
      { p := 0x67, pc := 0x8002 } 2 [] = true := by decide

/-- AD13: `ADC #$01`. -/
theorem test_adc_ignores_decimal_mode :
    ends (start { a := 0x09, p := 0x2C } [0x69, 0x01] [])
      { a := 0x0A, p := 0x2C, pc := 0x8002 } 2 [] = true := by decide

/-- SB7: `SBC #$B0`. -/
theorem test_sbc_overflow :
    ends (start { a := 0x50, p := 0x25 } [0xE9, 0xB0] [])
      { a := 0xA0, p := 0xE4, pc := 0x8002 } 2 [] = true := by decide

/-- SB13: `SBC #$01`. -/
theorem test_sbc_ignores_decimal_mode :
    ends (start { a := 0x10, p := 0x2D } [0xE9, 0x01] [])
      { a := 0x0F, p := 0x2D, pc := 0x8002 } 2 [] = true := by decide

/-- LG2: `AND $10`. -/
theorem test_and_keeps_c_v :
    ends (start { a := 0xFF, p := 0x65 } [0x25, 0x10] [(0x0010, 0x80)])
      { a := 0x80, p := 0xE5, pc := 0x8002 } 3 [] = true := by decide

/-- LG4: `ORA ($20),Y`. -/
theorem test_ora_page_crossing :
    ends (start { a := 0x01, y := 0x01 } [0x11, 0x20] [(0x0020, 0xFF), (0x0021, 0x02), (0x0300, 0x80)])
      { a := 0x81, y := 0x01, p := 0xA4, pc := 0x8002 } 6 [] = true := by decide

/-- LG6: `EOR $0700,Y`. -/
theorem test_eor :
    ends (start { a := 0xAA, y := 0x02 } [0x59, 0x00, 0x07] [(0x0702, 0xAA)])
      { y := 0x02, p := 0x26, pc := 0x8003 } 4 [] = true := by decide

/-- LG9: `CMP #$01`. -/
theorem test_cmp_writes_no_v :
    ends (start { a := 0x80, p := 0x64 } [0xC9, 0x01] [])
      { a := 0x80, p := 0x65, pc := 0x8002 } 2 [] = true := by decide

/-- LG11: `CPX $10`. -/
theorem test_cpx :
    ends (start { x := 0x40 } [0xE4, 0x10] [(0x0010, 0x41)])
      { x := 0x40, p := 0xA4, pc := 0x8002 } 3 [] = true := by decide

/-- LG12: `CPY #$00`. -/
theorem test_cpy :
    ends (start { y := 0x80 } [0xC0, 0x00] [])
      { y := 0x80, p := 0xA5, pc := 0x8002 } 2 [] = true := by decide

/-- LG14: `BIT $0300`. -/
theorem test_bit_copies_n_v :
    ends (start { a := 0xFF, p := 0xE4 } [0x2C, 0x00, 0x03] [(0x0300, 0x3F)])
      { a := 0xFF, pc := 0x8003 } 4 [] = true := by decide

/-- LG15: `INC $10`. -/
theorem test_inc_wraps_keeps_c :
    ends (start { p := 0x25 } [0xE6, 0x10] [(0x0010, 0xFF)])
      { p := 0x27, pc := 0x8002 } 5 [(0x0010, 0x00)] = true := by decide

/-- LG23: `INC $8000`. -/
theorem test_inc_rom_is_fatal :
    stops (start {} [0xEE, 0x00, 0x80] []) (.romWrite 0x8000 0xEF) = true := by decide

/-- LG17: `DEC $10,X`. -/
theorem test_dec_wraps :
    ends (start { x := 0x01 } [0xD6, 0x10] [(0x0011, 0x00)])
      { x := 0x01, p := 0xA4, pc := 0x8002 } 6 [(0x0011, 0xFF)] = true := by decide

/-- LG19: `INX`. -/
theorem test_inx_wraps :
    ends (start { x := 0xFF } [0xE8] [])
      { p := 0x26, pc := 0x8001 } 2 [] = true := by decide

/-- LG20: `INY`. -/
theorem test_iny :
    ends (start { y := 0x7F } [0xC8] [])
      { y := 0x80, p := 0xA4, pc := 0x8001 } 2 [] = true := by decide

/-- LG21: `DEX`. -/
theorem test_dex_wraps :
    ends (start { x := 0x00 } [0xCA] [])
      { x := 0xFF, p := 0xA4, pc := 0x8001 } 2 [] = true := by decide

/-- LG22: `DEY`. -/
theorem test_dey :
    ends (start { y := 0x01 } [0x88] [])
      { p := 0x26, pc := 0x8001 } 2 [] = true := by decide

/-- SH1: `ASL A`. -/
theorem test_asl_accumulator :
    ends (start { a := 0x81 } [0x0A] [])
      { a := 0x02, p := 0x25, pc := 0x8001 } 2 [] = true := by decide

/-- SH4: `LSR A`. -/
theorem test_lsr_clears_n :
    ends (start { a := 0x01, p := 0xA4 } [0x4A] [])
      { p := 0x27, pc := 0x8001 } 2 [] = true := by decide

/-- SH8: `ROL $10,X`. -/
theorem test_rol_memory :
    ends (start { x := 0x01, p := 0x24 } [0x36, 0x10] [(0x0011, 0xFF)])
      { x := 0x01, p := 0xA5, pc := 0x8002 } 6 [(0x0011, 0xFE)] = true := by decide

/-- SH11: `ROR $0300`. -/
theorem test_ror_memory :
    ends (start { p := 0x25 } [0x6E, 0x00, 0x03] [(0x0300, 0x02)])
      { p := 0xA4, pc := 0x8003 } 6 [(0x0300, 0x81)] = true := by decide

/-- CF1: `JMP $1234`. -/
theorem test_jmp_absolute :
    ends (start {} [0x4C, 0x34, 0x12] [])
      { pc := 0x1234 } 3 [] = true := by decide

/-- CF3: `JMP ($02FF)`. -/
theorem test_jmp_indirect_same_page :
    ends (start {} [0x6C, 0xFF, 0x02] [(0x02FF, 0x34), (0x0200, 0x12), (0x0300, 0x56)])
      { pc := 0x1234 } 5 [] = true := by decide

/-- CF5: `JSR $0000`. -/
theorem test_jsr_sp_wraps :
    ends (start { sp := 0x01, pc := 0x07FD } [0x20, 0x00, 0x00] [])
      { sp := 0xFF, pc := 0x0000 } 6 [(0x0100, 0xFF), (0x0101, 0x07)] = true := by decide

/-- CF7: `RTS`. -/
theorem test_rts_sp_wraps :
    ends (start { sp := 0xFF } [0x60] [(0x0100, 0xFF), (0x0101, 0xFF)])
      { sp := 0x01, pc := 0x0000 } 6 [] = true := by decide

/-- CF19: `BNE +1`. -/
theorem test_bne_crossing :
    ends (start { pc := 0x80FD } [0xD0, 0x01] [])
      { pc := 0x8100 } 4 [] = true := by decide

/-- CF20: `BNE +0`. -/
theorem test_bne_at_page_start :
    ends (start { pc := 0x80FE } [0xD0, 0x00] [])
      { pc := 0x8100 } 3 [] = true := by decide

/-- CF11: `BEQ -2`. -/
theorem test_beq_to_itself :
    ends (start { p := 0x26 } [0xF0, 0xFE] [])
      { p := 0x26, pc := 0x8000 } 3 [] = true := by decide

/-- CF13: `BCC +127`. -/
theorem test_bcc_crossing :
    ends (start { pc := 0x8080 } [0x90, 0x7F] [])
      { pc := 0x8101 } 4 [] = true := by decide

/-- CF14: `BCS +0`. -/
theorem test_bcs_offset_zero :
    ends (start { p := 0x25 } [0xB0, 0x00] [])
      { p := 0x25, pc := 0x8002 } 3 [] = true := by decide

/-- CF15: `BMI -128`. -/
theorem test_bmi_backwards :
    ends (start { p := 0xA4 } [0x30, 0x80] [])
      { p := 0xA4, pc := 0x7F82 } 4 [] = true := by decide

/-- CF16: `BPL +16`. -/
theorem test_bpl_not_taken :
    ends (start { p := 0xA4 } [0x10, 0x10] [])
      { p := 0xA4, pc := 0x8002 } 2 [] = true := by decide

/-- CF17: `BVC +2`. -/
theorem test_bvc :
    ends (start { p := 0x24 } [0x50, 0x02] [])
      { pc := 0x8004 } 3 [] = true := by decide

/-- CF18: `BVS +2`. -/
theorem test_bvs :
    ends (start { p := 0x64 } [0x70, 0x02] [])
      { p := 0x64, pc := 0x8004 } 3 [] = true := by decide

/-- ST2: `PHA`. -/
theorem test_pha_sp_wraps :
    ends (start { a := 0x42, sp := 0x00 } [0x48] [])
      { a := 0x42, sp := 0xFF, pc := 0x8001 } 3 [(0x0100, 0x42)] = true := by decide

/-- ST4: `PLA`. -/
theorem test_pla_sp_wraps :
    ends (start { a := 0x11, sp := 0xFF } [0x68] [(0x0100, 0x00)])
      { p := 0x26, sp := 0x00, pc := 0x8001 } 4 [] = true := by decide

/-- ST6: `PHP`. -/
theorem test_php :
    ends (start { p := 0xE7 } [0x08] [])
      { p := 0xE7, sp := 0xFC, pc := 0x8001 } 3 [(0x01FD, 0xF7)] = true := by decide

/-- ST7: `PLP`. -/
theorem test_plp_drops_bit_4 :
    ends (start { sp := 0xFC } [0x28] [(0x01FD, 0xFF)])
      { p := 0xEF, pc := 0x8001 } 4 [] = true := by decide

/-- ST9: `CLC`. -/
theorem test_clc :
    ends (start { p := 0xE7 } [0x18] [])
      { p := 0xE6, pc := 0x8001 } 2 [] = true := by decide

/-- ST10: `SEC`. -/
theorem test_sec :
    ends (start { p := 0x24 } [0x38] [])
      { p := 0x25, pc := 0x8001 } 2 [] = true := by decide

/-- ST11: `CLI`. -/
theorem test_cli :
    ends (start { p := 0x24 } [0x58] [])
      { p := 0x20, pc := 0x8001 } 2 [] = true := by decide

/-- ST12: `SEI`. -/
theorem test_sei :
    ends (start { p := 0x20 } [0x78] [])
      { pc := 0x8001 } 2 [] = true := by decide

/-- ST13: `CLV`. -/
theorem test_clv :
    ends (start { p := 0x64 } [0xB8] [])
      { pc := 0x8001 } 2 [] = true := by decide

/-- ST14: `CLD`. -/
theorem test_cld :
    ends (start { p := 0x2C } [0xD8] [])
      { pc := 0x8001 } 2 [] = true := by decide

/-- ST15: `SED`. -/
theorem test_sed :
    ends (start { p := 0x24 } [0xF8] [])
      { p := 0x2C, pc := 0x8001 } 2 [] = true := by decide

/-- ST16: `NOP`. -/
theorem test_nop :
    ends (start {} [0xEA] [])
      { pc := 0x8001 } 2 [] = true := by decide

/-- ST18: `BRK`. -/
theorem test_brk_sp_wraps :
    ends (start { sp := 0x01, p := 0x20 } [0x00, 0xFF] [(0xFFFE, 0x34), (0xFFFF, 0x12)])
      { sp := 0xFE, pc := 0x1234 } 7 [(0x0100, 0x02), (0x0101, 0x80), (0x01FF, 0x30)] = true := by decide

/-- ST19: `RTI`. -/
theorem test_rti :
    ends (start { sp := 0xFA } [0x40] [(0x01FB, 0xFF), (0x01FC, 0x02), (0x01FD, 0x80)])
      { p := 0xEF, pc := 0x8002 } 6 [] = true := by decide

/-- UN2: `*SLO ($20),Y`. -/
theorem test_slo_pays_no_crossing :
    ends (start { a := 0x00, y := 0x01 } [0x13, 0x20] [(0x0020, 0xFF), (0x0021, 0x02), (0x0300, 0x40)])
      { a := 0x80, y := 0x01, p := 0xA4, pc := 0x8002 } 8 [(0x0300, 0x80)] = true := by decide

/-- UN3: `*RLA $10`. -/
theorem test_rla :
    ends (start { a := 0xFF, p := 0x25 } [0x27, 0x10] [(0x0010, 0x40)])
      { a := 0x81, p := 0xA4, pc := 0x8002 } 5 [(0x0010, 0x81)] = true := by decide

/-- UN4: `*SRE $10`. -/
theorem test_sre :
    ends (start { a := 0x01 } [0x47, 0x10] [(0x0010, 0x03)])
      { p := 0x27, pc := 0x8002 } 5 [(0x0010, 0x01)] = true := by decide

/-- UN6: `*RRA $10`. -/
theorem test_rra_adds_with_the_new_carry :
    ends (start { a := 0x7F, p := 0x25 } [0x67, 0x10] [(0x0010, 0x00)])
      { a := 0xFF, p := 0xA4, pc := 0x8002 } 5 [(0x0010, 0x80)] = true := by decide

/-- UN8: `*SAX $20,Y`. -/
theorem test_sax :
    ends (start { a := 0xFF, x := 0x0F, y := 0x01 } [0x97, 0x20] [])
      { a := 0xFF, x := 0x0F, y := 0x01, pc := 0x8002 } 4 [(0x0021, 0x0F)] = true := by decide

/-- UN10: `*LAX $06FF,Y`. -/
theorem test_lax :
    ends (start { a := 0x01, x := 0x02, y := 0x01 } [0xBF, 0xFF, 0x06] [(0x0700, 0x00)])
      { y := 0x01, p := 0x26, pc := 0x8003 } 5 [] = true := by decide

/-- UN12: `*DCP $10`. -/
theorem test_dcp :
    ends (start { a := 0x00 } [0xC7, 0x10] [(0x0010, 0x00)])
      { pc := 0x8002 } 5 [(0x0010, 0xFF)] = true := by decide

/-- UN13: `*ISB $10`. -/
theorem test_isb :
    ends (start { a := 0x10, p := 0x25 } [0xE7, 0x10] [(0x0010, 0x0F)])
      { p := 0x27, pc := 0x8002 } 5 [(0x0010, 0x10)] = true := by decide

/-- UN20: `*NOP $00FF,X`. -/
theorem test_nop_page_crossing :
    ends (start { x := 0x01 } [0x1C, 0xFF, 0x00] [])
      { x := 0x01, pc := 0x8003 } 5 [] = true := by decide

/-- UN22: `*SBC #$B0`. -/
theorem test_sbc_second_encoding :
    ends (start { a := 0x50, p := 0x25 } [0xEB, 0xB0] [])
      { a := 0xA0, p := 0xE4, pc := 0x8002 } 2 [] = true := by decide

/-- UN25: `(unmapped)`. -/
theorem test_unmapped_byte_is_fatal :
    stops (start { y := 0x55 } [0x9C, 0x00, 0x03] []) (.unknownOpcode 0x9C 0x8000) = true := by decide

/-! The step, interrupts, placing a program. -/

/-- P1, step 5: the step adds the cycles, the dots and the APU ticks (`ADC $00` at cycle 9, R360). -/
theorem test_step_counts_time :
    (match step (start { a := 0x00, x := 0x0A } [0x65, 0x00] [(0x00, 0x0A)]) with
      | .next t => t.cpu.a == 0x0A && t.cpu.cyc == 3 && t.ppu.cycle == 9 && t.out == [.apuTick, .apuTick, .apuTick]
      | _ => false) = true := by decide

/-- IN3: an IRQ with `I` clear enters its handler, whose first instruction runs in the same call. -/
theorem test_irq_entry :
    (match execute { start { p := 0x20, pc := 0x8001 } [] [(0xFFFE, 0x00), (0xFFFF, 0xA0), (0xA000, 0xE6), (0xA001, 0x11)] with
        cpu := { a := 0, x := 0, y := 0, sp := 0xFD, pc := 0x8001, p := 0x20, nmiPending := false, irqPending := true, cyc := 0 } } with
      | .next t => t.ram == [(0x011, 0x01), (0x1FB, 0x20), (0x1FC, 0x01), (0x1FD, 0x80)] && t.cpu.p == 0x24 &&
          t.cpu.pc == 0xA002 && t.cpu.irqPending == false && t.cycles == 12
      | _ => false) = true := by decide

/-- The placed instruction is the next one to run (log 5). -/
theorem test_placed_instruction_runs :
    (match step (State.reset.withFetchWord 16 0x80A9) with
      | .next t => t.cpu.a == 0x80 && t.cpu.p == 0xA4 && t.cpu.pc == 0x0002
      | _ => false) = true := by decide

/-! The buses, the PPU registers, the PPU (spec/95_test_vectors.md V-BU, V-PR, V-RC, V-RV). -/

def wr (a : Word) (d : Byte) (s : State) : State :=
  match cpuWrite a d s with
  | .next t => t
  | _ => s

/-- Nametable, palette and OAM bytes put in place. -/
def pokeNt (i : Nat) (b : Byte) (s : State) : State := { s with ppu := { s.ppu with nt := Cells.write s.ppu.nt i b } }
def pokeOam (l : List (Nat × Byte)) (s : State) : State :=
  { s with ppu := { s.ppu with oam := l.foldl (fun m e => Cells.write m e.1 e.2) s.ppu.oam } }

/-- The PPU at a position, with PPUCTRL, PPUMASK, PPUSTATUS, `v`, `t`. -/
def ppuAt (scanline cycle : Int) (ctrl mask status : Byte) (v t : BitVec 15) (s : State) : State :=
  { s with ppu := { s.ppu with
      scanline := scanline, cycle := cycle, ctrl := ctrl, mask := mask, status := status, v := v, t := t } }

def idle : State := start {} [] []

/-- BU1. -/
theorem test_ram_mirror : (cpuRead 0x1923 (start {} [] [(0x0123, 0x77)])).1 = 0x77 := by decide

/-- BU3. -/
theorem test_one_bank_twice :
    let s := { idle with cart := { idle.cart with prgBanks := .one, prg := [(0x0000, 0xAB)] } }
    (cpuRead 0x8000 s).1 = 0xAB ∧ (cpuRead 0xC000 s).1 = 0xAB := by decide

/-- PR2: the two scroll writes. -/
theorem test_scroll :
    (wr 0x2005 0x5E (wr 0x2005 0x7D idle)).ppu.t = 0x616F ∧ (wr 0x2005 0x7D idle).ppu.x = 5 := by decide

/-- PR3: the first PPUADDR write clears bit 14. -/
theorem test_addr : (wr 0x2006 0x08 (wr 0x2006 0xFF (ppuAt 0 0 0 0 0 0 0x7FFF idle))).ppu.v = 0x3F08 := by decide

/-- PR9: the palette mirror, six bits stored, and the nametable byte under the palette goes to the buffer. -/
theorem test_palette_read :
    let s := wr 0x2006 0x00 (wr 0x2006 0x3F (wr 0x2007 0xEC (wr 0x2006 0x10 (wr 0x2006 0x3F (pokeNt 0x700 0x77 idle)))))
    (cpuRead 0x2007 s).1 = 0x2C ∧ (cpuRead 0x2007 s).2.ppu.readbuf = 0x77 := by decide

/-- PR13, Vertical: slot 2 is table 0. -/
theorem test_vertical_mirroring :
    Cells.read (ppuWrite 0x2800 0x12 { idle with cart := { idle.cart with mirroring := .vertical } }).ppu.nt 0 = 0x12 := by decide

/-- RC1: a PPUSTATUS read at (241, 0) suppresses flag and NMI. -/
theorem test_vblank_race :
    let s := ppuStep (cpuRead 0x2002 (ppuAt 241 0 0x80 0 0 0 0 idle)).2
    s.ppu.status = 0x00 ∧ s.cpu.nmiPending = false ∧ s.ppu.vblSuppress = false := by decide

/-- RC6: the end of the frame. -/
theorem test_end_of_frame :
    let s := ppuStep (ppuAt 260 339 0 0 0 0 0 idle)
    s.ppu.scanline = -1 ∧ s.ppu.cycle = -1 ∧ s.ppu.frame = 1 := by decide

/-- V-IY: coarse Y 29 goes to 0 and toggles bit 11; the horizontal part comes from `t`. -/
theorem test_increment_y : copyHorizontal (incrementY 0x73BF) 0x0405 = 0x0C05 := by decide

/-- Tile 1 solid (value 1) everywhere in the background, tile 2 a diagonal (the scene of RV7 to RV16, as far as needed). -/
def scene : State :=
  { ppuAt 0 0 0x00 0x1E 0x00 0 0 idle with cart := { idle.cart with chr := [
      (0x000, 0xFF), (0x020, 0x80), (0x021, 0x40), (0x028, 0x80), (0x029, 0x40)] } }

/-- RV8: the diagonal's first row on the line after Y, and the sprite 0 hit. -/
theorem test_sprite_row :
    let s := pokeOam [(0, 0x0A), (1, 0x02), (2, 0x00), (3, 0x14)] scene
    colourIndex s 11 20 = 0x13 ∧ colourIndex s 11 21 = 0x01 ∧ spriteZeroHit s 11 = true := by decide

/-- RV15: a sprite behind the background hides a later one in front. -/
theorem test_sprite_priority :
    let s := pokeOam [(0, 0x0A), (1, 0x02), (2, 0x20), (3, 0x14), (4, 0x0A), (5, 0x02), (6, 0x01), (7, 0x14)] scene
    colourIndex s 11 20 = 0x01 := by decide

/-- CT1, the first two reads: A held, B not. -/
theorem test_controller :
    let s := wr 0x4016 0x00 (wr 0x4016 0x01 { idle with pads := { idle.pads with buttons1 := 0x09 } })
    padBit .one s.pads = true ∧ padBit .one (padShift .one s.pads) = false := by decide

/-! Witnesses: for each statement with hypotheses, a concrete state and operands that meet them, clause by clause, at boundary
values. -/

theorem of_isNext {r : Result} (h : (match r with | .next _ => true | _ => false) = true) : ∃ t, r = .next t := by
  cases r with
  | next t => exact ⟨t, rfl⟩
  | fault f => cases h
  | refused f => cases h

theorem witness_DecodeOfEncode : (Instr.isb (.absoluteX 0xFF 0xFF)).wellFormed = true := by decide

theorem witness_EncodeOfDecode : decode [0x02, 0xFF] = .ok (.unmapped 0x02, [0xFF]) := by decide

theorem witness_TableAgreesWithRules :
    Instr.brk.wellFormed = true ∧ Instr.brk.opcode = some 0x00 ∧ baseCycles .brk = some 7 ∧
    (Instr.isb (.absoluteX 0xFF 0xFF)).wellFormed = true ∧ (Instr.isb (.absoluteX 0xFF 0xFF)).opcode = some 0xFF ∧
    baseCycles (.isb (.absoluteX 0xFF 0xFF)) = some 7 := by decide

/-- LDA $FFFF at 0x8000; the check serves no interrupt. -/
theorem witness_StepRunsDecodedInstruction :
    let p := pollInterrupts (startStep (start {} [0xAD, 0xFF, 0xFF] []))
    let i := Instr.lda (.mem (.absolute 0xFF 0xFF))
    i.wellFormed = true ∧ baseCycles i = some 4 ∧
    ∀ k (h : k < (encode i).length), p.held (p.cpu.pc + BitVec.ofNat 16 k) = some (encode i)[k] := by decide

theorem witness_UnmappedByteStops :
    (0x02 : Byte) ∈ unmappedBytes ∧
    (pollInterrupts (startStep (start {} [0x02] []))).held (pollInterrupts (startStep (start {} [0x02] []))).cpu.pc
      = some 0x02 := by decide

def pending (p : Byte) (nmi irq : Bool) : State :=
  { start { p := p } [] [] with cpu := { (start { p := p } [] []).cpu with nmiPending := nmi, irqPending := irq } }

theorem witness_InterruptCheck :
    (pending 0x24 true true).cpu.nmiPending = true ∧
    ((pending 0x20 false true).cpu.nmiPending = false ∧ (pending 0x20 false true).cpu.irqPending = true ∧
      (pending 0x20 false true).flag .i = false) ∧
    ((pending 0x24 false true).cpu.nmiPending = false ∧ (pending 0x24 false true).flag .i = true) ∧
    ((pending 0x20 false false).cpu.nmiPending = false ∧ (pending 0x20 false false).cpu.irqPending = false) := by decide

theorem witness_EnvironmentEvents :
    ({ idle with inputs := [[.irqRequest], []] } : State).inputs = (.irqRequest :: []) :: [[]] ∧ idle.inputs = [] ∧
    ({ idle with inputs := [[], [.irqRequest]] } : State).inputs = [] :: [[.irqRequest]] ∧
    ({ idle with inputs := [[.buttonChange .two .right true]] } : State).inputs =
      (.buttonChange .two .right true :: []) :: [] := by decide

/-- `SP` 0xFE: the three slots are 0x01FF, 0x0100, 0x0101. -/
theorem witness_RtiReturns :
    let s := start { sp := 0xFE } [] [(0x01FF, 0xFF), (0x0100, 0x34), (0x0101, 0x12)]
    s.held (stackAddr (s.cpu.sp + 1)) = some 0xFF ∧ s.held (stackAddr (s.cpu.sp + 2)) = some 0x34 ∧
    s.held (stackAddr (s.cpu.sp + 3)) = some 0x12 := by decide

theorem witness_RtiUndoesBrk : ∃ s t u : State, s.flag .u = true ∧ s.flag .b = false ∧ exec .brk s = .next t ∧
    u.cpu.sp = t.cpu.sp ∧ ∀ a, u.held a = t.held a :=
  ⟨idle, _, _, by decide, by decide, rfl, rfl, fun _ => rfl⟩

theorem witness_RtsUndoesJsr : ∃ t u : State, exec (.jsr 0x00 0x00) (start { sp := 0x00 } [] []) = .next t ∧
    u.cpu.sp = t.cpu.sp ∧ ∀ a, u.held a = t.held a :=
  ⟨_, _, rfl, rfl, fun _ => rfl⟩

theorem witness_DotsFollowCycles : ∃ t, step (start {} [0xEA] []) = .next t := of_isNext (by decide)

theorem witness_StepKeepsInvariant :
    Inv (start { a := 0x80 } [0x8D, 0x00, 0x20] [(0x07FF, 0x01)]) ∧
    ∃ t, step (start { a := 0x80 } [0x8D, 0x00, 0x20] [(0x07FF, 0x01)]) = .next t :=
  ⟨by constructor <;> decide, of_isNext (by decide)⟩

theorem witness_PowerUpMeetsInvariant :
    ({ PowerUp.empty with
        cart := { PowerUp.empty.cart with prg := [(0x7FFC, 0x80)], chr := [(0x1FFF, 0x01)], wram := [(0x1FFF, 0x01)] }
        ram0 := [(0, 0x01), (0x7FF, 0xFF)], vram0 := [(0x7FF, 0x01)], oam0 := [(0xFF, 0x01)], pal0 := [(31, 0x3F)] } : PowerUp).Ok := by
  constructor <;> decide

theorem witness_OnlyFatalCausesStop :
    step (start {} [0x02] []) = .fault (.unknownOpcode 0x02 0x8000) ∧
    step (start { a := 0x01 } [0x8D, 0x00, 0x80] []) = .fault (.romWrite 0x8000 0x01) := ⟨rfl, rfl⟩

theorem witness_CartridgeIsFixed : idle.cart.chrWritable = false ∧ idle.cart.prgRam = false ∧
    ∃ t, step (start {} [0x8D, 0x07, 0x20] []) = .next t := ⟨by decide, by decide, of_isNext (by decide)⟩

theorem witness_RamMirrors : (0x1FFF : Word).toNat < 0x2000 ∧ (0x07FF : Word).toNat < 0x2000 ∧
    (0x1FFF : Word).toNat % 0x800 = (0x07FF : Word).toNat % 0x800 ∧ (0x0000 : Word).toNat % 0x800 ≠ (0x1FFF : Word).toNat % 0x800 := by
  decide

theorem witness_StoresToRomStop :
    (0x8000 ≤ (0x8000 : Word).toNat ∧ (0x7FFF : Word).toNat < 0x8000) ∧
    (0x8000 ≤ (ea (.absolute 0x00 0x80) (start {} [0xEE] [])).toNat ∧
      (start {} [0xEE] []).held (ea (.absolute 0x00 0x80) (start {} [0xEE] [])) = some 0xEE) ∧
    (0x8000 ≤ (ea (.absoluteX 0xFF 0xFF) idle).toNat ∧ idle.held (ea (.absoluteX 0xFF 0xFF) idle) = some 0x00) := by decide

theorem witness_UnansweredAddresses :
    ((0x2000 : Word).toNat % 8 ∈ [0, 1, 3, 5, 6] ∧ (0x3FFE : Word).toNat % 8 ∈ [0, 1, 3, 5, 6] ∧ (0x3FFE : Word).toNat < 0x4000) ∧
    (0x4000 ≤ (0x4000 : Word).toNat ∧ (0x4015 : Word).toNat ≤ 0x4015) ∧
    ((0x4000 : Word).toNat ≤ 0x4013 ∧ (0x4013 : Word).toNat ≤ 0x4013 ∧ (0x4015 : Word).toNat = 0x4015 ∧
      (0x4017 : Word).toNat = 0x4017) ∧
    (0x4018 ≤ (0x4018 : Word).toNat ∧ ¬ Backed idle 0x4018) ∧ ((0x7FFF : Word).toNat < 0x8000 ∧ ¬ Backed idle 0x7FFF) := by
  unfold Backed; decide

theorem witness_BusReads :
    (∃ v, idle.held 0x0000 = some v) ∧ (∃ v, idle.held 0xFFFF = some v) ∧
    (0x8000 ≤ (0x8000 : Word).toNat ∧ (0xBFFF : Word).toNat < 0xC000 ∧
      ({ idle with cart := { idle.cart with prgBanks := .one } } : State).cart.prgBanks = .one) ∧
    (0x8000 ≤ (0xFFFF : Word).toNat ∧ idle.cart.prgBanks = .two) := ⟨⟨_, rfl⟩, ⟨_, rfl⟩, by decide, by decide⟩

/-- The pointer at 0x00FF, whose second byte is at 0x0000. -/
theorem witness_EffectiveAddresses :
    let s := start { x := 0xFF, y := 0xFF } [] [(0x00FF, 0xFF), (0x0000, 0x02)]
    (s.held (BitVec.ofNat 16 (((0x00 : Byte).toNat + s.cpu.x.toNat) % 0x100)) = some 0xFF ∧
      s.held (BitVec.ofNat 16 (((0x00 : Byte).toNat + s.cpu.x.toNat + 1) % 0x100)) = some 0x02) ∧
    (s.held (BitVec.ofNat 16 (0xFF : Byte).toNat) = some 0xFF ∧
      s.held (BitVec.ofNat 16 (((0xFF : Byte).toNat + 1) % 0x100)) = some 0x02) := by decide

theorem witness_PageCrossingIsLowByteCarry :
    (start {} [] [(0x00FF, 0xFF)]).held (BitVec.ofNat 16 (0xFF : Byte).toNat) = some 0xFF ∧
    (MemMode.indirectX 0xFF).indexed16 = false ∧ (MemMode.zeroPageY 0xFF).indexed16 = false := by decide

/-- A boundary address of each region below 0x8000; the statements about stores and about read-modify-write instructions share
the hypothesis. -/
theorem witness_Stores :
    ([(0x00, 0x00), (0xFF, 0x1F), (0x00, 0x20), (0xFF, 0x3F), (0x00, 0x40), (0x13, 0x40), (0x14, 0x40), (0x15, 0x40), (0x16, 0x40),
      (0x17, 0x40), (0x18, 0x40), (0xFF, 0x5F), (0x00, 0x60), (0xFF, 0x7F)] : List (Byte × Byte)).all
      (fun e => decide ((ea (.absolute e.1 e.2) idle).toNat < 0x8000)) = true := by decide

/-- The clauses of `StoreEffect`, `ModifyFrame` and `StackFrame` that have a premise: an address that meets each. -/
theorem witness_StoreEffect :
    Backed idle 0x1FFF ∧ Backed { idle with cart := { idle.cart with prgRam := true } } 0x7FFF ∧ ¬ SameCell 0x0000 0x07FF ∧
    SameCell 0x0000 0x1800 ∧ ¬ Backed idle 0x6000 ∧ ¬ (0x2000 ≤ (0x1FFF : Word).toNat ∧ (0x1FFF : Word).toNat < 0x4000) := by
  unfold Backed SameCell; decide

/-- A read-modify-write operand whose byte is 0xFF, then one whose byte is 0x00. -/
theorem witness_MemorySteps :
    let s := start {} [] [(0x07FF, 0xFF)]
    ((ea (.absolute 0xFF 0x07) s).toNat < 0x8000 ∧ 0xFF = (cpuRead (ea (.absolute 0xFF 0x07) s) s).1) ∧
    ((ea (.zeroPage 0x00) s).toNat < 0x8000 ∧ 0x00 = (cpuRead (ea (.zeroPage 0x00) s) s).1) := by decide

theorem witness_MemoryShifts :
    let s := start { p := 0x25 } [] [(0x0000, 0x81)]
    (ea (.zeroPage 0x00) s).toNat < 0x8000 ∧ 0x81 = (cpuRead (ea (.zeroPage 0x00) s) s).1 := by decide

theorem witness_ShiftAndCombine :
    let s := start { a := 0x7F, p := 0x25 } [] [(0x0010, 0x00)]
    (ea (.zeroPage 0x10) s).toNat < 0x8000 ∧ 0x00 = (cpuRead (ea (.zeroPage 0x10) s) s).1 := by decide

theorem witness_StepAndCombine :
    let s := start { a := 0x00 } [] [(0x0100, 0xFF)]
    (ea (.absoluteY 0x00 0x01) s).toNat < 0x8000 ∧ 0xFF = (cpuRead (ea (.absoluteY 0x00 0x01) s) s).1 := by decide

theorem witness_SignedOverflow : ∃ t, exec (.adc (.immediate 0x01)) (start { a := 0x7F } [] []) = .next t := ⟨_, rfl⟩

theorem witness_Subroutines :
    let s := start { sp := 0xFE } [] [(0x01FF, 0xFF), (0x0100, 0xFF)]
    s.held (stackAddr (s.cpu.sp + 1)) = some 0xFF ∧ s.held (stackAddr (s.cpu.sp + 2)) = some 0xFF := by decide

theorem witness_Branches : (!(start { p := 0x26 } [] []).flag .z) = false ∧ (!(start { p := 0x24 } [] []).flag .z) = true := by
  decide

theorem witness_AccumulatorStack :
    let s := start { sp := 0xFF } [] [(0x0100, 0x80)]
    s.held (stackAddr (s.cpu.sp + 1)) = some 0x80 := by decide

theorem witness_StatusStack :
    let s := start { p := 0xEF, sp := 0xFF } [] [(0x0100, 0xFF)]
    s.flag .u = true ∧ s.flag .b = false ∧ s.held (stackAddr (s.cpu.sp + 1)) = some 0xFF := by decide

theorem witness_OnlyListedStateChanges :
    (∃ t, exec (.cmp (.immediate 0xFF)) idle = .next t) ∧ writesReg (.cmp (.immediate 0xFF)) .a = false ∧
    transfersControl (.cmp (.immediate 0xFF)) = false ∧ idle.flag .u = true ∧ idle.flag .b = false ∧
    writesFlag (.cmp (.immediate 0xFF)) .v = false := ⟨⟨_, rfl⟩, by decide⟩

theorem witness_ControlRegisterWrites :
    (0x2000 ≤ (0x2000 : Word).toNat ∧ (0x2000 : Word).toNat % 8 = 0) ∧ ((0x3FF9 : Word).toNat < 0x4000 ∧ (0x3FF9 : Word).toNat % 8 = 1) ∧
    ((0x3FFA : Word).toNat < 0x4000 ∧ (0x3FFA : Word).toNat % 8 = 2) ∧ ((0x3FFB : Word).toNat < 0x4000 ∧ (0x3FFB : Word).toNat % 8 = 3) := by
  decide

theorem witness_ScrollWrites : 0x2000 ≤ (0x3FFD : Word).toNat ∧ (0x3FFD : Word).toNat < 0x4000 ∧ (0x3FFD : Word).toNat % 8 = 5 ∧
    idle.ppu.w = false ∧ (wr 0x2005 0x00 idle).ppu.w = true := by decide

theorem witness_AddressWrites : 0x2000 ≤ (0x3FFE : Word).toNat ∧ (0x3FFE : Word).toNat < 0x4000 ∧ (0x3FFE : Word).toNat % 8 = 6 ∧
    idle.ppu.w = false ∧ (wr 0x2006 0x00 idle).ppu.w = true := by decide

theorem witness_StatusReads : 0x2000 ≤ (0x3FFA : Word).toNat ∧ (0x3FFA : Word).toNat < 0x4000 ∧ (0x3FFA : Word).toNat % 8 = 2 := by
  decide

/-- `v` just below the palette, at its first and at its last address. -/
theorem witness_DataAccess : 0x2000 ≤ (0x3FFF : Word).toNat ∧ (0x3FFF : Word).toNat < 0x4000 ∧ (0x3FFF : Word).toNat % 8 = 7 ∧
    (ppuAt 0 0 0 0 0 0x3EFF 0 idle).ppu.v.toNat % 0x4000 < 0x3F00 ∧ 0x3F00 ≤ (ppuAt 0 0 0 0 0 0x3F00 0 idle).ppu.v.toNat % 0x4000 ∧
    0x3F00 ≤ (ppuAt 0 0 0 0 0 0x7FFF 0 idle).ppu.v.toNat % 0x4000 := by decide

theorem witness_PaletteMirrors : 0x3F00 ≤ 0x3F10 ∧ 0x3F10 < 0x4000 ∧ 0x3F00 ≤ 0x3FE0 ∧ 0x3FE0 < 0x4000 ∧
    0x3F10 % 4 = 0 ∧ 0x3FE0 % 4 = 0 ∧ 0x3F10 % 16 = 0x3FE0 % 16 := by decide

/-- The nametables' first and last address; pattern memory's, CHR writable and not; the two borders between regions. -/
theorem witness_NametableMirrors :
    (0x2000 ≤ 0x2000 ∧ 0x2000 < 0x3F00 ∧ 0x2000 ≤ 0x3EFF ∧ 0x3EFF < 0x3F00) ∧
    (0x0000 < 0x2000 ∧ 0x1FFF < 0x2000 ∧ { idle.cart with chrWritable := true }.chrWritable = true ∧ idle.cart.chrWritable = false) ∧
    ppuRegion 0x1FFF ≠ ppuRegion 0x2000 ∧ ppuRegion 0x3EFF ≠ ppuRegion 0x3F00 ∧ ppuRegion 0x0000 ≠ ppuRegion 0x3FFF := by decide

theorem witness_OamAccess : (0x2000 ≤ (0x2004 : Word).toNat ∧ (0x2004 : Word).toNat % 8 = 4) ∧
    ((0x3FFC : Word).toNat < 0x4000 ∧ (0x3FFC : Word).toNat % 8 = 4) ∧ (0x00 : Byte).toNat < 0x20 ∧ (0x1F : Byte).toNat < 0x20 := by
  decide

/-- The dots (-1, 1), (-1, 304), and the first and last of the others. -/
theorem witness_PreRenderLine :
    [0, 303, -1, 339].all (fun c => decide ((ppuAt (-1) c 0 0x08 0xE0 0 0x1234 idle).ppu.scanline = -1 ∧
      -1 ≤ (ppuAt (-1) c 0 0x08 0xE0 0 0x1234 idle).ppu.cycle ∧ (ppuAt (-1) c 0 0x08 0xE0 0 0x1234 idle).ppu.cycle < 340)) = true := by
  decide

theorem witness_EndOfFrame : (ppuAt 260 339 0 0 0 0 0 idle).ppu.scanline = 260 ∧ (ppuAt 260 339 0 0 0 0 0 idle).ppu.cycle = 339 := by
  decide

theorem witness_VblankEntry :
    (ppuAt 241 0 0x80 0 0 0 0 idle).ppu.scanline = 241 ∧ (ppuAt 241 0 0x80 0 0 0 0 idle).ppu.cycle = 0 ∧
    (ppuAt 241 0 0x80 0 0 0 0 idle).ppu.vblSuppress = false := by decide

/-- The first dot, the dots beside the ones with events, and the last. -/
theorem witness_OtherDotsAreIdle :
    ([(-1, 1), (-1, 302), (-1, 339), (0, 0), (0, 255), (239, 257), (240, 256), (241, 1), (260, 338)] : List (Int × Int)).all
      (fun e => decide (-1 ≤ e.1 ∧ e.1 ≤ 260 ∧ 0 ≤ e.2 ∧ e.2 < 340 ∧ (e.1 = -1 → e.2 ≠ 0 ∧ e.2 ≠ 303) ∧
        (0 ≤ e.1 → e.1 ≤ 239 → e.2 ≠ 256) ∧ (e.1 = 241 → e.2 ≠ 0) ∧ (e.1 = 260 → e.2 ≠ 339) ∧
        (ppuAt e.1 e.2 0 0 0 0 0 idle).ppu.scanline = e.1 ∧ (ppuAt e.1 e.2 0 0 0 0 0 idle).ppu.cycle = e.2)) = true := by decide

/-- Lines 0 and 239; rendering disabled and enabled; fine Y below 7 and 7, coarse Y 29, 31 and another; a transparent pixel. -/
theorem witness_VisibleLine :
    let s := ppuAt 0 256 0 0x00 0x80 0x6FFF 0 idle
    let u := ppuAt 239 256 0 0x1E 0x80 0x73A0 0 idle
    (s.ppu.scanline = (0 : Nat) ∧ s.ppu.cycle = 256 ∧ s.ppu.mask.getLsbD 3 = false ∧ s.ppu.mask.getLsbD 4 = false ∧
      s.ppu.status.getLsbD 7 = true ∧ s.ppu.v.toNat / 0x1000 < 7) ∧
    (u.ppu.scanline = (239 : Nat) ∧ u.ppu.cycle = 256 ∧ u.ppu.mask.getLsbD 3 = true ∧ u.ppu.v.toNat / 0x1000 = 7 ∧
      u.ppu.v.toNat / 0x20 % 0x20 = 29 ∧ (bgPixel u 255).value = 0 ∧ ownerAt u 239 255 = none) ∧
    (ppuAt 0 256 0 0x08 0 0x73E0 0 idle).ppu.v.toNat / 0x20 % 0x20 = 31 := by decide

/-- Nine sprites with Y 0x0A: on line 11 the ninth is in range, not selected, and overflow is set; sprite 0 owns pixel 20, none
owns pixel 100. -/
def nine : State :=
  pokeOam ([(1, 0x02), (3, 0x14)] ++ [0, 4, 8, 12, 16, 20, 24, 28, 32].map (fun i => (i, 0x0A))) scene

theorem witness_SpriteEvaluation :
    renderingEnabled nine.ppu = true ∧ (∃ i, i ∈ selectedSprites nine 11) ∧
    ((oamByte (4 * 8) nine).toNat + 1 ≤ 11 ∧ 11 < (oamByte (4 * 8) nine).toNat + 1 + 8 ∧ 8 ∉ selectedSprites nine 11) ∧
    spriteOverflow nine 11 = true ∧ ownerAt nine 11 20 = some (0, 3) ∧ (ownerAt nine 11 100 = none ∧ nine.ppu.mask.getLsbD 4 = true) :=
  ⟨by decide, ⟨0, by decide⟩, by decide, by decide, by decide, by decide⟩

/-- With sprites off and the background on there is no owner; a selected sprite shows value 3 at its column 0. -/
theorem witness_SpriteEvaluation_shows :
    (let s : State := { nine with ppu := { nine.ppu with mask := 0x08 } }
     renderingEnabled s.ppu = true ∧ s.ppu.mask.getLsbD 4 = false) ∧
    0 ∈ selectedSprites nine 11 ∧ spriteAt nine 11 20 0 = some 3 ∧ SpriteShows nine 11 20 0 3 := by
  refine ⟨by decide, by decide, by decide, ?_⟩
  unfold SpriteShows
  decide

/-- The two flags: on line 11 of `nine` a ninth sprite is in range, and sprite 0 is opaque over the opaque background at pixel 20;
the left column is clipped with mask bit 1 clear; each layer is off in one state. -/
theorem witness_VisibleLine_flags :
    let s : State := { nine with ppu := { nine.ppu with scanline := 11, cycle := 256 } }
    let c : State := { s with ppu := { s.ppu with mask := 0x18 } }
    let b : State := { s with ppu := { s.ppu with mask := 0x10 } }
    (s.ppu.scanline = (11 : Nat) ∧ s.ppu.cycle = 256 ∧ spriteOverflow s 11 = true) ∧
    (s.ppu.mask.getLsbD 3 = true ∧ s.ppu.mask.getLsbD 4 = true ∧ 0 ∈ selectedSprites s 11 ∧
      (spriteAt s 11 20 0).isSome = true ∧ (bgPixel s 20).value ≠ 0) ∧
    (c.ppu.mask.getLsbD 3 = true ∧ c.ppu.mask.getLsbD 1 = false ∧ (bgPixel c 7).value = 0 ∧ (bgPixel c 8).value ≠ 0) ∧
    (b.ppu.mask.getLsbD 3 = false ∧ b.ppu.mask.getLsbD 4 = true ∧ ownerAt b 11 20 = some (0, 3)) := by decide

/-- The bytes written; the strobe set and clear. -/
theorem witness_ControllersShiftOut :
    (0x01 : Byte).getLsbD 0 = true ∧ (0xFE : Byte).getLsbD 0 = false ∧
    idle.pads.strobe = false ∧ (wr 0x4016 0x01 idle).pads.strobe = true := by decide

end Sys2Proof.Tests
end

/-! The family `10_state.md`: the invariant every step keeps, the cartridge no step changes, power-up, and the registers and
flags no instruction writes that the rules do not list for it. -/

namespace Sys2Proof.Machine

/-! The invariant, part by part of the step (R48). -/

/-- The invariant speaks of `P`, the memories, the PPU and the cartridge only. -/
theorem Inv.congr {s t : State} (h : Inv s) (hp : t.cpu.p = s.cpu.p) (hr : t.ram = s.ram) (hu : t.ppu = s.ppu)
    (hc : t.cart = s.cart) : Inv t where
  unused := by simpa only [State.flag, hp] using h.unused
  brk := by simpa only [State.flag, hp] using h.brk
  status := hu ▸ h.status
  position := hu ▸ h.position
  ram := hr ▸ h.ram
  wram := hc ▸ h.wram
  prg := hc ▸ h.prg
  chr := hc ▸ h.chr
  nt := hu ▸ h.nt
  pal := hu ▸ h.pal
  oam := hu ▸ h.oam
  fb := hu ▸ h.fb

theorem InputKeeps.inv {s t : State} (k : InputKeeps s t) (h : Inv s) : Inv t :=
  h.congr (by rw [k.cpu]) (by rw [k.rest]) (by rw [k.rest]) (by rw [k.rest])

/-- The CPU's own actions keep the invariant: of PPUSTATUS they clear bit 7 at most, and the position is the dots' alone. -/
theorem Keeps.inv {s t : State} (k : Keeps s t) (h : Inv s) : Inv t where
  unused := k.unused h.unused
  brk := k.brk h.brk
  status := by
    rcases k.status with hs | hs <;> rw [hs]
    · exact h.status
    · rw [putBit7_and, h.status]
  position := by
    unfold legalPosition
    rw [k.scanline, k.cycle]
    exact h.position
  ram := k.ramWf h.ram
  wram := k.wramWf h.wram
  prg := by
    rw [k.cart]
    exact h.prg
  chr := k.chrWf h.chr
  nt := k.ntWf h.nt
  pal := k.palWf h.pal
  oam := k.oamWf h.oam
  fb := by
    rw [k.fb]
    exact h.fb

/-- Dots keep the invariant where they keep the position legal. -/
theorem DotKeeps.inv {s t : State} (k : DotKeeps s t) (hl : legalPosition t.ppu = true) (h : Inv s) : Inv t where
  unused := by
    rw [State.flag, k.cpu]
    exact h.unused
  brk := by
    rw [State.flag, k.cpu]
    exact h.brk
  status := k.status h.status
  position := hl
  ram := k.ram ▸ h.ram
  wram := k.cart ▸ h.wram
  prg := k.cart ▸ h.prg
  chr := k.cart ▸ h.chr
  nt := by
    rw [k.ppu]
    exact h.nt
  pal := by
    rw [k.ppu]
    exact h.pal
  oam := by
    rw [k.ppu]
    exact h.oam
  fb := k.fbWf h.fb

theorem ppuSteps_inv (n : Nat) {s : State} (h : Inv s) : Inv (ppuSteps n s) :=
  (ppuSteps_keeps n s).inv ((ppuSteps_position n s).2 h.position) h

theorem catchUp_inv {s : State} (h : Inv s) : Inv (catchUp s) :=
  ppuSteps_inv _ (h.congr rfl rfl rfl rfl)

/-- Settles O13: the environment's batch, the interrupt check with the fetch, the instruction and the dots each keep the
invariant. -/
theorem stepKeepsInvariant : Obligations.StepKeepsInvariant := by
  intro s t h hstep
  obtain ⟨s1, s2, s3, u, hinput, -, hpoll, -, -, hfetch, hexec, -, rfl⟩ := step_parts hstep
  have h2 : Inv s2 := hpoll.inv (hinput.inv h)
  have h3 : Inv s3 := (hfetch.inv h2).congr rfl rfl rfl rfl
  exact catchUp_inv (hexec.inv h3)

/-! The cartridge (R45, R73). -/

/-- Cartridge `d` is cartridge `c` but for the memory of it that can be written. -/
structure SameCart (c d : Cart) : Prop where
  rest : d = { c with chr := d.chr, wram := d.wram }
  chr  : c.chrWritable = false → d.chr = c.chr
  wram : c.prgRam = false → d.wram = c.wram

theorem SameCart.ofEq {c d : Cart} (h : d = c) : SameCart c d := by
  subst h
  exact ⟨rfl, fun _ => rfl, fun _ => rfl⟩

theorem SameCart.trans {c d e : Cart} (h : SameCart c d) (k : SameCart d e) : SameCart c e where
  rest := by rw [k.rest, h.rest]
  chr := fun hw => (k.chr (by rw [h.rest]; exact hw)).trans (h.chr hw)
  wram := fun hr => (k.wram (by rw [h.rest]; exact hr)).trans (h.wram hr)

theorem Keeps.sameCart {s t : State} (k : Keeps s t) : SameCart s.cart t.cart := ⟨k.cart, k.chr, k.wram⟩

theorem catchUp_cart (s : State) : (catchUp s).cart = s.cart := (ppuSteps_keeps _ _).cart

/-- Settles O17: of the parts of a step only the CPU's own actions reach the cartridge, and they write no more than it has
writable. -/
theorem cartridgeIsFixed : Obligations.CartridgeIsFixed := by
  intro s t hstep
  obtain ⟨s1, s2, s3, u, hinput, -, hpoll, -, -, hfetch, hexec, -, rfl⟩ := step_parts hstep
  have h1 : SameCart s.cart s1.cart := .ofEq (by rw [hinput.rest])
  have h3 : SameCart s.cart s3.cart := (h1.trans hpoll.sameCart).trans hfetch.sameCart
  obtain ⟨hrest, hchr, hwram⟩ := h3.trans hexec.sameCart
  rw [catchUp_cart]
  exact ⟨hrest, hchr, hwram⟩

/-! Power-up (R47, R380, R382). -/

theorem PowerUp.Ok.inv {q : PowerUp} (h : q.Ok) : Inv (State.powerUp q) where
  unused := (by decide : (0x24 : Byte).getLsbD 5 = true)
  brk := (by decide : (0x24 : Byte).getLsbD 4 = false)
  status := (by decide : (0x00 : Byte) &&& 0x1F = 0)
  position := rfl
  ram := h.ram
  wram := h.wram
  prg := h.prg
  chr := h.chr
  nt := h.vram
  pal := h.pal
  oam := h.oam
  fb := rfl

theorem PowerUp.empty_ok : PowerUp.empty.Ok := ⟨rfl, rfl, rfl, rfl, rfl, rfl, rfl⟩

/-- Settles O14: the memories' canonical forms are the parameters' own, everything else is a constant. -/
theorem powerUpMeetsInvariant : Obligations.PowerUpMeetsInvariant :=
  ⟨fun _ h => h.inv, PowerUp.empty_ok.inv⟩

/-- Settles O15: the vector lies in PRG, where the bus answers the byte that power-up took. -/
theorem powerUpFromResetVector : Obligations.PowerUpFromResetVector :=
  fun q => ⟨rfl, rfl, (vectorAt_eq 0xFFFC (State.powerUp q) (by decide) (by decide)).symm⟩


/-! What an instruction writes of the CPU (R21, R22, R23, R26, R28). Every change that an instruction makes is `Listed` for it;
the shared operations have one lemma each. -/

/-- From `s` to `t` nothing changes of the registers, of `PC` and of the flags but what the lists give instruction `i`. -/
structure Listed (i : Instr) (s t : State) : Prop where
  regs  : ∀ r, writesReg i r = false → t.reg r = s.reg r
  pc    : transfersControl i = false → t.cpu.pc = s.cpu.pc
  flags : s.flag .u = true → s.flag .b = false → ∀ f, writesFlag i f = false → t.flag f = s.flag f

section
variable {i : Instr} {s t u : State}

/-- Bits 4 and 5 of `P` are on no list (R26), so that the flags' premise holds again after the first change. -/
theorem Listed.trans (h : Listed i s t) (k : Listed i t u) : Listed i s u where
  regs := fun r hr => (k.regs r hr).trans (h.regs r hr)
  pc := fun hi => (k.pc hi).trans (h.pc hi)
  flags := fun hu hb f hf =>
    (k.flags ((h.flags hu hb .u rfl).trans hu) ((h.flags hu hb .b rfl).trans hb) f hf).trans (h.flags hu hb f hf)

/-- A change outside the registers, `PC` and `P`. -/
theorem Listed.ofCpu (h : t.cpu = { s.cpu with nmiPending := t.cpu.nmiPending }) : Listed i s t where
  regs := fun r _ => by cases r <;> simp only [State.reg] <;> rw [h]
  pc := fun _ => by rw [h]
  flags := fun _ _ f _ => by rw [State.flag, h, State.flag]

theorem Listed.refl (i : Instr) (s : State) : Listed i s s := .ofCpu rfl

theorem ReadKeeps.listed (h : ReadKeeps s t) : Listed i s t := .ofCpu h.cpu

theorem cpuWrite_listed {a : Word} {v : Byte} (h : cpuWrite a v s = .next t) : Listed i s t := by
  rcases Nat.lt_or_ge a.toNat 0x8000 with ha | ha
  · obtain ⟨w, hw, -, hcpu, -⟩ := cpuWrite_effect a v s ha
    obtain rfl : w = t := by
      rw [h] at hw
      injection hw with hw
      exact hw.symm
    exact .ofCpu hcpu
  · rw [cpuWrite_rom a v s ha] at h
    cases h

/-- An operation on the CPU registers whose registers and flags are listed. -/
theorem CpuStep.listed {rs : List Reg} {fs : List Flag} (h : CpuStep rs fs s t) (hpc : t.cpu.pc = s.cpu.pc)
    (hr : rs.all (writesReg i) = true) (hf : fs.all (writesFlag i) = true) : Listed i s t where
  regs := fun r hw => h.regs r fun hm => by
    rw [List.all_eq_true.mp hr r hm] at hw
    cases hw
  pc := fun _ => hpc
  flags := fun _ _ f hw => h.flags f fun hm => by
    rw [List.all_eq_true.mp hf f hm] at hw
    cases hw

theorem setExtra_listed (i : Instr) (s : State) (n : Nat) : Listed i s (s.setExtra n) := .ofCpu rfl

theorem setFlag_listed (f : Flag) (b : Bool) (hf : writesFlag i f = true) : Listed i s (s.setFlag f b) :=
  (CpuStep.setFlag s f b).listed rfl rfl (by simp [hf])

theorem setZN_listed (v : Byte) (h : writesZN i = true) : Listed i s (s.setZN v) :=
  (CpuStep.setZN s v).listed rfl rfl (by simp [writesFlag, h])

theorem setReg_listed (r : Reg) (v : Byte) (hr : writesReg i r = true) : Listed i s (s.setReg r v) :=
  (CpuStep.setReg s r v).listed (cpu_pc_setReg s r v) (by simp [hr]) rfl

/-- A register write with `SetZN`: loads, transfers, the logical operations, increments and decrements. -/
theorem setReg_setZN_listed (r : Reg) (v w : Byte) (hr : writesReg i r = true) (hz : writesZN i = true) :
    Listed i s ((s.setReg r v).setZN w) :=
  (setReg_listed r v hr).trans (setZN_listed w hz)

theorem setPc_listed (w : Word) (h : transfersControl i = true) : Listed i s (s.setPc w) where
  regs := fun r _ => reg_setPc s w r
  pc := fun hi => by
    rw [h] at hi
    cases hi
  flags := fun _ _ _ _ => rfl

/-- Loading a pulled status byte: bits 4 and 5 come out as they always stand (R26). -/
theorem setP_loadedStatus_listed (b : Byte) (h : [Flag.c, .z, .i, .d, .v, .n].all (writesFlag i) = true) :
    Listed i s (s.setP (loadedStatus b)) where
  regs := fun r _ => reg_setP s _ r
  pc := fun _ => rfl
  flags := fun hu hb f hf => by
    rw [flag_setP, loadedStatus_bits]
    cases f
    case b => simp [hb]
    case u => simp [hu]
    all_goals simp [hf] at h

theorem addToA_listed (m : Byte) (ha : writesA i = true) (hf : [Flag.c, .v, .z, .n].all (writesFlag i) = true) :
    Listed i s (s.addToA m) :=
  (CpuStep.addToA s m).listed rfl (by simp [writesReg, ha]) hf

theorem subFromA_listed (m : Byte) (ha : writesA i = true) (hf : [Flag.c, .v, .z, .n].all (writesFlag i) = true) :
    Listed i s (s.subFromA m) :=
  (CpuStep.subFromA s m).listed rfl (by simp [writesReg, ha]) hf

theorem compare_listed (r m : Byte) (hf : [Flag.c, .z, .n].all (writesFlag i) = true) : Listed i s (s.compare r m) :=
  (CpuStep.compare s r m).listed rfl rfl hf

/-! The stack (R22, R30 to R32). -/

theorem push_listed (v : Byte) (h : writesSp i = true) : Listed i s (push v s) :=
  (Listed.ofCpu rfl : Listed i s (writeRam (stackAddr s.cpu.sp) v s)).trans (setReg_listed .sp _ h)

theorem pull_listed (h : writesSp i = true) : Listed i s (pull s).2 := setReg_listed .sp _ h

theorem pushWord_listed (w : Word) (h : writesSp i = true) : Listed i s (pushWord w s) :=
  (push_listed _ h).trans (push_listed _ h)

theorem pullWord_listed (h : writesSp i = true) : Listed i s (pullWord s).2 :=
  (pull_listed h).trans (pull_listed h)

/-! The operation shapes. -/

/-- Where the outcome is a next state, it is reached by listed changes. -/
def ListedOutcome (i : Instr) (s : State) (r : Result) : Prop := ∀ t, r = .next t → Listed i s t

theorem Listed.outcome (h : Listed i s t) : ListedOutcome i s (.next t) := by
  rintro u ⟨⟩
  exact h

theorem impliedOp_listed {op : State → State} (h : Listed i s (op s)) : ListedOutcome i s (impliedOp op s) :=
  (h.trans (setExtra_listed i _ 0)).outcome

theorem readOp_listed {m : ReadMode} {op : Byte → State → State} (h : ∀ v t, Listed i t (op v t)) :
    ListedOutcome i s (readOp m op s) :=
  (((readOperand_keeps m s).listed.trans (h _ _)).trans (setExtra_listed i _ _)).outcome

theorem readOpFlat_listed {m : ReadMode} {op : Byte → State → State} (h : ∀ v t, Listed i t (op v t)) :
    ListedOutcome i s (readOpFlat m op s) :=
  (((readOperand_keeps m s).listed.trans (h _ _)).trans (setExtra_listed i _ _)).outcome

/-- A bus write between two listed changes. -/
theorem mapNext_cpuWrite_listed {a : Word} {v : Byte} {f : State → State} (h : Listed i s t)
    (hf : ∀ w, Listed i w (f w)) : ListedOutcome i s (mapNext f (cpuWrite a v t)) := by
  intro u hu
  cases hw : cpuWrite a v t with
  | next w =>
    rw [hw] at hu
    injection hu with hu
    exact hu ▸ (h.trans (cpuWrite_listed hw)).trans (hf w)
  | fault r =>
    rw [hw] at hu
    cases hu
  | refused r => exact absurd hw cpuWrite_not_refused

theorem storeOp_listed (m : MemMode) (v : Byte) : ListedOutcome i s (storeOp m v s) :=
  mapNext_cpuWrite_listed (.refl i s) fun w => setExtra_listed i w 0

theorem rmwOp_listed {m : MemMode} {result : Byte → State → Byte} {early late : Byte → State → State}
    (he : ∀ v t, Listed i t (early v t)) (hl : ∀ v t, Listed i t (late v t)) :
    ListedOutcome i s (rmwOp m result early late s) :=
  mapNext_cpuWrite_listed ((cpuRead_keeps _ s).listed.trans (he _ _)) fun w => (hl _ w).trans (setExtra_listed i _ 0)

theorem shiftMemory_listed {op : ShiftOp} {m : MemMode} {late : Byte → State → State} (hc : writesC i = true)
    (hl : ∀ v t, Listed i t (late v t)) : ListedOutcome i s (shiftMemory op m late s) :=
  rmwOp_listed (fun _ _ => setFlag_listed .c _ hc) hl

theorem shiftOp_listed {op : ShiftOp} {m : ShiftMode} (hc : writesC i = true) (hz : writesZN i = true)
    (ha : m = .accumulator → writesA i = true) : ListedOutcome i s (shiftOp op m s) := by
  cases m with
  | accumulator =>
    exact (((setFlag_listed .c _ hc).trans (setReg_setZN_listed .a _ _ (ha rfl) hz)).trans
      (setExtra_listed i _ 0)).outcome
  | mem m => exact shiftMemory_listed hc fun v _ => setZN_listed v hz

theorem branchOp_listed (c : Bool) (op1 : Byte) (h : transfersControl i = true) :
    ListedOutcome i s (branchOp c op1 s) := by
  unfold branchOp
  split
  · exact ((setPc_listed _ h).trans (setExtra_listed i _ _)).outcome
  · exact (setExtra_listed i s 0).outcome

end

/-! The instructions with a shape of their own. -/

theorem execJmp_listed (m : JumpMode) (s : State) : ListedOutcome (.jmp m) s (execJmp m s) := by
  unfold execJmp
  cases m with
  | absoluteJmp op1 op2 => exact impliedOp_listed (setPc_listed _ rfl)
  | indirect op1 op2 =>
    exact impliedOp_listed
      (((cpuRead_keeps _ s).listed.trans (cpuRead_keeps _ _).listed).trans (setPc_listed _ rfl))

theorem execBrk_listed (s : State) : ListedOutcome .brk s (execBrk s) :=
  impliedOp_listed ((((pushWord_listed _ rfl).trans (push_listed _ rfl)).trans (setFlag_listed .i _ rfl)).trans
    (setPc_listed _ rfl))

theorem execRti_listed (s : State) : ListedOutcome .rti s (execRti s) :=
  impliedOp_listed ((((pull_listed rfl).trans (setP_loadedStatus_listed _ rfl)).trans (pullWord_listed rfl)).trans
    (setPc_listed _ rfl))

theorem execNopUndoc_listed (o : Byte) (m : NopMode) (s : State) :
    ListedOutcome (.nopUndoc o m) s (execNopUndoc o m s) := by
  unfold execNopUndoc
  cases m with
  | implied => exact impliedOp_listed (.refl _ s)
  | immediate op1 => exact readOp_listed fun _ t => .refl _ t
  | mem m => exact readOp_listed fun _ t => .refl _ t

/-- Every instruction makes listed changes only. -/
theorem exec_listed (i : Instr) (s : State) : ListedOutcome i s (exec i s) := by
  unfold exec
  cases i with
  | lda m => exact readOp_listed fun v _ => setReg_setZN_listed .a v v rfl rfl
  | ldx m => exact readOp_listed fun v _ => setReg_setZN_listed .x v v rfl rfl
  | ldy m => exact readOp_listed fun v _ => setReg_setZN_listed .y v v rfl rfl
  | sta m => exact storeOp_listed m _
  | stx m => exact storeOp_listed m _
  | sty m => exact storeOp_listed m _
  | tax => exact impliedOp_listed (setReg_setZN_listed .x _ _ rfl rfl)
  | tay => exact impliedOp_listed (setReg_setZN_listed .y _ _ rfl rfl)
  | txa => exact impliedOp_listed (setReg_setZN_listed .a _ _ rfl rfl)
  | tya => exact impliedOp_listed (setReg_setZN_listed .a _ _ rfl rfl)
  | tsx => exact impliedOp_listed (setReg_setZN_listed .x _ _ rfl rfl)
  | txs => exact impliedOp_listed (setReg_listed .sp _ rfl)
  | adc m => exact readOp_listed fun v _ => addToA_listed v rfl rfl
  | sbc m => exact readOp_listed fun v _ => subFromA_listed v rfl rfl
  | and m => exact readOp_listed fun _ _ => setReg_setZN_listed .a _ _ rfl rfl
  | ora m => exact readOp_listed fun _ _ => setReg_setZN_listed .a _ _ rfl rfl
  | eor m => exact readOp_listed fun _ _ => setReg_setZN_listed .a _ _ rfl rfl
  | cmp m => exact readOp_listed fun v _ => compare_listed _ v rfl
  | cpx m => exact readOpFlat_listed fun v _ => compare_listed _ v rfl
  | cpy m => exact readOpFlat_listed fun v _ => compare_listed _ v rfl
  | bit m => exact readOpFlat_listed fun v t => (CpuStep.bitTest t v).listed rfl rfl rfl
  | inc m => exact rmwOp_listed (fun _ t => .refl _ t) fun v _ => setZN_listed v rfl
  | dec m => exact rmwOp_listed (fun _ t => .refl _ t) fun v _ => setZN_listed v rfl
  | inx => exact impliedOp_listed (setReg_setZN_listed .x _ _ rfl rfl)
  | iny => exact impliedOp_listed (setReg_setZN_listed .y _ _ rfl rfl)
  | dex => exact impliedOp_listed (setReg_setZN_listed .x _ _ rfl rfl)
  | dey => exact impliedOp_listed (setReg_setZN_listed .y _ _ rfl rfl)
  | asl m => exact shiftOp_listed rfl rfl fun h => beq_iff_eq.mpr h
  | lsr m => exact shiftOp_listed rfl rfl fun h => beq_iff_eq.mpr h
  | rol m => exact shiftOp_listed rfl rfl fun h => beq_iff_eq.mpr h
  | ror m => exact shiftOp_listed rfl rfl fun h => beq_iff_eq.mpr h
  | jmp m => exact execJmp_listed m s
  | jsr op1 op2 => exact impliedOp_listed ((pushWord_listed _ rfl).trans (setPc_listed _ rfl))
  | rts => exact impliedOp_listed ((pullWord_listed rfl).trans (setPc_listed _ rfl))
  | bcc op1 => exact branchOp_listed _ op1 rfl
  | bcs op1 => exact branchOp_listed _ op1 rfl
  | beq op1 => exact branchOp_listed _ op1 rfl
  | bne op1 => exact branchOp_listed _ op1 rfl
  | bmi op1 => exact branchOp_listed _ op1 rfl
  | bpl op1 => exact branchOp_listed _ op1 rfl
  | bvc op1 => exact branchOp_listed _ op1 rfl
  | bvs op1 => exact branchOp_listed _ op1 rfl
  | pha => exact impliedOp_listed (push_listed _ rfl)
  | pla => exact impliedOp_listed ((pull_listed rfl).trans (setReg_setZN_listed .a _ _ rfl rfl))
  | php => exact impliedOp_listed (push_listed _ rfl)
  | plp => exact impliedOp_listed ((pull_listed rfl).trans (setP_loadedStatus_listed _ rfl))
  | clc => exact impliedOp_listed (setFlag_listed .c _ rfl)
  | sec => exact impliedOp_listed (setFlag_listed .c _ rfl)
  | cli => exact impliedOp_listed (setFlag_listed .i _ rfl)
  | sei => exact impliedOp_listed (setFlag_listed .i _ rfl)
  | clv => exact impliedOp_listed (setFlag_listed .v _ rfl)
  | cld => exact impliedOp_listed (setFlag_listed .d _ rfl)
  | sed => exact impliedOp_listed (setFlag_listed .d _ rfl)
  | nop => exact impliedOp_listed (.refl _ s)
  | brk => exact execBrk_listed s
  | rti => exact execRti_listed s
  | slo m => exact shiftMemory_listed rfl fun _ _ => setReg_setZN_listed .a _ _ rfl rfl
  | rla m => exact shiftMemory_listed rfl fun _ _ => setReg_setZN_listed .a _ _ rfl rfl
  | sre m => exact shiftMemory_listed rfl fun _ _ => setReg_setZN_listed .a _ _ rfl rfl
  | rra m => exact shiftMemory_listed rfl fun v _ => addToA_listed v rfl rfl
  | sax m => exact storeOp_listed m _
  | lax m =>
    exact readOp_listed fun v _ => (setReg_listed .a v rfl).trans (setReg_setZN_listed .x v v rfl rfl)
  | dcp m => exact rmwOp_listed (fun _ t => .refl _ t) fun v _ => compare_listed _ v rfl
  | isb m => exact rmwOp_listed (fun _ t => .refl _ t) fun v _ => subFromA_listed v rfl rfl
  | nopUndoc o m => exact execNopUndoc_listed o m s
  | sbcUndoc op1 => exact readOp_listed fun v _ => subFromA_listed v rfl rfl
  | unmapped o => exact fun _ h => nomatch h

/-- Settles O45: every change that an instruction makes of the registers, `PC` and the flags is on its lists. -/
theorem onlyListedStateChanges : Obligations.OnlyListedStateChanges := by
  intro i s t h
  obtain ⟨hregs, hpc, hflags⟩ := exec_listed i s t h
  exact ⟨hregs, hpc, hflags⟩

end Sys2Proof.Machine

/-! The family `20_memory.md`: the CPU bus region by region, the stores that ROM stops, the PRG banks, and the PPU bus region
by region. -/

namespace Sys2Proof.Machine

/-! The CPU bus, region by region (R64, R65). -/

theorem cpuRead_ram {a : Word} (s : State) (h : a.toNat < 0x2000) :
    cpuRead a s = (Cells.read s.ram (ramCell a), s) := by
  simp only [cpuRead, h, if_true]

theorem cpuWrite_ram {a : Word} (d : Byte) (s : State) (h : a.toNat < 0x2000) :
    cpuWrite a d s = .next (writeRam a d s) := by
  simp only [cpuWrite, h, if_true]

theorem cpuRead_ppuReg {a : Word} (s : State) (h : 0x2000 ≤ a.toNat) (h' : a.toNat < 0x4000) :
    cpuRead a s = ppuRegRead (a.toNat % 8) s := by
  unfold cpuRead
  rw [if_neg (by omega), if_pos h']

/-- Below the controllers no register of the 0x4000 window has a value of its own, the APU status at 0x4015
included (R68). -/
theorem cpuRead_apu {a : Word} (s : State) (h : 0x4000 ≤ a.toNat) (h' : a.toNat ≤ 0x4015) : cpuRead a s = draw s := by
  unfold cpuRead
  rw [if_neg (by omega), if_neg (by omega)]
  by_cases h15 : a.toNat = 0x4015
  · rw [if_pos h15]
  · rw [if_neg h15, if_neg (by omega), if_neg (by omega), if_pos (by omega)]

theorem cpuWrite_apu {a : Word} (d : Byte) (s : State) (h : 0x4000 ≤ a.toNat) (h' : a.toNat ≤ 0x4017)
    (h14 : a.toNat ≠ 0x4014) (h16 : a.toNat ≠ 0x4016) : cpuWrite a d s = .next (apuWrite a d s) := by
  unfold cpuWrite
  rw [if_neg (by omega), if_neg (by omega), if_neg h14, if_neg h16, if_pos h']

/-- Above the registers and below ROM an address is backed by work RAM only (R71, R72). -/
theorem not_workRam_of_not_backed {a : Word} {s : State} (h : a.toNat < 0x8000) (hb : ¬ Backed s a) :
    ¬ (0x6000 ≤ a.toNat ∧ s.cart.prgRam = true) :=
  fun hw => hb (.inr ⟨hw.1, h, hw.2⟩)

theorem cpuRead_unbacked {a : Word} {s : State} (h : 0x4018 ≤ a.toNat) (h' : a.toNat < 0x8000) (hb : ¬ Backed s a) :
    cpuRead a s = draw s := by
  unfold cpuRead cartRead
  rw [if_neg (by omega), if_neg (by omega), if_neg (by omega), if_neg (by omega), if_neg (by omega),
    if_neg (by omega : ¬ 0x8000 ≤ a.toNat), if_neg (not_workRam_of_not_backed h' hb), ite_self]

theorem cpuWrite_unbacked {a : Word} (d : Byte) {s : State} (h : 0x4018 ≤ a.toNat) (h' : a.toNat < 0x8000)
    (hb : ¬ Backed s a) : cpuWrite a d s = .next s := by
  unfold cpuWrite cartWrite
  rw [if_neg (by omega), if_neg (by omega), if_neg (by omega), if_neg (by omega), if_neg (by omega),
    if_neg (by omega : ¬ 0x8000 ≤ a.toNat), if_neg (not_workRam_of_not_backed h' hb), ite_self]

/-- The write-only PPU registers answer a draw (R282). -/
theorem ppuRegRead_writeOnly {r : Nat} (s : State) (h : r ∈ [0, 1, 3, 5, 6]) : ppuRegRead r s = draw s := by
  simp only [List.mem_cons, List.not_mem_nil, or_false] at h
  rcases h with rfl | rfl | rfl | rfl | rfl <;> rfl

/-- Settles O18: both accesses reach the RAM cell that the address has mod 0x800. -/
theorem ramMirrors : Obligations.RamMirrors := by
  intro a b d s ha hb
  refine ⟨cpuRead_ram s ha, writeRam a d s, cpuWrite_ram d s ha, rfl, ?_⟩
  rw [cpuRead_ram _ hb, cpuRead_ram _ hb]
  simp only [writeRam, Cells.read_write, ramCell, eq_comm]

/-- Settles O20: each kind of address nothing answers has its bus lemma. -/
theorem unansweredAddresses : Obligations.UnansweredAddresses := by
  intro a d s
  refine ⟨?_, ?_, fun ⟨h, h', hb⟩ => cpuWrite_unbacked d h h' hb⟩
  · rintro (⟨h, h', hr⟩ | ⟨h, h'⟩ | ⟨h, h', hb⟩)
    · rw [cpuRead_ppuReg s h h']
      exact ppuRegRead_writeOnly s hr
    · exact cpuRead_apu s h h'
    · exact cpuRead_unbacked h h' hb
  · intro h
    exact cpuWrite_apu d s (by omega) (by omega) (by omega) (by omega)

/-! Stores into ROM (R73). -/

theorem storeOp_rom {m : MemMode} (v : Byte) {s : State} (h : 0x8000 ≤ (ea m s).toNat) :
    storeOp m v s = .fault (.romWrite (ea m s) v) := by
  rw [storeOp, cpuWrite_rom _ _ _ h]
  rfl

/-- The byte of ROM is read without effect, the result is computed, and the write stops the machine. -/
theorem rmwOp_rom {m : MemMode} {v : Byte} {s : State} (result : Byte → State → Byte)
    (early late : Byte → State → State) (h : 0x8000 ≤ (ea m s).toNat) (hv : s.held (ea m s) = some v) :
    rmwOp m result early late s = .fault (.romWrite (ea m s) (result v s)) := by
  simp only [rmwOp, cpuRead_held hv, cpuWrite_rom _ _ _ h, mapNext]

theorem shiftMemory_rom {m : MemMode} {v : Byte} {s : State} (op : ShiftOp) (late : Byte → State → State)
    (h : 0x8000 ≤ (ea m s).toNat) (hv : s.held (ea m s) = some v) :
    shiftMemory op m late s = .fault (.romWrite (ea m s) (op.result v (s.flag .c))) :=
  rmwOp_rom _ _ late h hv

/-- Settles O19: the write itself is fatal there, and each storing form is one of three shapes that end in it. -/
theorem storesToRomStop : Obligations.StoresToRomStop := by
  refine ⟨fun a d s => ⟨cpuWrite_rom a d s, fun h => ?_⟩, fun m s v h hv => ?_⟩
  · obtain ⟨t, ht, -⟩ := cpuWrite_effect a d s h
    exact ⟨t, ht⟩
  · simp only [exec, execSta, execStx, execSty, execSax, execInc, execIsb, execDec, execDcp, execAsl, execSlo, execLsr,
      execSre, execRol, execRla, execRor, execRra, shiftOp, ShiftOp.result, storeOp_rom _ h, rmwOp_rom _ _ _ h hv,
      shiftMemory_rom _ _ h hv, and_self]

/-! The PRG banks (R92). -/

/-- One bank is 0x4000 bytes, so it repeats at 0xC000. -/
theorem prgOffset_add_bank {c : Cart} {a : Word} (hc : c.prgBanks = .one) (h : 0x8000 ≤ a.toNat)
    (h' : a.toNat < 0xC000) : c.prgOffset (a + 0x4000) = c.prgOffset a := by
  have hadd : (a + 0x4000).toNat = a.toNat + 0x4000 := by bv_omega
  simp only [Cart.prgOffset, hc, PrgBanks.count, hadd]
  omega

/-- Two banks fill the 0x8000 addresses one to one. -/
theorem prgOffset_two {c : Cart} (a : Word) (hc : c.prgBanks = .two) : c.prgOffset a = a.toNat - 0x8000 := by
  simp only [Cart.prgOffset, hc, PrgBanks.count]
  omega

/-- Settles O21: `cpuRead_keeps` has the frame, `cpuRead_held` the held bytes, `prgOffset` the banks. -/
theorem busReads : Obligations.BusReads := by
  intro a s
  have k := cpuRead_keeps a s
  refine ⟨k.memory, fun r _ => k.reg r, fun f _ => k.flag f, k.pc, fun v hv => cpuRead_held hv, ?_, ?_,
    fun _ => rfl, fun _ => rfl⟩
  · intro h hc h'
    rw [cpuRead_prg a s h, cpuRead_prg _ s (by bv_omega), Cart.prgByte, prgOffset_add_bank hc h h', ← Cart.prgByte]
  · intro h hc
    rw [cpuRead_prg a s h, Cart.prgByte, prgOffset_two a hc]

/-! The PPU bus, region by region (R100 to R102). -/

theorem ppuRead_pattern {a : Nat} (s : State) (h : a < 0x2000) : ppuRead a s = Cells.read s.cart.chr a := by
  have ha : a % 0x4000 = a := Nat.mod_eq_of_lt (by omega)
  simp only [ppuRead, ha, h, if_true]

theorem ppuRead_nametable {a : Nat} (s : State) (h : 0x2000 ≤ a) (h' : a < 0x3F00) :
    ppuRead a s = Cells.read s.ppu.nt (ntCell s.cart.mirroring a) := by
  have ha : a % 0x4000 = a := Nat.mod_eq_of_lt (by omega)
  simp only [ppuRead, ha, Nat.not_lt.mpr h, h', if_true, if_false]

theorem ppuRead_palette {a : Nat} (s : State) (h : 0x3F00 ≤ a) (h' : a < 0x4000) :
    ppuRead a s = (Cells.read s.ppu.pal (palIndex a)).setWidth 8 := by
  have ha : a % 0x4000 = a := Nat.mod_eq_of_lt h'
  simp only [ppuRead, ha, Nat.not_lt.mpr h, Nat.not_lt.mpr (Nat.le_trans (by decide : 0x2000 ≤ 0x3F00) h), if_false]

/-- Pattern memory is RAM where CHR is writable (D16). -/
theorem ppuWrite_pattern {a : Nat} (d : Byte) {s : State} (h : a < 0x2000) (hc : s.cart.chrWritable = true) :
    ppuWrite a d s = { s with cart := { s.cart with chr := Cells.write s.cart.chr a d } } := by
  have ha : a % 0x4000 = a := Nat.mod_eq_of_lt (by omega)
  simp only [ppuWrite, ha, h, hc, if_true]

theorem ppuWrite_pattern_readOnly {a : Nat} (d : Byte) {s : State} (h : a < 0x2000)
    (hc : s.cart.chrWritable = false) : ppuWrite a d s = s := by
  have ha : a % 0x4000 = a := Nat.mod_eq_of_lt (by omega)
  simp only [ppuWrite, ha, h, hc, if_true, Bool.false_eq_true, if_false]

theorem ppuWrite_nametable {a : Nat} (d : Byte) (s : State) (h : 0x2000 ≤ a) (h' : a < 0x3F00) :
    ppuWrite a d s = { s with ppu := { s.ppu with nt := Cells.write s.ppu.nt (ntCell s.cart.mirroring a) d } } := by
  have ha : a % 0x4000 = a := Nat.mod_eq_of_lt (by omega)
  simp only [ppuWrite, ha, Nat.not_lt.mpr h, h', if_true, if_false]

theorem ppuWrite_palette {a : Nat} (d : Byte) (s : State) (h : 0x3F00 ≤ a) (h' : a < 0x4000) :
    ppuWrite a d s = { s with ppu := { s.ppu with pal := Cells.write s.ppu.pal (palIndex a) (d.setWidth 6) } } := by
  have ha : a % 0x4000 = a := Nat.mod_eq_of_lt h'
  simp only [ppuWrite, ha, Nat.not_lt.mpr h, Nat.not_lt.mpr (Nat.le_trans (by decide : 0x2000 ≤ 0x3F00) h), if_false]

/-! The palette's mirrors (R104). -/

/-- Two palette addresses share an entry when they agree mod 32, or mod 16 at a backdrop entry. -/
theorem palIndex_eq_iff (a b : Nat) :
    palIndex b = palIndex a ↔ a % 32 = b % 32 ∨ (a % 4 = 0 ∧ b % 4 = 0 ∧ a % 16 = b % 16) := by
  simp only [palIndex]
  split <;> split <;> omega

/-- A palette entry holds the low six bits (D20). -/
theorem toNat_setWidth_six (d : Byte) : ((d.setWidth 6).setWidth 8).toNat = d.toNat % 0x40 := by
  simp only [BitVec.toNat_setWidth]
  omega

/-- Settles O51: the write reaches the cell `palIndex a`, and `palIndex_eq_iff` says which addresses read it. -/
theorem paletteMirrors : Obligations.PaletteMirrors := by
  intro a d s ha ha'
  refine ⟨fun b hb hb' => ?_, ?_⟩
  · rw [ppuRead_palette _ hb hb', ppuRead_palette _ hb hb', ppuWrite_palette d s ha ha']
    simp only [Cells.read_write, ← palIndex_eq_iff]
    split
    · exact toNat_setWidth_six d
    · rfl
  · simp [palIndex]

/-! The nametables' mirrors (R102, R103). -/

/-- The mirroring mode joins the slots of two nametable addresses. -/
def slotsJoined (mir : Mirroring) (a b : Nat) : Bool :=
  match mir with
  | .horizontal => a / 0x800 % 2 == b / 0x800 % 2
  | .vertical => a / 0x400 % 2 == b / 0x400 % 2
  | .singleLower => true
  | .singleUpper => true

theorem ntCell_eq (mir : Mirroring) (a : Nat) : ntCell mir a = 0x400 * mir.table (a / 0x400 % 4) + a % 0x400 := by
  rw [ntCell, Nat.shiftRight_eq_div_pow, show 3 = 2 ^ 2 - 1 from rfl, Nat.and_two_pow_sub_one_eq_mod]

/-- Two nametable addresses share a cell when they agree mod 0x400 and the mode joins their slots. -/
theorem ntCell_eq_iff (mir : Mirroring) (a b : Nat) :
    ntCell mir b = ntCell mir a ↔ a % 0x400 = b % 0x400 ∧ slotsJoined mir a b = true := by
  cases mir <;> simp only [ntCell_eq, Mirroring.table, slotsJoined, beq_iff_eq, and_true] <;> omega

/-! One region against another (R102). -/

theorem ppuRegion_pattern {a : Nat} (h : a < 0x2000) : ppuRegion a = 0 := if_pos h

theorem ppuRegion_nametable {a : Nat} (h : 0x2000 ≤ a) (h' : a < 0x3F00) : ppuRegion a = 1 := by
  rw [ppuRegion, if_neg (by omega), if_pos h']

theorem ppuRegion_palette {a : Nat} (h : 0x3F00 ≤ a) : ppuRegion a = 2 := by
  rw [ppuRegion, if_neg (by omega), if_neg (by omega)]

theorem ppuRegion_cases (a : Nat) : a < 0x2000 ∨ (0x2000 ≤ a ∧ a < 0x3F00) ∨ 0x3F00 ≤ a := by omega

/-- A write changes the memory of its own region only, and a read sees the memory of its own region only. -/
theorem ppuRead_ppuWrite_other_region {a b : Nat} (d : Byte) (s : State) (ha : a < 0x4000) (hb : b < 0x4000)
    (hab : ppuRegion a ≠ ppuRegion b) : ppuRead b (ppuWrite a d s) = ppuRead b s := by
  obtain h | ⟨h, h'⟩ | h := ppuRegion_cases a
  · cases hc : s.cart.chrWritable with
    | false => rw [ppuWrite_pattern_readOnly d h hc]
    | true =>
      rw [ppuWrite_pattern d h hc]
      obtain k | ⟨k, k'⟩ | k := ppuRegion_cases b
      · exact absurd ((ppuRegion_pattern h).trans (ppuRegion_pattern k).symm) hab
      · rw [ppuRead_nametable _ k k', ppuRead_nametable _ k k']
      · rw [ppuRead_palette _ k hb, ppuRead_palette _ k hb]
  · rw [ppuWrite_nametable d s h h']
    obtain k | ⟨k, k'⟩ | k := ppuRegion_cases b
    · rw [ppuRead_pattern _ k, ppuRead_pattern _ k]
    · exact absurd ((ppuRegion_nametable h h').trans (ppuRegion_nametable k k').symm) hab
    · rw [ppuRead_palette _ k hb, ppuRead_palette _ k hb]
  · rw [ppuWrite_palette d s h ha]
    obtain k | ⟨k, k'⟩ | k := ppuRegion_cases b
    · rw [ppuRead_pattern _ k, ppuRead_pattern _ k]
    · rw [ppuRead_nametable _ k k', ppuRead_nametable _ k k']
    · exact absurd ((ppuRegion_palette h).trans (ppuRegion_palette k).symm) hab

/-- Settles O52: region by region, with `ntCell_eq_iff` for the mirrors and the wrap built into both accesses. -/
theorem nametableMirrors : Obligations.NametableMirrors := by
  intro a b d s ha hb
  refine ⟨?_, ?_, fun h hc => ppuWrite_pattern_readOnly d h hc, ppuRead_ppuWrite_other_region d s ha hb,
    ppuWrite_cases a d s, ?_, ?_⟩
  · intro h h' k k'
    rw [ppuRead_nametable _ k k', ppuRead_nametable _ k k', ppuWrite_nametable d s h h']
    simp only [Cells.read_write, ntCell_eq_iff]
    rfl
  · intro h hc k
    rw [ppuRead_pattern _ k, ppuRead_pattern _ k, ppuWrite_pattern d h hc]
    exact Cells.read_write _ _ _ _
  · simp only [ppuWrite, Nat.add_mod_right]
  · simp only [ppuRead, Nat.add_mod_right]

end Sys2Proof.Machine

/-! The family `30_encoding.md`: the opcode table against the Encoding lines, in both directions, decoding and encoding from
that, the step as the decoded instruction's meaning, and the time a step takes. -/

namespace Sys2Proof

/-! The table's side: what the rules say of the instruction that a row makes (R124, R126, R127, R156). -/

/-- The instruction a row makes of its operand bytes; one that the row does not have counts as 0, as decode and fetch
have it (R122). -/
def Row.instr (r : Row) (ops : List Byte) : Instr := r.build (ops.getD 0 0) (ops.getD 1 0)

/-- What the rules R160 to R261 say of an instruction. -/
structure RuleFacts where
  wellFormed : Bool
  opcode     : Option Byte
  operands   : List Byte
  cycles     : Option Nat
  penalty    : Bool

def Instr.ruleFacts (i : Instr) : RuleFacts :=
  ⟨i.wellFormed, i.opcode, i.operandBytes, baseCycles i, paysPageCrossing i⟩

/-- What row `r`, of opcode byte `o`, says of the instruction it makes of `a` and `b`. -/
def Row.facts (r : Row) (o : Option Byte) (a b : Byte) : RuleFacts :=
  ⟨true, o, [a, b].take (r.length - 1), if r.mapped then some r.cycles else Option.none, r.penalty⟩

/-- Row by row, with the operand bytes left open and sixteen rows at a time; that the opcode byte is the row's own is
`opcode_build_zero`. -/
theorem table_ruleFacts (a b : Byte) : opcodeTable.map (fun r => (r.build a b).ruleFacts) =
    opcodeTable.map (fun r => r.facts (r.build 0 0).opcode a b) := by
  simp only [opcodeTable, List.map_append]
  rfl

theorem opcodeRow_mem (o : Byte) : opcodeRow o ∈ opcodeTable := by
  have hlen : opcodeTable.length = 256 := by
    simp only [opcodeTable, List.length_append]
    rfl
  have ho : o.toNat < opcodeTable.length := hlen ▸ o.isLt
  rw [opcodeRow, List.getD_eq_getElem _ _ ho]
  exact List.getElem_mem ho

/-- The position in the table is the opcode byte (R126). -/
theorem opcode_build_zero : ∀ o : Byte, ((opcodeRow o).build 0 0).opcode = some o := by
  have h : ∀ o : Fin 256, ((opcodeRow ⟨o⟩).build 0 0).opcode = some ⟨o⟩ := by decide +kernel
  exact fun o => h o.toFin

/-- One to three bytes (R124). -/
theorem row_length : ∀ o : Byte, 1 ≤ (opcodeRow o).length ∧ (opcodeRow o).length ≤ 3 := by
  have h : ∀ o : Fin 256, 1 ≤ (opcodeRow ⟨o⟩).length ∧ (opcodeRow ⟨o⟩).length ≤ 3 := by decide +kernel
  exact fun o => h o.toFin

/-- Every row agrees with the rules about the instruction it makes. -/
theorem ruleFacts_instr (o : Byte) (ops : List Byte) :
    ((opcodeRow o).instr ops).ruleFacts = (opcodeRow o).facts (some o) (ops.getD 0 0) (ops.getD 1 0) := by
  rw [Row.instr, List.map_inj_left.mp (table_ruleFacts _ _) _ (opcodeRow_mem o), opcode_build_zero]

theorem wellFormed_instr (o : Byte) (ops : List Byte) : ((opcodeRow o).instr ops).wellFormed = true :=
  congrArg RuleFacts.wellFormed (ruleFacts_instr o ops)

theorem opcode_instr (o : Byte) (ops : List Byte) : ((opcodeRow o).instr ops).opcode = some o :=
  congrArg RuleFacts.opcode (ruleFacts_instr o ops)

theorem baseCycles_instr (o : Byte) (ops : List Byte) :
    baseCycles ((opcodeRow o).instr ops) = if (opcodeRow o).mapped then some (opcodeRow o).cycles else none :=
  congrArg RuleFacts.cycles (ruleFacts_instr o ops)

theorem paysPageCrossing_instr (o : Byte) (ops : List Byte) :
    paysPageCrossing ((opcodeRow o).instr ops) = (opcodeRow o).penalty :=
  congrArg RuleFacts.penalty (ruleFacts_instr o ops)

/-- The bytes an instruction may have after its opcode byte, given how many the row counts (R124). -/
theorem operands_cases {o : Byte} {ops : List Byte} (h : (opcodeRow o).length = ops.length + 1) :
    ops = [] ∨ (∃ a, ops = [a]) ∨ ∃ a b, ops = [a, b] := by
  obtain ⟨-, h3⟩ := row_length o
  match ops with
  | [] => exact .inl rfl
  | [a] => exact .inr (.inl ⟨a, rfl⟩)
  | [a, b] => exact .inr (.inr ⟨a, b, rfl⟩)
  | _ :: _ :: _ :: _ => simp only [List.length_cons] at h; omega

/-- The instruction a row makes of as many operand bytes as it asks for has these operand bytes. -/
theorem operandBytes_instr {o : Byte} {ops : List Byte} (h : (opcodeRow o).length = ops.length + 1) :
    ((opcodeRow o).instr ops).operandBytes = ops := by
  have hops := congrArg RuleFacts.operands (ruleFacts_instr o ops)
  simp only [Instr.ruleFacts, Row.facts, h] at hops
  rw [hops]
  obtain rfl | ⟨a, rfl⟩ | ⟨a, b, rfl⟩ := operands_cases h <;> rfl

/-! The rules' side: the row that an instruction's own Encoding line names makes that instruction (R126). -/

/-- The rules give the instruction an opcode byte, and the row of that byte makes it of its operand bytes. -/
def Instr.InTable (i : Instr) : Prop := ∃ o, i.opcode = some o ∧ (opcodeRow o).instr i.operandBytes = i

/-- The memory mode of a kind with the operand bytes it takes of `a` and `b`. -/
def MemKind.mode (a b : Byte) : MemKind → MemMode
  | .zeroPage => .zeroPage a
  | .zeroPageX => .zeroPageX a
  | .zeroPageY => .zeroPageY a
  | .absolute => .absolute a b
  | .absoluteX => .absoluteX a b
  | .absoluteY => .absoluteY a b
  | .indirectX => .indirectX a
  | .indirectY => .indirectY a

theorem MemMode.mode_kind (m : MemMode) : m.kind.mode (m.operandBytes.getD 0 0) (m.operandBytes.getD 1 0) = m := by
  cases m <;> rfl

/-- An Encoding line that lists the kinds `ks`, and whose bytes have the rows that make `f` of their kind. -/
def LineInTable (f : MemMode → Instr) (line : List (MemKind × Byte)) (ks : List MemKind) : Prop :=
  line.map (fun e => (opcodeRow e.2).build) = line.map (fun e a b => f (e.1.mode a b)) ∧
  ks.all (line.map Prod.fst).contains = true

theorem MemMode.inTable {f : MemMode → Instr} {line : List (MemKind × Byte)} {ks : List MemKind} {m : MemMode}
    (hm : m.among ks = true) (hl : LineInTable f line ks) :
    ∃ o, m.opcodeIn line = some o ∧ (opcodeRow o).instr m.operandBytes = f m := by
  obtain ⟨hrows, hks⟩ := hl
  have hkind : (line.map Prod.fst).contains m.kind = true :=
    List.all_eq_true.mp hks m.kind (List.contains_iff_mem.mp hm)
  obtain ⟨o, ho⟩ : ∃ o, line.lookup m.kind = some o := by
    obtain ⟨e, he, hk⟩ := List.mem_map.mp (List.contains_iff_mem.mp hkind)
    exact Option.isSome_iff_exists.mp (List.lookup_isSome_iff.mpr ⟨e, he, beq_iff_eq.mpr hk.symm⟩)
  obtain ⟨l₁, l₂, hline, -⟩ := List.lookup_eq_some_iff.mp ho
  have hmem : (m.kind, o) ∈ line := hline ▸ List.mem_append_cons_self
  have hrow := List.map_inj_left.mp hrows (m.kind, o) hmem
  refine ⟨o, ho, ?_⟩
  rw [Row.instr, hrow]
  exact congrArg f m.mode_kind

theorem ReadMode.inTable {f : ReadMode → Instr} {imm : Byte} {line : List (MemKind × Byte)} {ks : List MemKind}
    {m : ReadMode} (hm : m.among ks = true) (hi : (opcodeRow imm).build = fun a _ => f (.immediate a))
    (hl : LineInTable (fun m => f (.mem m)) line ks) :
    ∃ o, m.opcodeIn imm line = some o ∧ (opcodeRow o).instr m.operandBytes = f m := by
  cases m with
  | immediate a => exact ⟨imm, rfl, by rw [Row.instr, hi]; rfl⟩
  | mem m => exact MemMode.inTable hm hl

theorem ShiftMode.inTable {f : ShiftMode → Instr} {acc : Byte} {line : List (MemKind × Byte)} {ks : List MemKind}
    {m : ShiftMode} (hm : m.among ks = true) (ha : (opcodeRow acc).build = fun _ _ => f .accumulator)
    (hl : LineInTable (fun m => f (.mem m)) line ks) :
    ∃ o, m.opcodeIn acc line = some o ∧ (opcodeRow o).instr m.operandBytes = f m := by
  cases m with
  | accumulator => exact ⟨acc, rfl, by rw [Row.instr, ha]⟩
  | mem m => exact MemMode.inTable hm hl

/-- R259's bytes, form by form. -/
theorem nopBytes_rows (m : NopMode) :
    (nopBytes m).map (fun o => (opcodeRow o).instr m.operandBytes) = (nopBytes m).map (.nopUndoc · m) := by
  cases m with
  | implied => rfl
  | immediate a => rfl
  | mem m => cases m <;> rfl

theorem unmappedBytes_rows : unmappedBytes.map (fun o => (opcodeRow o).instr []) = unmappedBytes.map .unmapped := rfl

theorem nopUndoc_inTable {o : Byte} {m : NopMode} (h : (nopBytes m).contains o = true) :
    (Instr.nopUndoc o m).InTable :=
  ⟨o, if_pos h, List.map_inj_left.mp (nopBytes_rows m) o (List.contains_iff_mem.mp h)⟩

theorem unmapped_inTable {o : Byte} (h : unmappedBytes.contains o = true) : (Instr.unmapped o).InTable :=
  ⟨o, if_pos h, List.map_inj_left.mp unmappedBytes_rows o (List.contains_iff_mem.mp h)⟩

/-- The instructions with memory forms go by their Encoding lines, the others have one row each. -/
theorem inTable_of_wellFormed {i : Instr} (h : i.wellFormed = true) : i.InTable := by
  cases i with
  | lda m | ldx m | ldy m | adc m | sbc m | and m | ora m | eor m | cmp m | cpx m | cpy m =>
    exact ReadMode.inTable h rfl ⟨rfl, rfl⟩
  | sta m | stx m | sty m | bit m | inc m | dec m | slo m | rla m | sre m | rra m | sax m | lax m | dcp m | isb m =>
    exact MemMode.inTable h ⟨rfl, rfl⟩
  | asl m | lsr m | rol m | ror m => exact ShiftMode.inTable h rfl ⟨rfl, rfl⟩
  | jmp m => cases m <;> exact ⟨_, rfl, rfl⟩
  | nopUndoc o m => exact nopUndoc_inTable h
  | unmapped o => exact unmapped_inTable h
  | _ => exact ⟨_, rfl, rfl⟩

/-! Decoding (R129). -/

/-- A row counts the opcode byte and the operand bytes of the instruction it makes (R124). -/
theorem row_length_of_instr {i : Instr} {o : Byte} (h : (opcodeRow o).instr i.operandBytes = i) :
    (opcodeRow o).length = i.operandBytes.length + 1 := by
  have hops := congrArg RuleFacts.operands (ruleFacts_instr o i.operandBytes)
  simp only [Instr.ruleFacts, Row.facts, h] at hops
  obtain ⟨h1, h3⟩ := row_length o
  rw [hops, List.length_take]
  simp only [List.length_cons, List.length_nil]
  omega

theorem decode_row {o : Byte} {ops : List Byte} (rest : List Byte) (h : (opcodeRow o).length = ops.length + 1) :
    decode (o :: (ops ++ rest)) = .ok ((opcodeRow o).instr ops, rest) := by
  obtain rfl | ⟨a, rfl⟩ | ⟨a, b, rfl⟩ := operands_cases h <;> simp [decode, h, Row.instr]

/-- Decoding answers what the row of the first byte makes of as many bytes after it as the row asks for. -/
theorem decode_eq_ok {bs rest : List Byte} {i : Instr} (h : decode bs = .ok (i, rest)) :
    ∃ o ops, bs = o :: (ops ++ rest) ∧ (opcodeRow o).length = ops.length + 1 ∧ i = (opcodeRow o).instr ops := by
  cases bs with
  | nil => cases h
  | cons o bs =>
    simp only [decode] at h
    split at h <;> cases h
    next hlen => exact ⟨o, [], rfl, hlen, rfl⟩
    next a hlen => exact ⟨o, [a], rfl, hlen, rfl⟩
    next a b hlen => exact ⟨o, [a, b], rfl, hlen, rfl⟩

theorem encode_of_opcode {i : Instr} {o : Byte} (h : i.opcode = some o) : encode i = o :: i.operandBytes := by
  simp only [encode, h]

/-- Settles O1: the encoding is an opcode byte and operand bytes; the row of that byte takes as many and makes the
instruction of them. -/
theorem decodeOfEncode : Obligations.DecodeOfEncode := by
  intro i rest hwf
  obtain ⟨o, ho, hi⟩ := inTable_of_wellFormed hwf
  calc decode (encode i ++ rest)
      = decode (o :: (i.operandBytes ++ rest)) := by rw [encode_of_opcode ho, List.cons_append]
    _ = .ok ((opcodeRow o).instr i.operandBytes, rest) := decode_row rest (row_length_of_instr hi)
    _ = .ok (i, rest) := by rw [hi]

/-- Settles O2: decoding answers what a row makes, and the rules give that instruction the row's byte and the bytes
taken. -/
theorem encodeOfDecode : Obligations.EncodeOfDecode := by
  intro bs rest i h
  obtain ⟨o, ops, rfl, hlen, rfl⟩ := decode_eq_ok h
  refine ⟨wellFormed_instr o ops, ?_⟩
  rw [encode_of_opcode (opcode_instr o ops), operandBytes_instr hlen, List.cons_append]

/-- Settles O3: the ten words are encodings. -/
theorem specWordsDecode : Obligations.SpecWordsDecode :=
  ⟨decodeOfEncode (.lda (.mem (.indirectY 0xFF))) [] rfl,
   decodeOfEncode (.sta (.absolute 0x14 0x40)) [] rfl,
   decodeOfEncode (.adc (.immediate 0x50)) [] rfl,
   decodeOfEncode (.rol (.mem (.absoluteX 0x34 0x12))) [] rfl,
   decodeOfEncode (.jmp (.indirect 0xFF 0x02)) [] rfl,
   decodeOfEncode (.bne 0xFC) [] rfl,
   decodeOfEncode .brk [0xEA] rfl,
   decodeOfEncode (.sax (.zeroPageY 0x10)) [] rfl,
   decodeOfEncode (.nopUndoc 0xFC (.mem (.absoluteX 0x00 0x20))) [] rfl,
   decodeOfEncode (.unmapped 0x02) [] rfl⟩

/-- The rules' base count is the row's, where the row is an instruction at all. -/
theorem baseCycles_of_instr {i : Instr} {o : Byte} (h : (opcodeRow o).instr i.operandBytes = i) :
    baseCycles i = if (opcodeRow o).mapped then some (opcodeRow o).cycles else none := by
  rw [← baseCycles_instr o i.operandBytes, h]

theorem row_of_baseCycles {i : Instr} {o : Byte} {c : Nat} (h : (opcodeRow o).instr i.operandBytes = i)
    (hc : baseCycles i = some c) : (opcodeRow o).mapped = true ∧ (opcodeRow o).cycles = c := by
  simpa [baseCycles_of_instr h] using hc

/-- Settles O4: the row of the instruction's byte makes the instruction, and every row agrees with the rules about what it
makes. -/
theorem tableAgreesWithRules : Obligations.TableAgreesWithRules := by
  intro i o hwf ho
  obtain ⟨o', ho', hi⟩ := inTable_of_wellFormed hwf
  obtain rfl : o' = o := Option.some.inj (ho'.symm.trans ho)
  refine ⟨?_, ?_, fun c hc => (row_of_baseCycles hi hc).2, ?_⟩
  · rw [encode_of_opcode ho, List.length_cons, row_length_of_instr hi]
  · rw [baseCycles_of_instr hi]
    cases (opcodeRow o').mapped <;> rfl
  · rw [← paysPageCrossing_instr o' i.operandBytes, hi]

end Sys2Proof

namespace Sys2Proof.Machine

/-! The step as the meaning of the bytes at `PC` (R122, R127, R261, R360). -/

/-- Fetching where memory holds an opcode byte of an instruction and the operand bytes its row asks for. -/
theorem fetch_bytes {s : State} {o : Byte} {ops : List Byte} (hm : (opcodeRow o).mapped = true)
    (hlen : (opcodeRow o).length = ops.length + 1)
    (h : ∀ k (hk : k < (o :: ops).length), s.held (s.cpu.pc + BitVec.ofNat 16 k) = some (o :: ops)[k]) :
    fetch s = ⟨(opcodeRow o).instr ops, (opcodeRow o).cycles,
      s.setPc (s.cpu.pc + BitVec.ofNat 16 (o :: ops).length)⟩ := by
  have h0 : s.held s.cpu.pc = some o := BitVec.add_zero s.cpu.pc ▸ h 0 (Nat.succ_pos _)
  have h1 : 2 ≤ (opcodeRow o).length → s.held (s.cpu.pc + 1) = some (ops.getD 0 0) := fun hl => by
    have hk : 0 < ops.length := by omega
    rw [List.getD_eq_getElem _ _ hk]
    exact h 1 (Nat.succ_lt_succ hk)
  have h2 : (opcodeRow o).length = 3 → s.held (s.cpu.pc + 2) = some (ops.getD 1 0) := fun hl => by
    have hk : 1 < ops.length := by omega
    rw [List.getD_eq_getElem _ _ hk]
    exact h 2 (Nat.succ_lt_succ hk)
  rw [fetch_held hm h0 h1 h2, hlen]
  obtain rfl | ⟨a, rfl⟩ | ⟨a, b, rfl⟩ := operands_cases hlen <;> rfl

theorem step_of_fetch {s : State} {f : Fetched} (h : fetch (pollInterrupts (startStep s)) = f) :
    step s = mapNext catchUp (exec f.instr (startInstr f.cycles f.state)) := by
  rw [← h]
  rfl

/-- Settles O5: the fetch gives the instruction, its base count and the state with `PC` past it. -/
theorem stepRunsDecodedInstruction : Obligations.StepRunsDecodedInstruction := by
  rintro s p i c hwf hc rfl hheld
  obtain ⟨o, ho, hi⟩ := inTable_of_wellFormed hwf
  obtain ⟨hmapped, rfl⟩ := row_of_baseCycles hi hc
  rw [encode_of_opcode ho] at hheld ⊢
  rw [step_of_fetch (fetch_bytes hmapped (row_length_of_instr hi) hheld), hi]
  rfl

/-- An unmapped byte reads no operand and leaves `PC` (R127, R261). -/
theorem fetch_unmapped {s : State} {o : Byte} (ho : o ∈ unmappedBytes) (h : s.held s.cpu.pc = some o) :
    (fetch s).instr = .unmapped o ∧ (fetch s).state = s := by
  have hi : (opcodeRow o).instr [] = .unmapped o := List.map_inj_left.mp unmappedBytes_rows o ho
  have hm : (opcodeRow o).mapped = false := by
    simpa [hi, baseCycles] using baseCycles_instr o []
  simp only [fetch, cpuRead_held h, hm, Bool.false_eq_true, if_false, and_true]
  exact hi

/-- Settles O6: the fetch leaves the state as it is, and the meaning of the byte is the fault. -/
theorem unmappedByteStops : Obligations.UnmappedByteStops := by
  refine ⟨fun _ _ => rfl, ?_⟩
  rintro s p o ho rfl h
  obtain ⟨hinstr, hstate⟩ := fetch_unmapped ho h
  rw [step_of_fetch rfl, hinstr, hstate]
  rfl

/-! Time (R34, R122, R301, R360). -/

/-- The CPU's own actions do not move the PPU. -/
theorem Keeps.dotNumber {s t : State} (k : Keeps s t) : dotNumber t.ppu = dotNumber s.ppu := by
  simp only [Machine.dotNumber, k.scanline, k.cycle, k.frame]

theorem count_apuTick_append {l m : List Output} (h : .apuTick ∉ m) : (l ++ m).count .apuTick = l.count .apuTick := by
  rw [List.count_append, List.count_eq_zero.mpr h, Nat.add_zero]

/-- The CPU's own actions emit register writes only (R366). -/
theorem Keeps.count_apuTick {s t : State} (k : Keeps s t) : t.out.count .apuTick = s.out.count .apuTick := by
  obtain ⟨l, hl, hwrites⟩ := k.out
  rw [hl]
  refine count_apuTick_append fun hmem => ?_
  obtain ⟨a, d, h⟩ := hwrites _ hmem
  cases h

/-- The dots emit frames only (R367). -/
theorem DotKeeps.count_apuTick {s t : State} (k : DotKeeps s t) : t.out.count .apuTick = s.out.count .apuTick := by
  obtain ⟨l, hl, hframes⟩ := k.out
  rw [hl]
  refine count_apuTick_append fun hmem => ?_
  obtain ⟨fb, h⟩ := hframes _ hmem
  cases h

/-- `s` with the cycles of its instruction counted and the APU ticked, before the dots (R360). -/
def State.counted (s : State) : State :=
  { s with cpu := { s.cpu with cyc := s.cpu.cyc + s.cycles }, out := s.out ++ List.replicate s.cycles .apuTick }

theorem catchUp_eq (s : State) : catchUp s = ppuSteps (3 * s.cycles) s.counted := rfl

theorem catchUp_keeps (s : State) : DotKeeps s.counted (catchUp s) := ppuSteps_keeps _ _

theorem catchUp_cycles (s : State) : (catchUp s).cycles = s.cycles := by
  have k := catchUp_keeps s
  simp only [State.cycles, k.c0, k.base, k.extra, k.dma]
  rfl

theorem catchUp_dotNumber (s : State) : dotNumber (catchUp s).ppu = dotNumber s.ppu + 3 * s.cycles := by
  rw [catchUp_eq, (ppuSteps_position _ _).1]
  push_cast
  rfl

theorem catchUp_cyc (s : State) : (catchUp s).cpu.cyc = s.cpu.cyc + s.cycles := by
  rw [(catchUp_keeps s).cpu]
  rfl

theorem catchUp_count_apuTick (s : State) :
    (catchUp s).out.count .apuTick = s.out.count .apuTick + s.cycles := by
  rw [(catchUp_keeps s).count_apuTick, State.counted, List.count_append, List.count_replicate_self]

/-- Settles O12: up to the end of the instruction nothing of the PPU's position, the cycle counter and the ticks has moved;
catching up moves them by the cycles, which it leaves as they are. -/
theorem dotsFollowCycles : Obligations.DotsFollowCycles := by
  intro s t h
  obtain ⟨s1, s2, s3, u, hinput, hout, hpoll, ⟨n, hn, hc0, c, hc2, hc8, hbase⟩, hdma, hfetch, hexec, hextra, rfl⟩ :=
    step_parts h
  have hdots : dotNumber u.ppu = dotNumber s.ppu := calc
    dotNumber u.ppu = dotNumber s3.ppu := hexec.dotNumber
    _ = dotNumber s2.ppu := hfetch.dotNumber
    _ = dotNumber s1.ppu := hpoll.dotNumber
    _ = dotNumber s.ppu := by rw [hinput.rest]
  have hcyc : u.cpu.cyc = s.cpu.cyc := calc
    u.cpu.cyc = s3.cpu.cyc := hexec.cyc
    _ = s2.cpu.cyc := hfetch.cyc
    _ = s1.cpu.cyc := hpoll.cyc
    _ = s.cpu.cyc := by rw [hinput.cpu]
  have hticks : u.out.count .apuTick = 0 := calc
    u.out.count .apuTick = s3.out.count .apuTick := hexec.count_apuTick
    _ = s2.out.count .apuTick := hfetch.count_apuTick
    _ = s1.out.count .apuTick := hpoll.count_apuTick
    _ = 0 := by rw [hout]; rfl
  have k := catchUp_keeps u
  have hc0' : (catchUp u).c0 = n := (k.c0.trans hexec.c0).trans hc0
  have hbase' : (catchUp u).base = c := (k.base.trans hexec.base).trans hbase
  rw [catchUp_cycles, catchUp_dotNumber, catchUp_cyc, catchUp_count_apuTick, hdots, hcyc, hticks, hc0', hbase', k.dma]
  refine ⟨rfl, rfl, Nat.zero_add _, hn, hc2, hc8, ?_, ?_⟩
  · rw [k.extra]
    exact hextra
  · rw [← hdma]
    exact hexec.dma

end Sys2Proof.Machine

/-! The family `40_addressing_modes.md`: the effective address of each memory mode as arithmetic, and page crossing as a
carry out of the low byte. -/

namespace Sys2Proof.Machine

/-! Words as numbers (R8). -/

theorem toNat_pair (h l : Byte) : (pair h l).toNat = h.toNat * 0x100 + l.toNat := by
  rw [pair, BitVec.toNat_append, ← Nat.shiftLeft_add_eq_or_of_lt l.isLt, Nat.shiftLeft_eq]

theorem toNat_zext16 (b : Byte) : (zext16 b).toNat = b.toNat :=
  BitVec.toNat_setWidth_of_le (by decide)

theorem toNat_hi (w : Word) : (hi w).toNat = w.toNat / 0x100 := by
  rw [hi, BitVec.extractLsb'_toNat, Nat.shiftRight_eq_div_pow]
  exact Nat.mod_eq_of_lt (Nat.div_lt_of_lt_mul w.isLt)

/-- Index sums wrap modulo 65536 (R148, R149, R152). -/
theorem toNat_pair_add_zext16 (h l x : Byte) :
    (pair h l + zext16 x).toNat = (h.toNat * 0x100 + l.toNat + x.toNat) % 0x10000 := by
  rw [BitVec.toNat_add, toNat_pair, toNat_zext16]

/-- The high byte changes exactly when the low byte carries, at the top of the address space too (R155). -/
theorem hi_ne_hi_add_iff (h l x : Byte) :
    (hi (pair h l) != hi (pair h l + zext16 x)) = true ↔ 0xFF < l.toNat + x.toNat := by
  have hh := h.isLt
  have hl := l.isLt
  have hx := x.isLt
  rw [bne_iff_ne, ne_eq, ← BitVec.toNat_inj, toNat_hi, toNat_hi, toNat_pair_add_zext16, toNat_pair]
  omega

/-! Bytes of page 0 (R151, R152). -/

theorem zeroPageByte_of_held {p b : Byte} {s : State} (h : s.held (BitVec.ofNat 16 p.toNat) = some b) :
    zeroPageByte p s = b := by
  rw [BitVec.ofNat_toNat] at h
  exact congrArg Prod.fst ((cpuRead_zeroPage p s).symm.trans (cpuRead_held h))

theorem zeroPageWord_of_held {p l h : Byte} {s : State} (hl : s.held (BitVec.ofNat 16 p.toNat) = some l)
    (hh : s.held (BitVec.ofNat 16 (p + 1).toNat) = some h) : zeroPageWord p s = pair h l := by
  rw [zeroPageWord, zeroPageByte_of_held hl, zeroPageByte_of_held hh]

/-! The two statements. -/

/-- Settles O22: sums of bytes wrap within page 0, sums of words at 65536, and the word a pointer designates is made of the
two bytes held. -/
theorem effectiveAddresses : Obligations.EffectiveAddresses := by
  intro op1 op2 s
  have hx : (op1 + s.cpu.x).toNat = (op1.toNat + s.cpu.x.toNat) % 0x100 := BitVec.toNat_add ..
  have hy : (op1 + s.cpu.y).toNat = (op1.toNat + s.cpu.y.toNat) % 0x100 := BitVec.toNat_add ..
  have hnext : ∀ p : Byte, (p + 1).toNat = (p.toNat + 1) % 0x100 := fun p => BitVec.toNat_add ..
  refine ⟨toNat_zext16 _, (toNat_zext16 _).trans hx, (toNat_zext16 _).trans hy, toNat_pair _ _,
    toNat_pair_add_zext16 _ _ _, toNat_pair_add_zext16 _ _ _, fun l h hl hh => ?_, fun l h hl hh => ?_⟩
  · have hw : zeroPageWord (op1 + s.cpu.x) s = pair h l :=
      zeroPageWord_of_held (by rwa [hx]) (by rwa [hnext, hx, Nat.mod_add_mod])
    rw [ea, hw, toNat_pair]
  · have hw : zeroPageWord op1 s = pair h l := zeroPageWord_of_held hl (by rwa [hnext])
    rw [ea, hw, toNat_pair_add_zext16]

/-- Settles O23: in the three modes the carry is `hi_ne_hi_add_iff`'s; the other five never cross; the penalty
is so by definition. -/
theorem pageCrossingIsLowByteCarry : Obligations.PageCrossingIsLowByteCarry := by
  intro op1 op2 s
  refine ⟨hi_ne_hi_add_iff _ _ _, hi_ne_hi_add_iff _ _ _, fun l hl => ?_, fun m hm => ?_, rfl, fun m => rfl⟩
  · rw [← zeroPageByte_of_held hl]
    exact hi_ne_hi_add_iff _ _ _
  · cases m with
    | absoluteX _ _ | absoluteY _ _ | indirectY _ => cases hm
    | zeroPage _ | zeroPageX _ | zeroPageY _ | absolute _ _ | indirectX _ => rfl

end Sys2Proof.Machine

/-! The family `41_load_store_transfer.md`: loads, stores, and the instructions that work on one register. -/

namespace Sys2Proof.Machine

/-! A value into a register, with `Z` and `N` from it (R27). -/

theorem setsZN_setZN (v : Byte) (s : State) : SetsZN v (s.setZN v) := by
  simp [SetsZN]

theorem SetsZN.setExtra {v : Byte} {s : State} (h : SetsZN v s) (n : Nat) : SetsZN v (s.setExtra n) := h

theorem CpuStep.setReg_setZN (s : State) (r : Reg) (v w : Byte) : CpuStep [r] [.z, .n] s ((s.setReg r v).setZN w) :=
  (CpuStep.setReg s r v).trans (CpuStep.setZN _ w)

theorem reg_setReg_setZN_setExtra (s : State) (r : Reg) (v w : Byte) (n : Nat) :
    (((s.setReg r v).setZN w).setExtra n).reg r = v := by
  rw [reg_setExtra, reg_setZN, reg_setReg, if_pos rfl]

/-- A read instruction that puts `f` of the operand, and of the state its read leaves, into register `r`. -/
theorem readOp_setReg_setZN (r : Reg) (f : Byte → State → Byte) (m : ReadMode) (s : State) :
    ∃ t, readOp m (fun v u => (u.setReg r (f v u)).setZN (f v u)) s = .next t ∧
      t.reg r = f (readOperand m s).1 (readOperand m s).2 ∧ SetsZN (f (readOperand m s).1 (readOperand m s).2) t ∧
      t.extra = penalty m s ∧ ReadFrame [r] [.z, .n] m s t :=
  ⟨_, rfl, reg_setReg_setZN_setExtra _ r _ _ _, (setsZN_setZN _ _).setExtra _, rfl,
    ((CpuStep.setReg_setZN _ r _ _).extra _).readFrame (cpu_pc_setReg _ r _)⟩

/-- An instruction that puts `f` of the state into register `r` and reads nothing. -/
theorem impliedOp_setReg_setZN (r : Reg) (f : State → Byte) (s : State) :
    ∃ t, impliedOp (fun u => (u.setReg r (f u)).setZN (f u)) s = .next t ∧ t.reg r = f s ∧ SetsZN (f s) t ∧
      t.cpu.pc = s.cpu.pc ∧ t.extra = 0 ∧ RegisterFrame [r] [.z, .n] s t :=
  ⟨_, rfl, reg_setReg_setZN_setExtra _ r _ _ _, (setsZN_setZN _ _).setExtra _, cpu_pc_setReg _ r _, rfl,
    ((CpuStep.setReg_setZN _ r _ _).extra _).registerFrame⟩

/-- `impliedOp_setReg_setZN` with the result as the number `n`. -/
theorem impliedOp_setReg_setZN_toNat (r : Reg) (f : State → Byte) {s : State} {n : Nat} (h : (f s).toNat = n) :
    ∃ t, impliedOp (fun u => (u.setReg r (f u)).setZN (f u)) s = .next t ∧ (t.reg r).toNat = n ∧ SetsZN (t.reg r) t ∧
      t.cpu.pc = s.cpu.pc ∧ t.extra = 0 ∧ RegisterFrame [r] [.z, .n] s t := by
  obtain ⟨t, ht, hr, hzn, hrest⟩ := impliedOp_setReg_setZN r f s
  exact ⟨t, ht, by rw [hr, h], by rwa [hr], hrest⟩

/-! The three statements. -/

/-- Settles O24: LDA, LDX and LDY put the operand itself into their register; LAX writes two registers from one read. -/
theorem loads : Obligations.Loads := by
  intro m k s
  refine ⟨readOp_setReg_setZN .a (fun v _ => v) m s, readOp_setReg_setZN .x (fun v _ => v) m s,
    readOp_setReg_setZN .y (fun v _ => v) m s, ?_⟩
  have hlax : ∀ (v : Byte) (u : State), CpuStep [.a, .x] [.z, .n] u (((u.setReg .a v).setReg .x v).setZN v) :=
    fun v u => (CpuStep.setReg u .a v).trans (CpuStep.setReg_setZN _ .x v v)
  exact ⟨_, rfl, rfl, rfl, (setsZN_setZN _ _).setExtra _, rfl, ((hlax _ _).extra _).readFrame rfl⟩

/-- Settles O25: nine of the ten put a value into a register with its flags, the four counting ones a sum or difference of bytes,
which wraps; TXS writes `SP` alone. -/
theorem registerInstructions : Obligations.RegisterInstructions := by
  intro s
  have hadd : ∀ b : Byte, (b + 1).toNat = (b.toNat + 1) % 0x100 := fun b => BitVec.toNat_add ..
  have hsub : ∀ b : Byte, (b - 1).toNat = (b.toNat + 0xFF) % 0x100 := fun b => by
    rw [BitVec.toNat_sub, Nat.add_comm]
    rfl
  exact ⟨impliedOp_setReg_setZN .x (·.cpu.a) s, impliedOp_setReg_setZN .y (·.cpu.a) s,
    impliedOp_setReg_setZN .a (·.cpu.x) s, impliedOp_setReg_setZN .a (·.cpu.y) s,
    impliedOp_setReg_setZN .x (·.cpu.sp) s,
    ⟨_, rfl, rfl, rfl, rfl, ((CpuStep.setReg s .sp _).extra 0).registerFrame⟩,
    impliedOp_setReg_setZN_toNat .x (·.cpu.x + 1) (hadd _), impliedOp_setReg_setZN_toNat .y (·.cpu.y + 1) (hadd _),
    impliedOp_setReg_setZN_toNat .x (·.cpu.x - 1) (hsub _), impliedOp_setReg_setZN_toNat .y (·.cpu.y - 1) (hsub _)⟩

/-- Settles O26: each of the four is one store of its value, whose effect below 0x8000 `storeOp_frame` gives. -/
theorem stores : Obligations.Stores :=
  fun m s ha => ⟨storeOp_frame m s.cpu.a s ha, storeOp_frame m s.cpu.x s ha, storeOp_frame m s.cpu.y s ha,
    storeOp_frame m (s.cpu.a &&& s.cpu.x) s ha⟩

end Sys2Proof.Machine

/-! The family `42_arithmetic_logic.md`: ADC and SBC as sums of numbers, the operations on `A`, comparisons, and the steps of a
memory byte. -/

namespace Sys2Proof.Machine

/-! The adder (R181, R182): its bytes as numbers, its overflow as signs. -/

theorem toNat_adcResult (a m : Byte) (c : Bool) :
    (adcResult a m c).toNat = (a.toNat + m.toNat + c.toNat) % 0x100 :=
  BitVec.toNat_ofNat _ 8

theorem toNat_sbcResult (a m : Byte) (c : Bool) :
    ((sbcResult a m c).toNat : Int) = ((a.toNat : Int) - m.toNat - (1 - c.toNat)) % 0x100 := by
  rw [sbcResult, BitVec.toNat_ofInt]
  exact Int.toNat_of_nonneg (Int.emod_nonneg _ (by decide))

theorem sbcCarry_eq (a m : Byte) (c : Bool) : sbcCarry a m c = decide (m.toNat + 1 ≤ a.toNat + c.toNat) := by
  rw [sbcCarry, decide_eq_decide, sbcDiff]
  omega

theorem and_sign (b : Byte) : b &&& 0x80 = if b.msb then 0x80 else 0 := by
  rw [BitVec.msb_eq_getLsbD_last]
  exact BitVec.and_twoPow b 7

theorem adcOverflow_eq (a m r : Byte) : adcOverflow a m r = (!(a.msb ^^ m.msb) && (a.msb ^^ r.msb)) := by
  rw [adcOverflow, and_sign, and_sign, BitVec.msb_xor, BitVec.msb_xor]
  cases a.msb ^^ m.msb <;> cases a.msb ^^ r.msb <;> rfl

theorem sbcOverflow_eq (a m r : Byte) : sbcOverflow a m r = ((a.msb ^^ m.msb) && (a.msb ^^ r.msb)) := by
  rw [sbcOverflow, and_sign, and_sign, BitVec.msb_xor, BitVec.msb_xor]
  cases a.msb ^^ m.msb <;> cases a.msb ^^ r.msb <;> rfl

/-- `V` is signed overflow: operands of one sign have a sum outside the signed range when the result has the other sign,
operands of different signs never have (R181). -/
theorem adcOverflow_iff (a m : Byte) (c : Bool) :
    adcOverflow a m (adcResult a m c) = true ↔
      a.toInt + m.toInt + c.toNat < -128 ∨ 127 < a.toInt + m.toInt + c.toNat := by
  have ha := a.isLt
  have hm := m.isLt
  have hc := c.toNat_le
  have hr := toNat_adcResult a m c
  rw [adcOverflow_eq, BitVec.toInt_eq_toNat_cond, BitVec.toInt_eq_toNat_cond]
  simp only [BitVec.msb_eq_decide, hr, Bool.and_eq_true, Bool.not_eq_true', bne_eq_false_iff_eq, bne_iff_ne, ne_eq,
    decide_eq_decide]
  -- one case for each pair of operand signs
  split <;> split <;> omega

/-! SBC is ADC of the complement (R180, R182). -/

theorem xor_ones (m : Byte) : m ^^^ 0xFF = ~~~m := BitVec.xor_allOnes

theorem toNat_xor_ones (m : Byte) : (m ^^^ 0xFF).toNat = 0xFF - m.toNat := by
  rw [xor_ones, BitVec.toNat_not]

theorem sbcResult_eq_adcResult (a m : Byte) (c : Bool) : sbcResult a m c = adcResult a (m ^^^ 0xFF) c := by
  have hm := m.isLt
  have hs := toNat_sbcResult a m c
  have ha := toNat_adcResult a (m ^^^ 0xFF) c
  rw [toNat_xor_ones] at ha
  exact BitVec.eq_of_toNat_eq (by omega)

theorem sbcCarry_eq_adcCarry (a m : Byte) (c : Bool) : sbcCarry a m c = adcCarry a (m ^^^ 0xFF) c := by
  have hm := m.isLt
  rw [sbcCarry_eq, adcCarry, adcSum, toNat_xor_ones, decide_eq_decide]
  omega

theorem sbcOverflow_eq_adcOverflow (a m r : Byte) : sbcOverflow a m r = adcOverflow a (m ^^^ 0xFF) r := by
  rw [sbcOverflow_eq, adcOverflow_eq, xor_ones, BitVec.msb_not]
  cases a.msb <;> cases m.msb <;> rfl

theorem subFromA_eq_addToA (s : State) (m : Byte) : s.subFromA m = s.addToA (m ^^^ 0xFF) := by
  simp only [State.subFromA, State.addToA, sbcResult_eq_adcResult, sbcCarry_eq_adcCarry, sbcOverflow_eq_adcOverflow]

/-! What ADC and SBC leave in `A` and the flags. -/

theorem toNat_cpu_a_addToA (s : State) (m : Byte) :
    (s.addToA m).cpu.a.toNat = (s.cpu.a.toNat + m.toNat + (s.flag .c).toNat) % 0x100 :=
  toNat_adcResult _ _ _

theorem flag_c_addToA (s : State) (m : Byte) :
    (s.addToA m).flag .c = decide (0xFF < s.cpu.a.toNat + m.toNat + (s.flag .c).toNat) :=
  flag_addToA s m .c

theorem flag_v_addToA (s : State) (m : Byte) : (s.addToA m).flag .v = adcOverflow s.cpu.a m (s.addToA m).cpu.a :=
  flag_addToA s m .v

theorem setsZN_addToA (s : State) (m : Byte) : SetsZN (s.addToA m).cpu.a (s.addToA m) := setsZN_setZN _ _

theorem toNat_cpu_a_subFromA (s : State) (m : Byte) :
    ((s.subFromA m).cpu.a.toNat : Int) = ((s.cpu.a.toNat : Int) - m.toNat - (1 - (s.flag .c).toNat)) % 0x100 :=
  toNat_sbcResult _ _ _

theorem flag_c_subFromA (s : State) (m : Byte) :
    (s.subFromA m).flag .c = decide (m.toNat + 1 ≤ s.cpu.a.toNat + (s.flag .c).toNat) :=
  (flag_subFromA s m .c).trans (sbcCarry_eq _ _ _)

theorem flag_v_subFromA (s : State) (m : Byte) :
    (s.subFromA m).flag .v = sbcOverflow s.cpu.a m (s.subFromA m).cpu.a :=
  flag_subFromA s m .v

theorem setsZN_subFromA (s : State) (m : Byte) : SetsZN (s.subFromA m).cpu.a (s.subFromA m) := setsZN_setZN _ _

/-! The shapes several instructions of the family share. -/

theorem reg_readOperand (m : ReadMode) (s : State) (r : Reg) : (readOperand m s).2.reg r = s.reg r :=
  (readOperand_keeps m s).reg r

theorem flag_readOperand (m : ReadMode) (s : State) (f : Flag) : (readOperand m s).2.flag f = s.flag f :=
  (readOperand_keeps m s).flag f

/-- `A` combined with the operand by `f` (R183 to R185). -/
theorem readOp_combineA (f : Byte → Byte → Byte) (m : ReadMode) (s : State) :
    ∃ t, readOp m (fun v u => (u.setReg .a (f u.cpu.a v)).setZN (f u.cpu.a v)) s = .next t ∧
      t.cpu.a = f s.cpu.a (readOperand m s).1 ∧ SetsZN t.cpu.a t ∧ t.extra = penalty m s ∧
      ReadFrame [.a] [.z, .n] m s t := by
  obtain ⟨t, ht, ha, hzn, hrest⟩ := readOp_setReg_setZN .a (fun v u => f u.cpu.a v) m s
  have hu : (readOperand m s).2.cpu.a = s.cpu.a := reg_readOperand m s .a
  rw [← ha] at hzn
  exact ⟨t, ht, ha.trans (by rw [hu]), hzn, hrest⟩

/-- Register `r` compared with the operand (R186): what follows the one read, with `n` extra cycles. -/
theorem compare_operand (r : Reg) (m : ReadMode) (n : Nat) (s : State) :
    ∃ t, (.next (((readOperand m s).2.compare ((readOperand m s).2.reg r) (readOperand m s).1).setExtra n) : Result) =
        .next t ∧
      t.flag .c = decide ((readOperand m s).1.toNat ≤ (s.reg r).toNat) ∧ t.flag .z = (s.reg r == (readOperand m s).1) ∧
      t.flag .n = (s.reg r - (readOperand m s).1).getLsbD 7 ∧ t.extra = n ∧ ReadFrame [] [.c, .z, .n] m s t := by
  rw [← reg_readOperand m s r]
  exact ⟨_, rfl, flag_compare _ _ _ .c, flag_compare _ _ _ .z, flag_compare _ _ _ .n, rfl,
    ((CpuStep.compare _ _ _).extra n).readFrame rfl⟩

/-- A memory byte replaced by `f` of it, `Z` and `N` from the byte written (R190, R191). -/
theorem rmwOp_setZN (f : Byte → Byte) {m : MemMode} {s : State} {v : Byte} (ha : (ea m s).toNat < 0x8000)
    (hv : v = (cpuRead (ea m s) s).1) :
    ∃ t, rmwOp m (fun b _ => f b) (fun _ u => u) (fun b u => u.setZN b) s = .next t ∧ SetsZN (f v) t ∧
      ModifyFrame [] [.z, .n] (ea m s) (f v) s t := by
  subst hv
  obtain ⟨w, -, -, ht, hframe⟩ := rmwOp_frame m (fun b _ => f b) (fun b u => u.setZN b) (fun _ u => u) s ha
    (fun _ u => ⟨u.cpu.p, rfl⟩) (fun _ _ _ _ => rfl) (fun b u => CpuStep.setZN u b) (fun _ _ => rfl)
  exact ⟨_, ht, (setsZN_setZN _ w).setExtra 0, hframe⟩

/-! The six statements. -/

/-- Settles O27: the operand's read leaves `A` and `C` as they were, and `addToA` adds them and the operand. -/
theorem addWithCarry : Obligations.AddWithCarry := by
  intro m s
  have ha : (readOperand m s).2.cpu.a = s.cpu.a := reg_readOperand m s .a
  rw [← ha, ← flag_readOperand m s .c]
  exact ⟨_, rfl, toNat_cpu_a_addToA _ _, flag_c_addToA _ _, flag_v_addToA _ _, (setsZN_addToA _ _).setExtra _, rfl,
    ((CpuStep.addToA _ _).extra _).readFrame rfl⟩

/-- Settles O28: the operand's read leaves `A` and `C` as they were, and `subFromA` takes the operand and the borrow from
them; both encodings are one operation. -/
theorem subtractWithBorrow : Obligations.SubtractWithBorrow := by
  intro m op1 s
  have ha : (readOperand m s).2.cpu.a = s.cpu.a := reg_readOperand m s .a
  rw [← ha, ← flag_readOperand m s .c]
  exact ⟨⟨_, rfl, toNat_cpu_a_subFromA _ _, flag_c_subFromA _ _, flag_v_subFromA _ _, (setsZN_subFromA _ _).setExtra _,
    rfl, ((CpuStep.subFromA _ _).extra _).readFrame rfl⟩, rfl⟩

/-- Settles O29: `adcOverflow_iff` for the flag, `subFromA_eq_addToA` for the complement. -/
theorem signedOverflow : Obligations.SignedOverflow := by
  refine ⟨fun m s t h => ?_, fun op1 s => ?_⟩
  · obtain rfl := Host.Outcome.next.inj h
    have ha : (readOperand m s).2.cpu.a = s.cpu.a := reg_readOperand m s .a
    rw [← ha, ← flag_readOperand m s .c, flag_setExtra, flag_v_addToA]
    exact adcOverflow_iff _ _ _
  · exact congrArg (fun u : State => (.next (u.setExtra 0) : Result)) (subFromA_eq_addToA s op1)

/-- Settles O30: each of the three combines `A` with the operand. -/
theorem logic : Obligations.Logic :=
  fun m s => ⟨readOp_combineA (· &&& ·) m s, readOp_combineA (· ||| ·) m s, readOp_combineA (· ^^^ ·) m s⟩

/-- Settles O31: BIT tests `A`, which its read leaves as it was; the other three compare a register with the operand, and
only CMP pays the crossing cycle. -/
theorem comparesAndBitTest : Obligations.ComparesAndBitTest := by
  intro m k s
  refine ⟨?_, compare_operand .a m (penalty m s) s, compare_operand .x m 0 s, compare_operand .y m 0 s⟩
  have ha : (cpuRead (ea k s) s).2.cpu.a = s.cpu.a := reg_readOperand (.mem k) s .a
  rw [← ha]
  exact ⟨_, rfl, flag_bitTest _ _ .z, flag_bitTest _ _ .n, flag_bitTest _ _ .v, rfl,
    ((CpuStep.bitTest _ _).extra 0).readFrame rfl⟩

/-- Settles O32: both replace the byte at the effective address by a neighbour of it. -/
theorem memorySteps : Obligations.MemorySteps :=
  fun _ _ _ ha hv => ⟨rmwOp_setZN (· + 1) ha hv, rmwOp_setZN (· - 1) ha hv⟩

end Sys2Proof.Machine

/-! The family `43_shift_rotate.md`: the shifts and rotates by one bit, of the accumulator and of memory. -/

namespace Sys2Proof.Machine

/-! The results by value (R200 to R203). -/

theorem toNat_result_asl (b : Byte) (c : Bool) : (ShiftOp.asl.result b c).toNat = (2 * b.toNat) % 0x100 := by
  rw [ShiftOp.result, BitVec.toNat_shiftLeft, Nat.shiftLeft_eq, Nat.mul_comm]

theorem toNat_result_lsr (b : Byte) (c : Bool) : (ShiftOp.lsr.result b c).toNat = b.toNat / 2 :=
  BitVec.toNat_ushiftRight b 1

/-- The doubled byte leaves bit 0 free for the carry. -/
theorem toNat_result_rol (b : Byte) (c : Bool) :
    (ShiftOp.rol.result b c).toNat = (2 * b.toNat + c.toNat) % 0x100 := by
  have hc : (if c then 0x01#8 else 0x00#8).toNat = c.toNat := by cases c <;> rfl
  have hb : (b <<< 1).toNat = 2 ^ 1 * (b.toNat % 0x80) :=
    (toNat_result_asl b c).trans (Nat.mul_mod_mul_left 2 b.toNat 0x80)
  have hlt : c.toNat < 2 ^ 1 := c.toNat_lt
  rw [ShiftOp.result, BitVec.toNat_or, hc, hb, ← Nat.two_pow_add_eq_or_of_lt hlt]
  omega

/-- The halved byte leaves bit 7 free for the carry. -/
theorem toNat_result_ror (b : Byte) (c : Bool) :
    (ShiftOp.ror.result b c).toNat = b.toNat / 2 + 0x80 * c.toNat := by
  have hc : (if c then 0x80#8 else 0x00#8).toNat = 2 ^ 7 * c.toNat := by cases c <;> rfl
  have hb : (b >>> 1).toNat = b.toNat / 2 := toNat_result_lsr b c
  have hlt : b.toNat / 2 < 2 ^ 7 := Nat.div_lt_of_lt_mul b.isLt
  rw [ShiftOp.result, BitVec.toNat_or, hc, hb, Nat.or_comm, ← Nat.two_pow_add_eq_or_of_lt hlt, Nat.add_comm]

/-! The two operand forms, whatever the operation; `n` is its result as a number. -/

/-- A shift of the accumulator: `C` first, then `A` with `Z` and `N` from it, which leaves `C` alone. -/
theorem shiftOp_accumulator {op : ShiftOp} {s : State} {n : Nat} (h : (op.result s.cpu.a (s.flag .c)).toNat = n) :
    ∃ t, shiftOp op .accumulator s = .next t ∧ t.cpu.a.toNat = n ∧ t.flag .c = op.carry s.cpu.a ∧ SetsZN t.cpu.a t ∧
      t.cpu.pc = s.cpu.pc ∧ t.extra = 0 ∧ RegisterFrame [.a] [.c, .z, .n] s t := by
  have hcarry := CpuStep.setFlag s .c (op.carry s.cpu.a)
  have hresult := CpuStep.setReg_setZN (s.setFlag .c (op.carry s.cpu.a)) .a (op.result s.cpu.a (s.flag .c))
    (op.result s.cpu.a (s.flag .c))
  exact ⟨_, rfl, h, (hresult.flags .c (by decide)).trans (flag_setFlag s .c .c _), (setsZN_setZN _ _).setExtra 0, rfl,
    rfl, ((hcarry.trans hresult).extra 0).registerFrame⟩

/-- A shift of memory below 0x8000: the byte written, and the state `w`, with `C` the bit shifted out, that `late` works
on. -/
theorem shiftMemory_frame (op : ShiftOp) {m : MemMode} {s : State} {v : Byte} (late : Byte → State → State)
    {rs : List Reg} {fs : List Flag} (ha : (ea m s).toNat < 0x8000) (hv : v = (cpuRead (ea m s) s).1) (hfs : .c ∈ fs)
    (hl : ∀ b t, CpuStep rs fs t (late b t)) (hpc : ∀ b t, (late b t).cpu.pc = t.cpu.pc) :
    ∃ w, (∀ r, w.reg r = s.reg r) ∧ w.flag .c = op.carry v ∧
      shiftMemory op m late s = .next ((late (op.result v (s.flag .c)) w).setExtra 0) ∧
      ModifyFrame rs fs (ea m s) (op.result v (s.flag .c)) s
        ((late (op.result v (s.flag .c)) w).setExtra 0) := by
  subst hv
  have hc : (cpuRead (ea m s) s).2.flag .c = s.flag .c := flag_readOperand (.mem m) s .c
  obtain ⟨w, hreg, hflag, ht, hframe⟩ := rmwOp_frame m (fun b t => op.result b (t.flag .c)) late
    (fun b t => t.setFlag .c (op.carry b)) s ha (fun _ _ => ⟨_, rfl⟩)
    (fun b t f hf => (CpuStep.setFlag t .c (op.carry b)).flags f fun h => hf (List.mem_singleton.mp h ▸ hfs)) hl hpc
  rw [hc] at ht hframe
  exact ⟨w, hreg, (hflag .c).trans (flag_setFlag _ .c .c _), ht, hframe⟩

/-- ASL, LSR, ROL, ROR of memory only set `Z` and `N` after the write, which leaves `C` alone. -/
theorem shiftOp_mem {op : ShiftOp} {m : MemMode} {s : State} {v : Byte} {n : Nat} (ha : (ea m s).toNat < 0x8000)
    (hv : v = (cpuRead (ea m s) s).1) (h : (op.result v (s.flag .c)).toNat = n) :
    ∃ r t, shiftOp op (.mem m) s = .next t ∧ r.toNat = n ∧ t.flag .c = op.carry v ∧ SetsZN r t ∧
      ModifyFrame [] [.c, .z, .n] (ea m s) r s t := by
  obtain ⟨w, -, hc, ht, hframe⟩ := shiftMemory_frame op (fun b t => t.setZN b) (rs := []) (fs := [.c, .z, .n]) ha hv
    List.mem_cons_self (fun b t => (CpuStep.setZN t b).weaken (fun _ => id) fun _ => List.mem_cons_of_mem _)
    (fun _ _ => rfl)
  exact ⟨_, _, ht, h, (flag_setZN w _ .c).trans hc, (setsZN_setZN _ w).setExtra 0, hframe⟩

/-! The two statements. -/

/-- Settles O33: one operand form for the four operations, each with its own result by value. -/
theorem accumulatorShifts : Obligations.AccumulatorShifts :=
  fun _ => ⟨shiftOp_accumulator (toNat_result_asl _ _), shiftOp_accumulator (toNat_result_lsr _ _),
    shiftOp_accumulator (toNat_result_rol _ _), shiftOp_accumulator (toNat_result_ror _ _)⟩

/-- Settles O34: the same four results, of the byte read. -/
theorem memoryShifts : Obligations.MemoryShifts :=
  fun _ _ _ ha hv => ⟨shiftOp_mem ha hv (toNat_result_asl _ _), shiftOp_mem ha hv (toNat_result_lsr _ _),
    shiftOp_mem ha hv (toNat_result_rol _ _), shiftOp_mem ha hv (toNat_result_ror _ _)⟩

end Sys2Proof.Machine

/-! The family `44_control_flow.md`: jumps, subroutine call and return, branches. -/

namespace Sys2Proof.Machine

/-! Words as pairs of bytes (R8). -/

theorem hi_pair (h l : Byte) : hi (pair h l) = h := BitVec.extractLsb'_append_eq_left

theorem lo_pair (h l : Byte) : lo (pair h l) = l := BitVec.extractLsb'_append_eq_right

theorem pair_hi_lo (w : Word) : pair (hi w) (lo w) = w :=
  (BitVec.extractLsb'_append_extractLsb'_eq_extractLsb' rfl).trans BitVec.extractLsb'_eq_self

/-! Pushes (R30, R32): the slots they write and their frame. -/

theorem held_push_slot (v : Byte) (s : State) : (push v s).held (stackAddr s.cpu.sp) = some v := by
  rw [held_push, if_pos ⟨stackAddr_lt _, rfl⟩]

theorem held_push_other_slot {sp : Byte} (v : Byte) {s : State} (h : sp ≠ s.cpu.sp) :
    (push v s).held (stackAddr sp) = s.held (stackAddr sp) := by
  rw [held_push, if_neg fun hslot => h ((ramCell_stackAddr sp s.cpu.sp).mp hslot.2)]

theorem held_pushWord_high (w : Word) (s : State) : (pushWord w s).held (stackAddr s.cpu.sp) = some (hi w) := by
  have hne : s.cpu.sp ≠ s.cpu.sp - 1 := by bv_omega
  exact (held_push_other_slot (s := push (hi w) s) (lo w) hne).trans (held_push_slot (hi w) s)

theorem held_pushWord_low (w : Word) (s : State) : (pushWord w s).held (stackAddr (s.cpu.sp - 1)) = some (lo w) :=
  held_push_slot (lo w) (push (hi w) s)

theorem cpu_sp_pushWord (w : Word) (s : State) : (pushWord w s).cpu.sp = s.cpu.sp - 2 :=
  BitVec.sub_sub s.cpu.sp 1 1

/-- Two operations one after the other, the second with stack addresses of its own. -/
theorem StackFrame.trans {rs rs' : List Reg} {fs fs' : List Flag} {l l' : List Word} {s t u : State}
    (h : StackFrame rs fs l s t) (k : StackFrame rs' fs' l' t u) : StackFrame (rs ++ rs') (fs ++ fs') (l ++ l') s u where
  regs := fun r hr => by
    simp only [List.mem_cons, List.mem_append, not_or] at hr
    obtain ⟨hsp, hrs, hrs'⟩ := hr
    exact (k.regs r (by simp [hsp, hrs'])).trans (h.regs r (by simp [hsp, hrs]))
  flags := fun f hf => by
    simp only [List.mem_append, not_or] at hf
    exact (k.flags f hf.2).trans (h.flags f hf.1)
  memory := fun b hb => (k.memory b fun a ha => hb a (List.mem_append_right l ha)).trans
    (h.memory b fun a ha => hb a (List.mem_append_left l' ha))
  ppu := fun b => (k.ppu b).trans (h.ppu b)
  oam := fun i => (k.oam i).trans (h.oam i)
  rest := by
    have hrest := h.rest
    have krest := k.rest
    unfold OnlyCpu at *
    rw [krest, hrest]
  cyc := k.cyc.trans h.cyc

/-- An operation on the CPU registers pushes nothing. -/
theorem CpuStep.stackFrame {rs : List Reg} {fs : List Flag} {s t : State} (h : CpuStep rs fs s t) :
    StackFrame rs fs [] s t where
  regs := fun r hr => h.regs r (List.not_mem_of_not_mem_cons hr)
  flags := h.flags
  memory := fun b _ => h.rest.memory.cpu b
  ppu := h.rest.memory.ppu
  oam := h.rest.memory.oam
  rest := by
    have hrest := h.rest
    unfold OnlyCpu at *
    rw [hrest]
  cyc := h.cyc

theorem push_stackFrame (v : Byte) (s : State) : StackFrame [] [] [stackAddr s.cpu.sp] s (push v s) where
  regs := (CpuStep.setReg (writeRam (stackAddr s.cpu.sp) v s) .sp (s.cpu.sp - 1)).regs
  flags := fun _ _ => rfl
  memory := fun b hb => by
    have hslot : ¬ (b.toNat < 0x2000 ∧ ramCell b = ramCell (stackAddr s.cpu.sp)) :=
      fun h => hb _ List.mem_cons_self (.inr ⟨stackAddr_lt _, h.1, h.2.symm⟩)
    rw [held_push, if_neg hslot]
  ppu := ppuRead_congr rfl rfl rfl rfl
  oam := fun _ => rfl
  rest := rfl
  cyc := rfl

theorem pushWord_stackFrame (w : Word) (s : State) :
    StackFrame [] [] [stackAddr s.cpu.sp, stackAddr (s.cpu.sp - 1)] s (pushWord w s) :=
  (push_stackFrame (hi w) s).trans (push_stackFrame (lo w) (push (hi w) s))

/-! Pulls (R31, R32). -/

/-- A word pulled is the two bytes held above `SP`, the low one first. -/
theorem pullWord_held {s : State} {l h : Byte} (hl : s.held (stackAddr (s.cpu.sp + 1)) = some l)
    (hh : s.held (stackAddr (s.cpu.sp + 2)) = some h) : pullWord s = (pair h l, s.setReg .sp (s.cpu.sp + 2)) := by
  have hsp : s.cpu.sp + 1 + 1 = s.cpu.sp + 2 := BitVec.add_assoc s.cpu.sp 1 1
  have hh' : (s.setReg .sp (s.cpu.sp + 1)).held (stackAddr (s.cpu.sp + 1 + 1)) = some h := hsp ▸ hh
  have hpull : pull (s.setReg .sp (s.cpu.sp + 1)) = (h, s.setReg .sp (s.cpu.sp + 1 + 1)) := pull_held hh'
  rw [pullWord, pull_held hl, hpull, hsp]

/-! Jumps: `PC` and the extra cycles change, nothing else; the pointer of JMP (R150). -/

theorem CpuStep.setPc_setExtra (s : State) (w : Word) (n : Nat) : CpuStep [] [] s ((s.setPc w).setExtra n) :=
  (CpuStep.setPc s w).extra n

/-- The second read keeps the pointer's page: only its low byte goes up. -/
theorem indirectTarget_pair (h l : Byte) (s : State) :
    indirectTarget (pair h l) s =
      (pair (cpuRead (pair h (l + 1)) (cpuRead (pair h l) s).2).1 (cpuRead (pair h l) s).1,
        (cpuRead (pair h (l + 1)) (cpuRead (pair h l) s).2).2) := by
  rw [indirectTarget, hi_pair, lo_pair]

theorem indirectTarget_keeps (ptr : Word) (s : State) : ReadKeeps s (indirectTarget ptr s).2 :=
  (cpuRead_keeps _ s).trans (cpuRead_keeps _ _)

/-! Branches (R153, R213). -/

theorem toNat_branchTarget (op1 : Byte) (s : State) :
    ((branchTarget op1 s).toNat : Int) = ((s.cpu.pc.toNat : Int) + op1.toInt) % 0x10000 := by
  have hoffset : ((sext16 op1).toNat : Int) = op1.toInt % 0x10000 := by
    rw [sext16, BitVec.signExtend, BitVec.toNat_ofInt]
    exact Int.toNat_of_nonneg (Int.emod_nonneg _ (by decide))
  rw [branchTarget, BitVec.toNat_add]
  omega

/-- The extra cycles of a taken branch from `v` to `w` (R213; the page comparison is D28). -/
theorem takenExtra_eq (v w : Word) :
    (if hi v != hi w then 2 else 1) = if v.toNat / 0x100 = w.toNat / 0x100 then 1 else 2 := by
  have hpage : hi v = hi w ↔ v.toNat / 0x100 = w.toNat / 0x100 := by rw [← BitVec.toNat_inj, toNat_hi, toNat_hi]
  simp only [bne_iff_ne, ne_eq, ite_not, hpage]

/-- What R213 says of a branch, for whatever condition its instruction tests. -/
theorem branchesWhen_of_branchOp {i : Instr} {op1 : Byte} {cond : Bool} {s : State}
    (h : exec i s = branchOp cond op1 s) : BranchesWhen i op1 cond s := by
  rw [BranchesWhen, h]
  cases cond with
  | false => exact ⟨_, rfl, ((CpuStep.refl s).extra 0).registerFrame, fun _ => ⟨rfl, rfl⟩, (nomatch ·)⟩
  | true =>
    exact ⟨_, rfl, (CpuStep.setPc_setExtra s _ _).registerFrame, (nomatch ·),
      fun _ => ⟨toNat_branchTarget op1 s, takenExtra_eq _ _⟩⟩

/-! The two meanings whose shared operation has a lemma above. -/

theorem exec_jmp_indirect (op1 op2 : Byte) (s : State) :
    exec (.jmp (.indirect op1 op2)) s =
      .next (((indirectTarget (pair op2 op1) s).2.setPc (indirectTarget (pair op2 op1) s).1).setExtra 0) := rfl

theorem exec_rts (s : State) : exec .rts s = .next (((pullWord s).2.setPc ((pullWord s).1 + 1)).setExtra 0) := rfl

/-! The four statements. -/

/-- Settles O37: the operand goes to `PC` as it is; through a pointer, the target and the devices are as the two reads leave
them, which touch no register, no flag and no memory. -/
theorem jumps : Obligations.Jumps := by
  intro op1 op2 s
  refine ⟨⟨_, rfl, rfl, rfl, (CpuStep.setPc_setExtra s _ 0).registerFrame⟩, ?_⟩
  have hreads := indirectTarget_keeps (pair op2 op1) s
  rw [indirectTarget_pair] at hreads
  rw [exec_jmp_indirect, indirectTarget_pair]
  exact ⟨_, _, rfl, rfl, rfl, rfl, fun r _ => (reg_setPc _ _ r).trans (hreads.reg r), fun f _ => hreads.flag f,
    hreads.memory.trans (CpuStep.setPc_setExtra _ _ 0).rest.memory, (CpuStep.setPc_setExtra _ _ 0).registerFrame⟩

/-- Settles O38: JSR is `pushWord` of its own last address, then a jump; RTS is `pullWord`, then a jump one past the word. -/
theorem subroutines : Obligations.Subroutines := by
  intro op1 op2 l h s
  refine ⟨⟨_, rfl, rfl, cpu_sp_pushWord _ s, held_pushWord_high _ s, held_pushWord_low _ s, rfl, rfl, rfl,
    (pushWord_stackFrame _ s).trans (CpuStep.setPc_setExtra _ _ 0).stackFrame⟩, fun hl hh => ?_⟩
  rw [exec_rts, pullWord_held hl hh]
  exact ⟨_, rfl, rfl, rfl, rfl, ((CpuStep.setReg s .sp _).trans (CpuStep.setPc_setExtra _ _ 0)).registerFrame⟩

/-- Settles O39: in the later state the two slots above `SP` still hold the halves of `PC - 1`, so that RTS, by
`subroutines`, goes one past that address. -/
theorem rtsUndoesJsr : Obligations.RtsUndoesJsr := by
  intro op1 op2 s
  obtain ⟨t, ht, -, hsp, hhigh, hlow, -⟩ := (subroutines op1 op2 0 0 s).1
  refine ⟨t, ht, fun u husp huheld => ?_⟩
  have hlowSlot : u.cpu.sp + 1 = s.cpu.sp - 1 := by
    rw [husp, hsp]
    bv_omega
  have hhighSlot : u.cpu.sp + 2 = s.cpu.sp := by
    rw [husp, hsp]
    exact BitVec.sub_add_cancel _ _
  obtain ⟨w, hw, hwpc, hwsp, -⟩ := (subroutines op1 op2 (lo (s.cpu.pc - 1)) (hi (s.cpu.pc - 1)) u).2
    (by rw [hlowSlot, huheld]; exact hlow) (by rw [hhighSlot, huheld]; exact hhigh)
  refine ⟨w, hw, ?_, hwsp.trans hhighSlot⟩
  calc w.cpu.pc = pair (hi (s.cpu.pc - 1)) (lo (s.cpu.pc - 1)) + 1 := hwpc
    _ = s.cpu.pc - 1 + 1 := by rw [pair_hi_lo]
    _ = s.cpu.pc := BitVec.sub_add_cancel _ _

/-- Settles O40: the eight are `branchOp` with the flag, or its complement, as the condition. -/
theorem branches : Obligations.Branches := by
  intro op1 s
  refine ⟨?_, ?_, ?_, ?_, ?_, ?_, ?_, ?_⟩ <;> exact branchesWhen_of_branchOp rfl

end Sys2Proof.Machine

/-! The family `45_stack_flags_system.md`: the flag instructions, the no-operations, pushes and pulls of `A` and `P`, BRK and
RTI. -/

namespace Sys2Proof.Machine

/-! Flags and no-operations (R234 to R241, R259). -/

theorem setsFlag_of_impliedOp {i : Instr} {f : Flag} {b : Bool} {s : State}
    (h : exec i s = impliedOp (fun t => t.setFlag f b) s) : SetsFlag i f b s := by
  rw [SetsFlag, h]
  exact ⟨_, rfl, (flag_setFlag s f f b).trans (if_pos rfl), rfl, rfl, ((CpuStep.setFlag s f b).extra 0).registerFrame⟩

/-- Settles O43: each of the seven is one `setFlag`. -/
theorem flagInstructions : Obligations.FlagInstructions :=
  fun _ => ⟨setsFlag_of_impliedOp rfl, setsFlag_of_impliedOp rfl, setsFlag_of_impliedOp rfl, setsFlag_of_impliedOp rfl,
    setsFlag_of_impliedOp rfl, setsFlag_of_impliedOp rfl, setsFlag_of_impliedOp rfl⟩

theorem CpuStep.setExtra (s : State) (n : Nat) : CpuStep [] [] s (s.setExtra n) := (CpuStep.refl s).extra n

/-- A read instruction that discards its operand (R259, D36). -/
theorem readOp_discard (m : ReadMode) (s : State) :
    ∃ t, readOp m (fun _ u => u) s = .next t ∧ t.extra = penalty m s ∧ ReadFrame [] [] m s t :=
  ⟨_, rfl, rfl, (CpuStep.setExtra _ _).readFrame rfl⟩

/-- Settles O44: the two implied forms only set the extra cycles, the others also make their read; an immediate operand has
no crossing cycle. -/
theorem noOperations : Obligations.NoOperations :=
  fun s _ op1 m => ⟨⟨_, rfl, rfl, rfl, (CpuStep.setExtra s 0).registerFrame⟩,
    ⟨_, rfl, rfl, rfl, (CpuStep.setExtra s 0).registerFrame⟩, readOp_discard (.immediate op1) s,
    readOp_discard (.mem m) s⟩

/-! One byte pushed and pulled (R30, R31). -/

/-- The slot that a pull after a push reads. -/
theorem held_push_above (v : Byte) (s : State) : (push v s).held (stackAddr ((push v s).cpu.sp + 1)) = some v := by
  have hsp : (push v s).cpu.sp + 1 = s.cpu.sp := BitVec.sub_add_cancel _ _
  rw [hsp, held_push_slot]

theorem push_setExtra_stackFrame (v : Byte) (s : State) (n : Nat) :
    StackFrame [] [] [stackAddr s.cpu.sp] s ((push v s).setExtra n) :=
  (push_stackFrame v s).trans (CpuStep.setExtra _ n).stackFrame

theorem exec_pla (s : State) :
    exec .pla s = .next ((((pull s).2.setReg .a (pull s).1).setZN (pull s).1).setExtra 0) := rfl

theorem exec_plp (s : State) : exec .plp s = .next (((pull s).2.setP (loadedStatus (pull s).1)).setExtra 0) := rfl

/-- PLA where the slot above `SP` holds `b` (R231). -/
theorem exec_pla_held {s : State} {b : Byte} (h : s.held (stackAddr (s.cpu.sp + 1)) = some b) :
    exec .pla s = .next ((((s.setReg .sp (s.cpu.sp + 1)).setReg .a b).setZN b).setExtra 0) := by
  rw [exec_pla, pull_held h]

/-- PLP where the slot above `SP` holds `b` (R233). -/
theorem exec_plp_held {s : State} {b : Byte} (h : s.held (stackAddr (s.cpu.sp + 1)) = some b) :
    exec .plp s = .next (((s.setReg .sp (s.cpu.sp + 1)).setP (loadedStatus b)).setExtra 0) := by
  rw [exec_plp, pull_held h]

/-- Settles O41: PHA is one push and PLA one pull, which after the push finds the pushed byte. -/
theorem accumulatorStack : Obligations.AccumulatorStack := by
  intro s b
  constructor
  · exact ⟨_, rfl, held_push_slot _ s, rfl, rfl, rfl, rfl, rfl, push_setExtra_stackFrame _ s 0,
      _, exec_pla_held (held_push_above s.cpu.a s), rfl, BitVec.sub_add_cancel _ _, (setsZN_setZN _ _).setExtra 0⟩
  · intro h
    exact ⟨_, exec_pla_held h, rfl, (setsZN_setZN _ _).setExtra 0, rfl, rfl, rfl,
      (((CpuStep.setReg s .sp _).trans (CpuStep.setReg_setZN _ .a b b)).extra 0).registerFrame⟩

/-! The status byte on the stack (R26). -/

theorem CpuStep.setP (s : State) (v : Byte) : CpuStep [] [.c, .z, .i, .d, .b, .u, .v, .n] s (s.setP v) where
  regs := fun r _ => reg_setP s v r
  flags := fun f hf => absurd (by cases f <;> decide) hf
  rest := rfl
  nmi := rfl
  irq := rfl
  cyc := rfl

theorem Flag.exists_bit_eq : ∀ {j : Nat}, j < 8 → ∃ f : Flag, f.bit = j
  | 0, _ => ⟨.c, rfl⟩
  | 1, _ => ⟨.z, rfl⟩
  | 2, _ => ⟨.i, rfl⟩
  | 3, _ => ⟨.d, rfl⟩
  | 4, _ => ⟨.b, rfl⟩
  | 5, _ => ⟨.u, rfl⟩
  | 6, _ => ⟨.v, rfl⟩
  | 7, _ => ⟨.n, rfl⟩

/-- The two masks undo each other on a `P` whose bits 4 and 5 stand as they always do (R26). -/
theorem loadedStatus_pushedByInstruction {s : State} (hu : s.flag .u = true) (hb : s.flag .b = false) :
    loadedStatus (pushedByInstruction s.cpu.p) = s.cpu.p := by
  refine BitVec.eq_of_getLsbD_eq fun j hj => ?_
  obtain ⟨f, rfl⟩ := Flag.exists_bit_eq hj
  rw [loadedStatus_bits, pushedByInstruction_bits]
  cases f with
  | b => exact hb.symm
  | u => exact hu.symm
  | c | z | i | d | v | n => rfl

/-- Settles O42: PHP is one push and PLP one pull, which after the push finds the pushed byte; the masks undo each other. -/
theorem statusStack : Obligations.StatusStack := by
  intro s b
  constructor
  · exact ⟨_, rfl, held_push_slot _ s, rfl, rfl, rfl, rfl, rfl, push_setExtra_stackFrame _ s 0, fun hu hb =>
      ⟨_, exec_plp_held (held_push_above (pushedByInstruction s.cpu.p) s), loadedStatus_pushedByInstruction hu hb,
        BitVec.sub_add_cancel _ _⟩⟩
  · intro h
    exact ⟨_, exec_plp_held h, rfl, rfl, rfl, rfl,
      (((CpuStep.setReg s .sp _).trans (CpuStep.setP _ _)).extra 0).registerFrame⟩

/-! Entering a handler (R242, R346) and returning from one (R243). -/

/-- What `enterHandler` does, for any vector in PRG. -/
theorem enterHandler_entered (ret : Word) (status : Byte) {vector : Word} (s : State) (hv : 0x8000 ≤ vector.toNat)
    (hv' : 0x8000 ≤ (vector + 1).toNat) :
    HandlerEntered ret status vector s (enterHandler ret status vector s) := by
  have hsp : (pushWord ret s).cpu.sp = s.cpu.sp - 2 := cpu_sp_pushWord ret s
  have hstatus := push_stackFrame status (pushWord ret s)
  have hslot := held_push_slot status (pushWord ret s)
  rw [hsp] at hstatus hslot
  have hhigh : s.cpu.sp ≠ (pushWord ret s).cpu.sp := by
    rw [hsp]
    bv_omega
  have hlow : s.cpu.sp - 1 ≠ (pushWord ret s).cpu.sp := by
    rw [hsp]
    bv_omega
  exact {
    high := (held_push_other_slot status hhigh).trans (held_pushWord_high ret s)
    low := (held_push_other_slot status hlow).trans (held_pushWord_low ret s)
    status := hslot
    sp := (congrArg (· - 1) hsp).trans (BitVec.sub_sub s.cpu.sp 2 1)
    i := flag_setFlag _ .i .i true
    pc := (vectorAt_eq vector _ hv hv').trans (vectorAt_eq vector s hv hv').symm
    frame := ((pushWord_stackFrame ret s).trans hstatus).trans
      ((CpuStep.setFlag _ .i true).trans (CpuStep.setPc _ _)).stackFrame }

theorem HandlerEntered.setExtra {ret vector : Word} {status : Byte} {s t : State}
    (h : HandlerEntered ret status vector s t) (n : Nat) : HandlerEntered ret status vector s (t.setExtra n) :=
  { h with frame := h.frame.trans (CpuStep.setExtra t n).stackFrame }

/-- The three bytes above `SP`: the status, then `PC`, low byte first. -/
theorem returnFromHandler_held {s : State} {b l h : Byte} (hb : s.held (stackAddr (s.cpu.sp + 1)) = some b)
    (hl : s.held (stackAddr (s.cpu.sp + 2)) = some l) (hh : s.held (stackAddr (s.cpu.sp + 3)) = some h) :
    returnFromHandler s = ((s.setP (loadedStatus b)).setReg .sp (s.cpu.sp + 3)).setPc (pair h l) := by
  have hlow : s.cpu.sp + 1 + 1 = s.cpu.sp + 2 := BitVec.add_assoc s.cpu.sp 1 1
  have hhigh : s.cpu.sp + 1 + 2 = s.cpu.sp + 3 := BitVec.add_assoc s.cpu.sp 1 2
  have hword : pullWord ((s.setReg .sp (s.cpu.sp + 1)).setP (loadedStatus b)) =
      (pair h l, ((s.setReg .sp (s.cpu.sp + 1)).setP (loadedStatus b)).setReg .sp (s.cpu.sp + 1 + 2)) :=
    pullWord_held (hlow ▸ hl) (hhigh ▸ hh)
  rw [returnFromHandler, pull_held hb, hword, hhigh]
  rfl

theorem exec_rti (s : State) : exec .rti s = .next ((returnFromHandler s).setExtra 0) := rfl

/-- Settles O9: BRK is `enterHandler` with the vector at 0xFFFE. -/
theorem brkEntersHandler : Obligations.BrkEntersHandler :=
  fun s => ⟨_, rfl, (enterHandler_entered _ _ s (by decide) (by decide)).setExtra 0, rfl, rfl, rfl⟩

/-- Settles O10: RTI is `returnFromHandler`, which on held bytes is three writes of CPU registers. -/
theorem rtiReturns : Obligations.RtiReturns := by
  intro s b l h hb hl hh
  rw [exec_rti, returnFromHandler_held hb hl hh]
  exact ⟨_, rfl, rfl, rfl, rfl, rfl,
    (((CpuStep.setP s _).trans (CpuStep.setReg _ .sp _)).trans (CpuStep.setPc_setExtra _ _ 0)).registerFrame⟩

/-- Settles O11: in the later state the three slots above `SP` hold what BRK pushed, so that RTI, by `rtiReturns`, loads
`P` through both masks and `PC` with the return address. -/
theorem rtiUndoesBrk : Obligations.RtiUndoesBrk := by
  intro s hu hb
  obtain ⟨t, ht, hentered, -⟩ := brkEntersHandler s
  refine ⟨t, ht, fun u husp huheld => ?_⟩
  have hsp : u.cpu.sp = s.cpu.sp - 3 := husp.trans hentered.sp
  have hstatusSlot : u.cpu.sp + 1 = s.cpu.sp - 2 := by
    rw [hsp]
    bv_omega
  have hlowSlot : u.cpu.sp + 2 = s.cpu.sp - 1 := by
    rw [hsp]
    bv_omega
  have hhighSlot : u.cpu.sp + 3 = s.cpu.sp := by
    rw [hsp]
    exact BitVec.sub_add_cancel _ _
  obtain ⟨w, hw, hwp, hwpc, hwsp, -⟩ := rtiReturns u _ _ _
    (by rw [hstatusSlot, huheld]; exact hentered.status) (by rw [hlowSlot, huheld]; exact hentered.low)
    (by rw [hhighSlot, huheld]; exact hentered.high)
  exact ⟨w, hw, hwp.trans (loadedStatus_pushedByInstruction hu hb), hwsp.trans hhighSlot, hwpc.trans (pair_hi_lo _)⟩

end Sys2Proof.Machine

/-! The family `46_undocumented.md`: a read-modify-write of memory, then its byte combined with `A`. -/

namespace Sys2Proof.Machine

/-! Shifts of memory, then `A` (R251 to R254). -/

/-- The byte shifted, then `A` combined with it by `f`; `n` is the byte written as a number. Combining leaves the bit shifted
out in `C`. -/
theorem shiftMemory_combineA (f : Byte → Byte → Byte) {op : ShiftOp} {m : MemMode} {s : State} {v : Byte} {n : Nat}
    (ha : (ea m s).toNat < 0x8000) (hv : v = (cpuRead (ea m s) s).1) (h : (op.result v (s.flag .c)).toNat = n) :
    ∃ r t, shiftMemory op m (fun b u => (u.setReg .a (f u.cpu.a b)).setZN (f u.cpu.a b)) s = .next t ∧ r.toNat = n ∧
      t.flag .c = op.carry v ∧ t.cpu.a = f s.cpu.a r ∧ SetsZN t.cpu.a t ∧
      ModifyFrame [.a] [.c, .z, .n] (ea m s) r s t := by
  have hlate : ∀ (b : Byte) (u : State),
      CpuStep [.a] [.z, .n] u ((u.setReg .a (f u.cpu.a b)).setZN (f u.cpu.a b)) :=
    fun b u => CpuStep.setReg_setZN u .a _ _
  obtain ⟨w, hreg, hc, ht, hframe⟩ := shiftMemory_frame op _ ha hv List.mem_cons_self
    (fun b u => (hlate b u).weaken (fun _ => id) fun _ => List.mem_cons_of_mem _) (fun _ _ => rfl)
  have hwa : w.cpu.a = s.cpu.a := hreg .a
  exact ⟨_, _, ht, h, ((hlate _ w).flags .c (by decide)).trans hc, congrArg (f · _) hwa, (setsZN_setZN _ _).setExtra 0,
    hframe⟩

/-- Settles O35: SLO, RLA and SRE are `shiftMemory_combineA`; RRA's `addToA` finds in `C` the bit that the rotate shifted
out. -/
theorem shiftAndCombine : Obligations.ShiftAndCombine := by
  intro m s v ha hv
  refine ⟨shiftMemory_combineA (· ||| ·) ha hv (toNat_result_asl _ _),
    shiftMemory_combineA (· &&& ·) ha hv (toNat_result_rol _ _),
    shiftMemory_combineA (· ^^^ ·) ha hv (toNat_result_lsr _ _), ?_⟩
  obtain ⟨w, hreg, hc, ht, hframe⟩ := shiftMemory_frame .ror (fun b u => u.addToA b) ha hv List.mem_cons_self
    (fun b u => CpuStep.addToA u b) (fun _ _ => rfl)
  have hwa : w.cpu.a = s.cpu.a := hreg .a
  have hbit : w.flag .c = v.getLsbD 0 := hc
  rw [← hwa, ← hbit]
  exact ⟨_, _, ht, toNat_result_ror _ _, toNat_cpu_a_addToA w _, flag_c_addToA w _, flag_v_addToA w _,
    (setsZN_addToA w _).setExtra 0, hframe⟩

/-! Steps of memory, then a comparison or a subtraction (R257, R258). -/

/-- A memory byte below 0x8000 replaced by `f` of it: `late` works on a state with the registers and flags of `s`. -/
theorem rmwOp_pure_frame (f : Byte → Byte) {m : MemMode} {s : State} {v : Byte} (late : Byte → State → State)
    {rs : List Reg} {fs : List Flag} (ha : (ea m s).toNat < 0x8000) (hv : v = (cpuRead (ea m s) s).1)
    (hl : ∀ b t, CpuStep rs fs t (late b t)) (hpc : ∀ b t, (late b t).cpu.pc = t.cpu.pc) :
    ∃ w, (∀ r, w.reg r = s.reg r) ∧ (∀ g, w.flag g = s.flag g) ∧
      rmwOp m (fun b _ => f b) (fun _ u => u) late s = .next ((late (f v) w).setExtra 0) ∧
      ModifyFrame rs fs (ea m s) (f v) s ((late (f v) w).setExtra 0) := by
  subst hv
  obtain ⟨w, hreg, hflag, ht, hframe⟩ := rmwOp_frame m (fun b _ => f b) late (fun _ u => u) s ha
    (fun _ u => ⟨u.cpu.p, rfl⟩) (fun _ _ _ _ => rfl) hl hpc
  exact ⟨w, hreg, fun g => (hflag g).trans (flag_readOperand (.mem m) s g), ht, hframe⟩

/-- Settles O36: after the byte is written, `compare` and `subFromA` find `A` and `C` as they were. -/
theorem stepAndCombine : Obligations.StepAndCombine := by
  intro m s v ha hv
  constructor
  · obtain ⟨w, hreg, -, ht, hframe⟩ := rmwOp_pure_frame (· - 1) (fun b u => u.compare u.cpu.a b) ha hv
      (fun b u => CpuStep.compare u u.cpu.a b) (fun _ _ => rfl)
    have hwa : w.cpu.a = s.cpu.a := hreg .a
    rw [← hwa]
    exact ⟨_, ht, flag_compare w _ _ .c, flag_compare w _ _ .z, flag_compare w _ _ .n, hframe⟩
  · obtain ⟨w, hreg, hflag, ht, hframe⟩ := rmwOp_pure_frame (· + 1) (fun b u => u.subFromA b) ha hv
      (fun b u => CpuStep.subFromA u b) (fun _ _ => rfl)
    have hwa : w.cpu.a = s.cpu.a := hreg .a
    rw [← hwa, ← hflag .c]
    exact ⟨_, ht, toNat_cpu_a_subFromA w _, flag_c_subFromA w _, flag_v_subFromA w _, (setsZN_subFromA w _).setExtra 0,
      hframe⟩

end Sys2Proof.Machine

/-! The family `47_ppu_registers.md`: the PPU registers at every mirror of theirs, and OAM DMA from RAM. -/

namespace Sys2Proof.Machine

/-! The window's mirrors (R67, R270); register `r` is reached by every address that is `r` mod 8. -/

theorem cpuRead_mirror {a : Word} {r : Nat} (s : State) (h : 0x2000 ≤ a.toNat) (h' : a.toNat < 0x4000)
    (hr : a.toNat % 8 = r) : cpuRead a s = ppuRegRead r s := by
  rw [cpuRead_ppuReg s h h', hr]

theorem cpuWrite_mirror {a : Word} {r : Nat} (d : Byte) (s : State) (h : 0x2000 ≤ a.toNat) (h' : a.toNat < 0x4000)
    (hr : a.toNat % 8 = r) : cpuWrite a d s = .next (ppuRegWrite r d s) := by
  rw [cpuWrite, if_neg (by omega), if_pos h', hr]

/-! The scroll bits of `t` and `x` (R271, R277). A constant mask is said by the positions that it keeps. -/

/-- A byte put `n` places up in the width of `t`. -/
theorem getLsbD_setWidth_shiftLeft (b : Byte) (n : Nat) {k : Nat} (hk : k < 15) :
    (b.setWidth 15 <<< n).getLsbD k = (decide (n ≤ k) && b.getLsbD (k - n)) := by
  have hkn : k - n < 15 := by omega
  rw [BitVec.getLsbD_shiftLeft, BitVec.getLsbD_setWidth, decide_eq_true hk, decide_eq_true hkn, Bool.true_and,
    Bool.true_and, ← decide_not, decide_eq_decide.mpr Nat.not_lt]

/-- PPUCTRL's two low bits select the nametable. -/
theorem getLsbD_select_nametable (t : BitVec 15) (d : Byte) {k : Nat} (hk : k < 15) :
    (t &&& 0x73FF#15 ||| (d &&& 0x03#8).setWidth 15 <<< 10).getLsbD k =
      if k = 10 then d.getLsbD 0 else if k = 11 then d.getLsbD 1 else t.getLsbD k := by
  have hkeep : ∀ k < 15, (0x73FF#15).getLsbD k = decide (k ≠ 10 ∧ k ≠ 11) := by decide
  have hdata : ∀ j < 15, (0x03#8).getLsbD j = decide (j < 2) := by decide
  rw [BitVec.getLsbD_or, BitVec.getLsbD_and, getLsbD_setWidth_shiftLeft _ _ hk, BitVec.getLsbD_and, hkeep k hk,
    hdata _ (by omega)]
  grind

/-- The upper five data bits become coarse X. -/
theorem getLsbD_set_coarseX (t : BitVec 15) (d : Byte) {k : Nat} (hk : k < 15) :
    (t &&& 0x7FE0#15 ||| (d >>> 3).setWidth 15).getLsbD k = if k < 5 then d.getLsbD (k + 3) else t.getLsbD k := by
  have hkeep : ∀ k < 15, (0x7FE0#15).getLsbD k = decide (5 ≤ k) := by decide
  have hdata : 5 ≤ k → d.getLsbD (3 + k) = false := fun h => BitVec.getLsbD_of_ge d _ (by omega)
  rw [BitVec.getLsbD_or, BitVec.getLsbD_and, BitVec.getLsbD_setWidth, BitVec.getLsbD_ushiftRight, hkeep k hk,
    decide_eq_true hk, Bool.true_and]
  grind

/-- The lower three data bits become fine X. -/
theorem toNat_fineX (d : Byte) : ((d &&& 0x07#8).setWidth 3).toNat = d.toNat % 8 := by
  have hlow : (d &&& 0x07#8).toNat = d.toNat % 8 := Nat.and_two_pow_sub_one_eq_mod d.toNat 3
  rw [BitVec.toNat_setWidth, hlow]
  exact Nat.mod_mod _ _

/-- The lower three data bits become fine Y, the upper five coarse Y. -/
theorem getLsbD_set_y (t : BitVec 15) (d : Byte) {k : Nat} (hk : k < 15) :
    (t &&& 0x0C1F#15 ||| (d &&& 0x07#8).setWidth 15 <<< 12 ||| (d &&& 0xF8#8).setWidth 15 <<< 2).getLsbD k =
      if 12 ≤ k then d.getLsbD (k - 12) else if 5 ≤ k ∧ k < 10 then d.getLsbD (k - 2) else t.getLsbD k := by
  have hkeep : ∀ k < 15, (0x0C1F#15).getLsbD k = decide (k < 5 ∨ 10 ≤ k ∧ k < 12) := by decide
  have hfine : ∀ j < 15, (0x07#8).getLsbD j = decide (j < 3) := by decide
  have hcoarse : ∀ j < 15, (0xF8#8).getLsbD j = decide (3 ≤ j ∧ j < 8) := by decide
  simp only [BitVec.getLsbD_or, BitVec.getLsbD_and, getLsbD_setWidth_shiftLeft _ _ hk, hkeep k hk,
    hfine (k - 12) (by omega), hcoarse (k - 2) (by omega)]
  grind

theorem writeScroll_first (d : Byte) {s : State} (hw : s.ppu.w = false) : writeScroll d s =
    { s with ppu := { s.ppu with
      t := s.ppu.t &&& 0x7FE0#15 ||| (d >>> 3).setWidth 15, x := (d &&& 0x07#8).setWidth 3, w := true } } :=
  if_neg (Bool.eq_false_iff.mp hw)

theorem writeScroll_second (d : Byte) {s : State} (hw : s.ppu.w = true) : writeScroll d s =
    { s with ppu := { s.ppu with
      t := s.ppu.t &&& 0x0C1F#15 ||| (d &&& 0x07#8).setWidth 15 <<< 12 ||| (d &&& 0xF8#8).setWidth 15 <<< 2
      w := false } } :=
  if_pos hw

/-- Settles O47: the toggle chooses the write, coarse and fine X first, then Y. -/
theorem scrollWrites : Obligations.ScrollWrites := by
  intro a d s h h' hr
  rw [cpuWrite_mirror d s h h' hr]
  constructor
  · intro hw
    exact ⟨_, _, congrArg _ (writeScroll_first d hw), fun _ => getLsbD_set_coarseX _ d, toNat_fineX d⟩
  · intro hw
    exact ⟨_, congrArg _ (writeScroll_second d hw), fun _ => getLsbD_set_y _ d⟩

/-! The address bytes of `t` by value (R278). -/

theorem writeAddr_first (d : Byte) {s : State} (hw : s.ppu.w = false) : writeAddr d s = { s with ppu := { s.ppu with
    t := s.ppu.t &&& 0x00FF#15 ||| (d &&& 0x3F#8).setWidth 15 <<< 8, w := true } } :=
  if_neg (Bool.eq_false_iff.mp hw)

theorem writeAddr_second (d : Byte) {s : State} (hw : s.ppu.w = true) : writeAddr d s = { s with ppu := { s.ppu with
    t := s.ppu.t &&& 0x7F00#15 ||| d.setWidth 15, v := s.ppu.t &&& 0x7F00#15 ||| d.setWidth 15, w := false } } :=
  if_pos hw

/-- Six data bits above the low byte. -/
theorem toNat_set_high_address (t : BitVec 15) (d : Byte) :
    (t &&& 0x00FF#15 ||| (d &&& 0x3F#8).setWidth 15 <<< 8).toNat = (d.toNat % 0x40) * 0x100 + t.toNat % 0x100 := by
  have hlow : (t &&& 0x00FF#15).toNat = t.toNat % 0x100 := Nat.and_two_pow_sub_one_eq_mod t.toNat 8
  have hsix : (d &&& 0x3F#8).toNat = d.toNat % 0x40 := Nat.and_two_pow_sub_one_eq_mod d.toNat 6
  have hhigh : ((d &&& 0x3F#8).setWidth 15 <<< 8).toNat = (d.toNat % 0x40) <<< 8 := by
    rw [BitVec.toNat_shiftLeft, BitVec.toNat_setWidth, hsix, Nat.shiftLeft_eq]
    omega
  have hlt : t.toNat % 0x100 < 2 ^ 8 := Nat.mod_lt _ (by decide)
  rw [BitVec.toNat_or, hlow, hhigh, Nat.or_comm, ← Nat.shiftLeft_add_eq_or_of_lt hlt, Nat.shiftLeft_eq]

/-- The data below the upper seven bits. -/
theorem toNat_set_low_address (t : BitVec 15) (d : Byte) :
    (t &&& 0x7F00#15 ||| d.setWidth 15).toNat = t.toNat / 0x100 * 0x100 + d.toNat := by
  have hmask : t &&& 0x7F00#15 = t >>> 8 <<< 8 := (BitVec.shiftLeft_ushiftRight (x := t) (n := 8)).symm
  have hhigh : (t >>> 8 <<< 8).toNat = (t.toNat / 0x100) <<< 8 := by
    rw [BitVec.toNat_shiftLeft, BitVec.toNat_ushiftRight, Nat.shiftRight_eq_div_pow, Nat.shiftLeft_eq]
    omega
  rw [BitVec.toNat_or, hmask, hhigh, BitVec.toNat_setWidth_of_le (by decide), ← Nat.shiftLeft_add_eq_or_of_lt d.isLt,
    Nat.shiftLeft_eq]

/-- Settles O48: the toggle chooses the write, the high address byte first, then the low one. -/
theorem addressWrites : Obligations.AddressWrites := by
  intro a d s h h' hr
  rw [cpuWrite_mirror d s h h' hr]
  constructor
  · intro hw
    exact ⟨_, congrArg _ (writeAddr_first d hw), toNat_set_high_address _ d⟩
  · intro hw
    exact ⟨_, congrArg _ (writeAddr_second d hw), toNat_set_low_address _ d⟩

/-! PPUDATA (R279 to R281). -/

theorem ppuRead_mod (a : Nat) (s : State) : ppuRead (a % 0x4000) s = ppuRead a s := by
  simp only [ppuRead, Nat.mod_mod]

theorem ppuWrite_mod (a : Nat) (d : Byte) (s : State) : ppuWrite (a % 0x4000) d s = ppuWrite a d s := by
  simp only [ppuWrite, Nat.mod_mod]

theorem toNat_incrementedV (p : Ppu) :
    (incrementedV p).toNat = (p.v.toNat + if p.ctrl.getLsbD 2 = true then 32 else 1) % 0x8000 := by
  rw [incrementedV, BitVec.toNat_add]
  split <;> rfl

/-- A write to the PPU bus moves no latch. -/
theorem incrementedV_ppuWrite (a : Nat) (d : Byte) (s : State) :
    incrementedV (ppuWrite a d s).ppu = incrementedV s.ppu := by
  obtain ⟨c, n, p, h⟩ := ppuWrite_cases a d s
  rw [h]
  rfl

theorem readData_buffered {s : State} (h : s.ppu.v.toNat % 0x4000 < 0x3F00) : readData s =
    (s.ppu.readbuf, { s with ppu := { s.ppu with
      readbuf := ppuRead s.ppu.v.toNat s, v := incrementedV s.ppu } }) := by
  simp only [readData, h, if_true, ppuRead_mod]

theorem readData_palette {s : State} (h : 0x3F00 ≤ s.ppu.v.toNat % 0x4000) : readData s =
    (ppuRead s.ppu.v.toNat s, { s with ppu := { s.ppu with
      readbuf := ppuRead (s.ppu.v.toNat % 0x4000 - 0x1000) s, v := incrementedV s.ppu } }) := by
  simp only [readData, Nat.not_lt.mpr h, if_false, ppuRead_mod]

/-- Settles O50: the bus takes `v` mod 0x4000, and the read is buffered or of the palette. -/
theorem dataAccess : Obligations.DataAccess := by
  intro a d s h h' hr
  rw [cpuWrite_mirror d s h h' hr, cpuRead_mirror s h h' hr, ppuWrite_mod]
  refine ⟨⟨_, rfl, ?_⟩, ?_⟩
  · rw [incrementedV_ppuWrite]
    exact toNat_incrementedV s.ppu
  · rcases Nat.lt_or_ge (s.ppu.v.toNat % 0x4000) 0x3F00 with hv | hv
    · exact ⟨_, _, _, readData_buffered hv, toNat_incrementedV _, fun _ => ⟨rfl, rfl⟩,
        fun hv' => absurd hv (Nat.not_lt.mpr hv')⟩
    · exact ⟨_, _, _, readData_palette hv, toNat_incrementedV _, fun hv' => absurd hv' (Nat.not_lt.mpr hv),
        fun _ => ⟨rfl, rfl⟩⟩

/-! OAMDATA and OAM DMA (R276, R284). -/

theorem oamByte_writeOamData (d i : Byte) (s : State) :
    oamByte i.toNat (writeOamData d s) = if i = s.ppu.oamaddr then d else oamByte i.toNat s := by
  simp only [oamByte, writeOamData, Cells.read_write, BitVec.toNat_inj]

theorem toNat_ramPage_lt {d : Byte} (hd : d.toNat < 0x20) (i : Byte) : (pair d i).toNat < 0x2000 := by
  have hi := i.isLt
  rw [toNat_pair]
  omega

/-- One byte of a DMA from a RAM page. -/
theorem dmaByte_ram {d : Byte} (hd : d.toNat < 0x20) (s : State) (i : Nat) : dmaByte d s i =
    { s with ppu := { s.ppu with
      oam := Cells.write s.ppu.oam (s.ppu.oamaddr + BitVec.ofNat 8 i).toNat
        (Cells.read s.ram (ramCell (pair d (BitVec.ofNat 8 i)))) } } := by
  simp only [dmaByte, cpuRead_ram s (toNat_ramPage_lt hd _)]

/-- The first `n` bytes of a DMA from a RAM page: only OAM changes, and bytes 0 to `n - 1` of the page stand in it, none
written over by a later one. -/
theorem dmaBytes_ram {d : Byte} (hd : d.toNat < 0x20) (s : State) (n : Nat) (hn : n ≤ 256) :
    ∃ o, (List.range n).foldl (dmaByte d) s = { s with ppu := { s.ppu with oam := o } } ∧
      ∀ i : Byte, i.toNat < n → Cells.read o (s.ppu.oamaddr + i).toNat = Cells.read s.ram (ramCell (pair d i)) := by
  induction n with
  | zero => exact ⟨_, rfl, fun i hi => absurd hi (Nat.not_lt_zero _)⟩
  | succ n ih =>
    obtain ⟨o, ho, hbytes⟩ := ih (by omega)
    refine ⟨_, by rw [List.range_succ, List.foldl_append, ho, List.foldl_cons, List.foldl_nil, dmaByte_ram hd],
      fun i hi => ?_⟩
    simp only [Cells.read_write, BitVec.toNat_inj, BitVec.add_right_inj]
    split
    next h => rw [h]
    next h =>
      have hne : i.toNat ≠ n := fun hin => h (by rw [← hin, BitVec.ofNat_toNat, BitVec.setWidth_eq])
      exact hbytes i (by omega)

theorem held_ramPage {d : Byte} (hd : d.toNat < 0x20) (i : Byte) (s : State) :
    s.held (pair d i) = some (Cells.read s.ram (ramCell (pair d i))) := if_pos (toNat_ramPage_lt hd i)

theorem cpuWrite_oamDma (d : Byte) (s : State) : cpuWrite 0x4014 d s = .next (oamDma d s) := rfl

/-- A DMA from a RAM page: `dmaBytes_ram` for the whole page, and the cycles. -/
theorem oamDma_ram {d : Byte} (hd : d.toNat < 0x20) (s : State) :
    ∃ o, oamDma d s = { s with ppu := { s.ppu with oam := o }, dma := 513 + s.cycInstr % 2 } ∧
      ∀ i : Byte, some (Cells.read o (s.ppu.oamaddr + i).toNat) = s.held (pair d i) := by
  obtain ⟨o, ho, hbytes⟩ := dmaBytes_ram hd s 256 le_rfl
  exact ⟨o, by rw [oamDma, ho], fun i => (congrArg some (hbytes i i.isLt)).trans (held_ramPage hd i s).symm⟩

/-- Settles O53: OAMDATA reaches one cell, a DMA from RAM is `oamDma_ram`. -/
theorem oamAccess : Obligations.OamAccess := by
  intro a d s
  constructor
  · intro h h' hr
    rw [cpuRead_mirror s h h' hr, cpuWrite_mirror d s h h' hr]
    exact ⟨rfl, _, rfl, rfl, rfl, fun i => oamByte_writeOamData d i s⟩
  · intro hd
    obtain ⟨o, ho, hbytes⟩ := oamDma_ram hd s
    rw [cpuWrite_oamDma, ho]
    exact ⟨_, rfl, rfl, rfl, hbytes⟩

/-! The control registers and PPUSTATUS (R271 to R275, R283). -/

/-- Settles O46: each write is its register's, PPUCTRL's with `getLsbD_select_nametable` for `t`. -/
theorem controlRegisterWrites : Obligations.ControlRegisterWrites := by
  intro a d s h h'
  refine ⟨fun hr => ⟨_, cpuWrite_mirror d s h h' hr, fun _ => getLsbD_select_nametable _ d⟩, cpuWrite_mirror d s h h',
    cpuWrite_mirror d s h h', cpuWrite_mirror d s h h'⟩

theorem value_readStatus (s : State) :
    (readStatus s).1 = s.ppu.status &&& 0xE0#8 ||| Config.freeByte s.draws &&& 0x1F#8 := rfl

/-- The free byte fills bits 4:0 only (D19, log 7). -/
theorem getLsbD_readStatus (s : State) {k : Nat} (hk : 5 ≤ k) :
    (readStatus s).1.getLsbD k = s.ppu.status.getLsbD k := by
  have hstatus : ∀ k < 8, (0xE0#8).getLsbD k = decide (5 ≤ k) := by decide
  have hfree : ∀ k < 8, (0x1F#8).getLsbD k = decide (k < 5) := by decide
  rcases Nat.lt_or_ge k 8 with h8 | h8
  · rw [value_readStatus, BitVec.getLsbD_or, BitVec.getLsbD_and, BitVec.getLsbD_and, hstatus k h8, hfree k h8,
      decide_eq_true hk, decide_eq_false (Nat.not_lt.mpr hk), Bool.and_true, Bool.and_false, Bool.or_false]
  · rw [BitVec.getLsbD_of_ge _ k h8, BitVec.getLsbD_of_ge _ k h8]

/-- Settles O49: the value by `getLsbD_readStatus`, the flag by `getLsbD_putBit`, the rest by `readStatus` itself. -/
theorem statusReads : Obligations.StatusReads := by
  intro a s h h' hr
  rw [cpuRead_mirror s h h' hr]
  exact ⟨(readStatus s).1, _, rfl, fun _ => getLsbD_readStatus s, fun k => getLsbD_putBit _ 7 k false⟩

end Sys2Proof.Machine

/-! The family `48_ppu_render.md`: one dot as the events of the position it reaches, the dots that draw nothing, the sprites
of a line, and a visible line. -/

namespace Sys2Proof.Machine

/-! One dot is the events of the position it reaches (R300, R301). -/

/-- The state at cycle `c` of its line, before the events there. -/
def State.atCycle (s : State) (c : Int) : State := { s with ppu := { s.ppu with cycle := c } }

@[simp] theorem scanline_atCycle (s : State) (c : Int) : (s.atCycle c).ppu.scanline = s.ppu.scanline := rfl
@[simp] theorem cycle_atCycle (s : State) (c : Int) : (s.atCycle c).ppu.cycle = c := rfl

theorem ppuStep_of_advanceDot {s t : State} (h : advanceDot s = t) (ht : t.ppu.scanline = 260 → t.ppu.cycle ≠ 340) :
    ppuStep s = dotEvents t := by
  obtain ⟨hline, hcycle, -⟩ := dotEvents_position t
  rw [ppuStep, h, endFrame, hline, hcycle, if_neg (not_and.mpr ht)]

/-- The dot that reaches cycle `c` of its line, not the last one of the frame. -/
theorem ppuStep_atCycle {s : State} {c : Int} (hc : s.ppu.cycle + 1 = c) (hlast : c ≠ 341)
    (hend : s.ppu.scanline = 260 → c ≠ 340) : ppuStep s = dotEvents (s.atCycle c) := by
  subst hc
  exact ppuStep_of_advanceDot (if_neg (by omega)) hend

/-- The dot that reaches the next line. -/
theorem ppuStep_nextLine {s : State} (h : s.ppu.cycle = 340) :
    ppuStep s = dotEvents (State.atCycle { s with ppu := { s.ppu with scanline := s.ppu.scanline + 1 } } 0) :=
  ppuStep_of_advanceDot (if_pos h) fun _ => (by decide : (0 : Int) ≠ 340)

/-! The events, position by position (R302 to R304, R317). -/

theorem dotEvents_clearStatus {s : State} (h : s.ppu.scanline = -1) :
    dotEvents (s.atCycle 1) = clearStatus (s.atCycle 1) := if_pos ⟨h, rfl⟩

theorem dotEvents_copyScroll {s : State} (h : s.ppu.scanline = -1) :
    dotEvents (s.atCycle 304) = copyScroll (s.atCycle 304) := by
  simp [dotEvents, h]

theorem dotEvents_renderLine {s : State} {line : Nat} (hl : line < 240) (h : s.ppu.scanline = line) :
    dotEvents (s.atCycle 257) = renderLine line (s.atCycle 257) := by
  have hline : (line : Int) ≤ 239 := by omega
  simp [dotEvents, h, hline]

theorem dotEvents_enterVblank {s : State} (h : s.ppu.scanline = 241) :
    dotEvents (s.atCycle 1) = enterVblank (s.atCycle 1) := by
  simp [dotEvents, h]

theorem dotEvents_none {s : State} {c : Int} (hpre : s.ppu.scanline = -1 → c ≠ 1 ∧ c ≠ 304)
    (hvisible : 0 ≤ s.ppu.scanline → s.ppu.scanline ≤ 239 → c ≠ 257) (hvblank : s.ppu.scanline = 241 → c ≠ 1) :
    dotEvents (s.atCycle c) = s.atCycle c := by
  rw [dotEvents, scanline_atCycle, cycle_atCycle, if_neg (by omega), if_neg (by omega), if_neg (by omega),
    if_neg (by omega)]

/-- No event waits at the start of a line (R317). -/
theorem dotEvents_lineStart (s : State) : dotEvents (s.atCycle 0) = s.atCycle 0 :=
  dotEvents_none (by omega) (by omega) (by omega)

/-! The dots that draw nothing (R301, R302, R304, R305, R317). -/

theorem copyScroll_eq (s : State) : copyScroll s =
    { s with ppu := { s.ppu with v := if renderingEnabled s.ppu = true then s.ppu.t else s.ppu.v } } := by
  unfold copyScroll
  split <;> rfl

/-- Clearing the three status bits (R302). -/
theorem getLsbD_and_lowFive (b : Byte) {k : Nat} (hk : k < 8) :
    (b &&& 0x1F#8).getLsbD k = if 5 ≤ k then false else b.getLsbD k := by
  have hmask : ∀ k < 8, (0x1F#8).getLsbD k = decide (¬ 5 ≤ k) := by decide
  rw [BitVec.getLsbD_and, hmask k hk]
  split <;> simp [*]

/-- Setting the vblank bit unless it is suppressed (R304). -/
theorem getLsbD_status_enterVblank (s : State) {k : Nat} (hk : k < 8) :
    (enterVblank s).ppu.status.getLsbD k =
      if k = 7 ∧ s.ppu.vblSuppress = false then true else s.ppu.status.getLsbD k := by
  cases hs : s.ppu.vblSuppress
  · simp only [enterVblank, hs, Bool.false_eq_true, if_false, and_true, getLsbD_putBit _ _ _ _ hk]
  · simp only [enterVblank, hs, if_true, Bool.true_eq_false, and_false, if_false]

/-- Settles O54: the pre-render line has two events, each at its own cycle. -/
theorem preRenderLine : Obligations.PreRenderLine := by
  intro s hline _ hlast
  refine ⟨fun hc => ?_, fun hc => ?_, fun h0 h303 => ?_⟩
  · rw [ppuStep_atCycle (c := 1) (by omega) (by decide) (by omega), dotEvents_clearStatus hline]
    exact ⟨_, rfl, fun _ => getLsbD_and_lowFive _⟩
  · rw [ppuStep_atCycle (c := 304) (by omega) (by decide) (by omega), dotEvents_copyScroll hline, copyScroll_eq]
    rfl
  · rw [ppuStep_atCycle rfl (by omega) (by omega)]
    exact dotEvents_none (by omega) (by omega) (by omega)

/-- Settles O55: the last position of the frame has no event, and the reset leaves the next dot at the start of a line. -/
theorem endOfFrame : Obligations.EndOfFrame := by
  intro s hline hc
  have hadvance : advanceDot s = s.atCycle 340 := by
    rw [advanceDot, if_neg (by omega), hc]
    rfl
  have hstep : ppuStep s =
      { s with ppu := { s.ppu with scanline := -1, cycle := -1, frame := s.ppu.frame + 1 } } := by
    rw [ppuStep, hadvance, dotEvents_none (by omega) (by omega) (by omega)]
    exact if_pos ⟨hline, rfl⟩
  have hnext := ppuStep_atCycle (s := ppuStep s) (c := 0) (by rw [hstep]; rfl) (by omega) (by omega)
  rw [dotEvents_lineStart] at hnext
  refine ⟨hstep, ?_⟩
  rw [hnext, hstep]
  exact ⟨rfl, rfl⟩

/-- Settles O56: the dot is `enterVblank`, with `getLsbD_status_enterVblank` for the flag. -/
theorem vblankEntry : Obligations.VblankEntry := by
  intro s hline hc
  rw [ppuStep_atCycle (c := 1) (by omega) (by decide) (by omega), dotEvents_enterVblank hline]
  exact ⟨_, rfl, fun _ => getLsbD_status_enterVblank (s.atCycle 1)⟩

/-- Settles O57: the position reached has no event, nor has the start of any line. -/
theorem otherDotsAreIdle : Obligations.OtherDotsAreIdle := by
  intro s hfirst hlast h0 h340 hpre hvisible hvblank hend
  constructor
  · rw [ppuStep_atCycle rfl (by omega) (by omega)]
    exact dotEvents_none (by omega) (by omega) (by omega)
  · rw [ppuStep_nextLine rfl]
    exact dotEvents_lineStart _

/-! The sprites of a line (R309 to R311, R313). -/

theorem spriteInRange_iff {s : State} {line i : Nat} : spriteInRange s line i = true ↔
    (oamByte (4 * i) s).toNat + 1 ≤ line ∧
      line < (oamByte (4 * i) s).toNat + 1 + (if s.ppu.ctrl.getLsbD 5 = true then 16 else 8) := by
  simp only [spriteInRange, Bool.and_eq_true, decide_eq_true_eq]
  rfl

theorem mem_spritesInRange {s : State} {line i : Nat} :
    i ∈ spritesInRange s line ↔ i < 64 ∧ spriteInRange s line i = true := by
  rw [spritesInRange, List.mem_filter, List.mem_range]

theorem spritesInRange_ascending (s : State) (line : Nat) : (spritesInRange s line).Pairwise (· < ·) :=
  List.pairwise_lt_range.filter _

section
variable {l : List Nat} {n : Nat}

/-- In an ascending list, what is left out after `n` elements lies above these. -/
theorem lt_of_mem_take_of_mem_drop (h : l.Pairwise (· < ·)) {i j : Nat} (hj : j ∈ l.take n) (hi : i ∈ l.drop n) :
    j < i := by
  rw [← List.take_append_drop n l, List.pairwise_append] at h
  obtain ⟨-, -, hlt⟩ := h
  exact hlt j hj i hi

theorem mem_drop_of_not_mem_take {i : Nat} (hi : i ∈ l) (hn : i ∉ l.take n) : i ∈ l.drop n := by
  rw [← List.take_append_drop n l, List.mem_append] at hi
  exact hi.resolve_left hn

end

section
variable {s : State} {line : Nat}

/-- With rendering enabled the first eight sprites in range are selected (R309). -/
theorem selectedSprites_enabled (hr : renderingEnabled s.ppu = true) :
    selectedSprites s line = (spritesInRange s line).take 8 := if_pos hr

theorem spriteOverflow_enabled (hr : renderingEnabled s.ppu = true) :
    spriteOverflow s line = true ↔ 8 < (spritesInRange s line).length := by
  rw [spriteOverflow, hr, Bool.true_and, decide_eq_true_eq]

theorem mem_selectedSprites {i : Nat} (h : i ∈ selectedSprites s line) : i < 64 ∧ spriteInRange s line i = true := by
  unfold selectedSprites at h
  split at h
  · exact mem_spritesInRange.mp (List.mem_of_mem_take h)
  · cases h

theorem selectedSprites_ascending (s : State) (line : Nat) : (selectedSprites s line).Pairwise (· < ·) := by
  unfold selectedSprites
  split
  · exact (spritesInRange_ascending s line).sublist (List.take_sublist 8 _)
  · exact .nil

theorem length_selectedSprites_le (s : State) (line : Nat) : (selectedSprites s line).length ≤ 8 := by
  unfold selectedSprites
  split
  · exact List.length_take_le 8 _
  · exact Nat.zero_le 8

/-- A sprite in range that is not selected comes after eight others (R309, R313). -/
theorem not_selected_of_inRange (hr : renderingEnabled s.ppu = true) {i : Nat} (h64 : i < 64)
    (hi : spriteInRange s line i = true) (hn : i ∉ selectedSprites s line) :
    (selectedSprites s line).length = 8 ∧ (∀ j ∈ selectedSprites s line, j < i) ∧ spriteOverflow s line = true := by
  rw [selectedSprites_enabled hr] at hn ⊢
  have hdrop := mem_drop_of_not_mem_take (mem_spritesInRange.mpr ⟨h64, hi⟩) hn
  have hlength : 8 < (spritesInRange s line).length := by
    have := List.length_pos_of_mem hdrop
    rw [List.length_drop] at this
    omega
  exact ⟨List.length_take_of_le hlength.le,
    fun j hj => lt_of_mem_take_of_mem_drop (spritesInRange_ascending s line) hj hdrop,
    (spriteOverflow_enabled hr).mpr hlength⟩

/-- On overflow a sprite in range is left out: the ninth. -/
theorem exists_not_selected (hr : renderingEnabled s.ppu = true) (ho : spriteOverflow s line = true) :
    ∃ i < 64, i ∉ selectedSprites s line ∧ spriteInRange s line i = true := by
  have hlength := (spriteOverflow_enabled hr).mp ho
  have hdrop : (spritesInRange s line)[8] ∈ (spritesInRange s line).drop 8 :=
    List.mem_drop_iff_getElem.mpr ⟨0, by omega, rfl⟩
  obtain ⟨h64, hi⟩ := mem_spritesInRange.mp (List.mem_of_mem_drop hdrop)
  refine ⟨_, h64, fun htake => ?_, hi⟩
  rw [selectedSprites_enabled hr] at htake
  exact Nat.lt_irrefl _ (lt_of_mem_take_of_mem_drop (spritesInRange_ascending s line) htake hdrop)

/-! Who owns a pixel (R309, R310). -/

variable {px : Nat}

theorem ownerAt_hidden (hm : s.ppu.mask.getLsbD 4 = false) : ownerAt s line px = none := by
  rw [ownerAt, hm]
  rfl

/-- No selected sprite before the owner is opaque at its pixel. -/
theorem spriteAt_eq_none_of_lt_owner {i val : Nat} (h : ownerAt s line px = some (i, val)) {j : Nat}
    (hj : j ∈ selectedSprites s line) (hlt : j < i) : spriteAt s line px j = none := by
  have hascending := selectedSprites_ascending s line
  unfold ownerAt at h
  split at h
  · obtain ⟨before, k, after, hl, hk, hbefore⟩ := List.findSome?_eq_some_iff.mp h
    obtain ⟨v, -, hkv⟩ := Option.map_eq_some_iff.mp hk
    obtain rfl : k = i := congrArg Prod.fst hkv
    rw [hl] at hascending hj
    rcases List.mem_append.mp hj with hj | hj
    · exact Option.map_eq_none_iff.mp (hbefore j hj)
    · obtain ⟨-, hafter, -⟩ := List.pairwise_append.mp hascending
      rcases List.mem_cons.mp hj with rfl | hj
      · exact absurd hlt (Nat.lt_irrefl j)
      · exact absurd hlt (Nat.lt_asymm (List.rel_of_pairwise_cons hafter hj))
  · cases h

theorem spriteAt_eq_none_of_no_owner (h : ownerAt s line px = none) (hm : s.ppu.mask.getLsbD 4 = true) {j : Nat}
    (hj : j ∈ selectedSprites s line) : spriteAt s line px j = none := by
  rw [ownerAt, hm] at h
  exact Option.map_eq_none_iff.mp (List.findSome?_eq_none_iff.mp h j hj)

/-! What a sprite shows, in arithmetic (R310). -/

/-- A multiple of `2 ^ n` and a number below it have no bit in common. -/
theorem or_eq_add {n a b : Nat} (ha : 2 ^ n ∣ a) (hb : b < 2 ^ n) : a ||| b = a + b := by
  obtain ⟨k, rfl⟩ := ha
  exact (Nat.two_pow_add_eq_or_of_lt hb k).symm

/-- The row of sprite `i` on a line, turned round by vertical flip: `spritePattern`'s `row`. -/
def spriteRow (s : State) (line i : Nat) : Nat :=
  let down := line - ((spriteByte s i 0).toNat + 1)
  if (spriteByte s i 2).getLsbD 7 then spriteHeight s.ppu - 1 - down else down

theorem spriteRow_lt {i : Nat} (h : spriteInRange s line i = true) : spriteRow s line i < spriteHeight s.ppu := by
  simp only [spriteInRange, Bool.and_eq_true, decide_eq_true_eq] at h
  simp only [spriteRow]
  split <;> omega

/-- An address in the pattern tables: the table, the tile, the row (R93). -/
theorem pattern_address (b : Nat) {tile row : Nat} (ht : tile < 256) (hr : row < 16) :
    b <<< 12 ||| tile <<< 4 ||| row = 0x1000 * b + 16 * tile + row := by
  have htable : b <<< 12 ||| tile <<< 4 = b <<< 12 + tile <<< 4 := or_eq_add (n := 12) (by omega) (by omega)
  rw [htable, or_eq_add (n := 4) (by omega) (by omega)]
  omega

theorem spriteHeight_short (hc : s.ppu.ctrl.getLsbD 5 = false) : spriteHeight s.ppu = 8 :=
  if_neg (Bool.eq_false_iff.mp hc)

theorem spriteHeight_tall (hc : s.ppu.ctrl.getLsbD 5 = true) : spriteHeight s.ppu = 16 := if_pos hc

/-- The tile of 8x8 mode is in the table that PPUCTRL selects. -/
theorem spritePattern_short {i : Nat} (hc : s.ppu.ctrl.getLsbD 5 = false) (h : spriteInRange s line i = true) :
    spritePattern s line i =
      0x1000 * (s.ppu.ctrl.getLsbD 3).toNat + 16 * (spriteByte s i 1).toNat + spriteRow s line i := by
  have hrow := spriteHeight_short hc ▸ spriteRow_lt h
  rw [← pattern_address _ (spriteByte s i 1).isLt (by omega)]
  exact if_pos (spriteHeight_short hc)

theorem toNat_and_even (b : Byte) : b.toNat &&& 0xFE = b.toNat / 2 * 2 := by
  have hmask : b &&& 0xFE#8 = b >>> 1 <<< 1 := (BitVec.shiftLeft_ushiftRight (x := b) (n := 1)).symm
  have heven := congrArg BitVec.toNat hmask
  rw [BitVec.toNat_and, BitVec.toNat_shiftLeft, BitVec.toNat_ushiftRight, Nat.shiftRight_eq_div_pow,
    Nat.shiftLeft_eq] at heven
  exact heven.trans (Nat.mod_eq_of_lt (by omega))

/-- The tile of 8x16 mode names its table itself, and is the upper or the lower of two. -/
theorem spritePattern_tall {i : Nat} (hc : s.ppu.ctrl.getLsbD 5 = true) (h : spriteInRange s line i = true) :
    spritePattern s line i =
      0x1000 * ((spriteByte s i 1).toNat % 2) +
        16 * ((spriteByte s i 1).toNat / 2 * 2 + spriteRow s line i / 8) + spriteRow s line i % 8 := by
  have hrow := spriteHeight_tall hc ▸ spriteRow_lt h
  have htile := (spriteByte s i 1).isLt
  rw [← pattern_address _ (by omega) (by omega), ← toNat_and_even, ← Nat.and_one_is_mod,
    ← Nat.shiftRight_eq_div_pow _ 3, ← Nat.and_two_pow_sub_one_eq_mod _ 3]
  exact if_neg (by rw [spriteHeight_tall hc]; decide)

/-- Pixel `px` is one of sprite `i`'s eight columns, on the line and not clipped. -/
def SpriteCovers (s : State) (px i : Nat) : Prop :=
  (spriteByte s i 3).toNat ≤ px ∧ px < (spriteByte s i 3).toNat + 8 ∧ px < 256 ∧ (8 ≤ px ∨ s.ppu.mask.getLsbD 2 = true)

/-- A sprite shows its colour value where it covers the pixel and is opaque. -/
theorem spriteAt_eq_some_iff {i val : Nat} : spriteAt s line px i = some val ↔
    SpriteCovers s px i ∧ val ≠ 0 ∧ val = spriteValue s line i (px - (spriteByte s i 3).toNat) := by
  simp only [spriteAt, Option.ite_none_right_eq_some, Option.ite_none_left_eq_some, Option.some.injEq, SpriteCovers]
  grind

theorem spriteShows_iff {i val : Nat} (h : spriteInRange s line i = true) : SpriteShows s line px i val ↔
    SpriteCovers s px i ∧ val ≠ 0 ∧ val = spriteValue s line i (px - (spriteByte s i 3).toNat) := by
  rw [SpriteCovers, and_assoc, and_assoc, and_assoc, spriteValue]
  cases hc : s.ppu.ctrl.getLsbD 5
  · rw [spritePattern_short hc h, spriteRow, spriteHeight_short hc]
    simp only [SpriteShows, hc]
    rfl
  · rw [spritePattern_tall hc h, spriteRow, spriteHeight_tall hc]
    simp only [SpriteShows, hc]
    rfl

end

/-- Settles O59: the selection is the first eight of an ascending list, the owner the first of them that is opaque, and what a
sprite shows is `spriteAt_eq_some_iff`. -/
theorem spriteEvaluation : Obligations.SpriteEvaluation := by
  intro s line hr
  refine ⟨length_selectedSprites_le s line, selectedSprites_ascending s line, fun i hi => ?_, fun i h64 hlow hhigh hn => ?_,
    exists_not_selected hr, fun px => ⟨fun i val ho => ?_, fun ho hm j hj => ?_, ownerAt_hidden, fun i hi val => ?_⟩⟩
  · obtain ⟨h64, hrange⟩ := mem_selectedSprites hi
    exact ⟨h64, spriteInRange_iff.mp hrange⟩
  · exact not_selected_of_inRange hr h64 (spriteInRange_iff.mpr ⟨hlow, hhigh⟩) hn
  · obtain ⟨hi, hshows⟩ := spriteAt_of_ownerAt ho
    exact ⟨hi, hshows, fun j hj => spriteAt_eq_none_of_lt_owner ho hj⟩
  · exact spriteAt_eq_none_of_no_owner ho hm hj
  · rw [spriteAt_eq_some_iff, spriteShows_iff (mem_selectedSprites hi).2]

/-! The background, in arithmetic (R307). -/

/-- The low bit of a nametable's number toggled by the column's carry. -/
theorem nametable_xor_carry {nt : Nat} (h : nt < 4) (k : Nat) : nt ^^^ k % 2 = 2 * (nt / 2) + (nt + k) % 2 := by
  have hbit : ∀ n < 4, ∀ b < 2, n ^^^ b = 2 * (n / 2) + (n + b) % 2 := by decide
  rw [hbit nt h _ (Nat.mod_lt k (by decide)), Nat.add_mod_mod]

theorem nametable_address {nt cy cx : Nat} (hnt : nt < 4) (hcy : cy < 32) (hcx : cx < 32) :
    0x2000 ||| nt <<< 10 ||| cy <<< 5 ||| cx = 0x2000 + 0x400 * nt + 32 * cy + cx := by
  have hbase : 0x2000 ||| nt <<< 10 = 0x2000 + nt <<< 10 := or_eq_add (n := 13) (by decide) (by omega)
  have hrow : 0x2000 + nt <<< 10 ||| cy <<< 5 = 0x2000 + nt <<< 10 + cy <<< 5 :=
    or_eq_add (n := 10) (by omega) (by omega)
  rw [hbase, hrow, or_eq_add (n := 5) (by omega) (by omega)]
  omega

theorem attr_address {nt cy cx : Nat} (hnt : nt < 4) (hcy : cy < 8) (hcx : cx < 8) :
    0x23C0 ||| nt <<< 10 ||| cy <<< 3 ||| cx = 0x2000 + 0x400 * nt + 0x3C0 + 8 * cy + cx := by
  have hbase : 0x23C0 ||| nt <<< 10 = 0x23C0 + nt <<< 10 := by
    have h : ∀ n < 4, 0x23C0 ||| n <<< 10 = 0x23C0 + n <<< 10 := by decide
    exact h nt hnt
  have hrow : 0x23C0 + nt <<< 10 ||| cy <<< 3 = 0x23C0 + nt <<< 10 + cy <<< 3 :=
    or_eq_add (n := 6) (by omega) (by omega)
  rw [hbase, hrow, or_eq_add (n := 3) (by omega) (by omega)]
  omega

theorem and_two (n : Nat) : n &&& 2 = 2 * (n / 2 % 2) := by
  rw [show n &&& 2 = n &&& 2 ^ 1 from rfl, Nat.and_two_pow, Nat.toNat_testBit, Nat.mul_comm, Nat.pow_one]

/-- The two bits of an attr byte for the quadrant of row `cy` and column `c`. -/
theorem attr_bits (attr cy c : Nat) :
    attr / 2 ^ ((cy &&& 2) <<< 1 ||| (c % 32 &&& 2)) % 4 = attr / 4 ^ (2 * (cy / 2 % 2) + c / 2 % 2) % 4 := by
  have hquadrant : (cy &&& 2) <<< 1 ||| (c % 32 &&& 2) = 2 * (2 * (cy / 2 % 2) + c / 2 % 2) := by
    rw [and_two, and_two, or_eq_add (n := 2) (by omega) (by omega)]
    omega
  rw [hquadrant, Nat.pow_mul]

/-- The tile column that pixel `x` reaches, counted through two nametables: `BackgroundAt`'s `col`. -/
def bgColumn (s : State) (x : Nat) : Nat := s.ppu.v.toNat % 32 + (s.ppu.x.toNat + x) / 8

/-- `BackgroundAt`'s `row`. -/
def bgRow (s : State) : Nat := s.ppu.v.toNat / 32 % 32

/-- `BackgroundAt`'s `table`. -/
def bgTable (s : State) (x : Nat) : Nat :=
  0x2000 + 0x800 * (s.ppu.v.toNat / 0x800 % 2) + 0x400 * ((s.ppu.v.toNat / 0x400 + bgColumn s x / 32) % 2)

/-- `BackgroundAt`'s `tile`. -/
def bgTile (s : State) (x : Nat) : Byte := ppuRead (bgTable s x + 32 * bgRow s + bgColumn s x % 32) s

/-- `BackgroundAt`'s `attr`. -/
def bgAttr (s : State) (x : Nat) : Byte :=
  ppuRead (bgTable s x + 0x3C0 + 8 * (bgRow s / 4) + bgColumn s x % 32 / 4) s

/-- `BackgroundAt`'s `plane`. -/
def bgPlane (s : State) (x : Nat) : Nat :=
  0x1000 * (s.ppu.ctrl.getLsbD 4).toNat + 16 * (bgTile s x).toNat + s.ppu.v.toNat / 0x1000

/-- The bit operations of R307 are the quotients and remainders of `BackgroundAt`. -/
theorem bgUnclipped_eq (s : State) (x : Nat) : bgUnclipped s x =
    ⟨patternValue s (bgPlane s x) (7 - (s.ppu.x.toNat + x) % 8),
      (bgAttr s x).toNat / 4 ^ (2 * (bgRow s / 2 % 2) + bgColumn s x / 2 % 2) % 4⟩ := by
  have hv := s.ppu.v.isLt
  have htable : ∀ c, 0x2000 + 0x400 * (2 * (s.ppu.v.toNat / 2 ^ 10 % 4 / 2) +
      (s.ppu.v.toNat / 2 ^ 10 % 4 + c / 2 ^ 5) % 2) =
      0x2000 + 0x800 * (s.ppu.v.toNat / 0x800 % 2) + 0x400 * ((s.ppu.v.toNat / 0x400 + c / 32) % 2) := by
    omega
  have hfineY : s.ppu.v.toNat / 2 ^ 12 % 8 = s.ppu.v.toNat / 0x1000 := by omega
  have hand3 : ∀ n, n &&& 3 = n % 4 := fun n => Nat.and_two_pow_sub_one_eq_mod n 2
  have hand7 : ∀ n, n &&& 7 = n % 8 := fun n => Nat.and_two_pow_sub_one_eq_mod n 3
  have hand31 : ∀ n, n &&& 31 = n % 32 := fun n => Nat.and_two_pow_sub_one_eq_mod n 5
  simp only [bgUnclipped, Nat.shiftRight_eq_div_pow, Nat.and_one_is_mod, hand3, hand7, hand31]
  rw [nametable_xor_carry (by omega), nametable_address (by omega) (by omega) (by omega),
    attr_address (by omega) (by omega) (by omega), pattern_address _ (BitVec.isLt _) (by omega), attr_bits,
    htable, hfineY]
  rfl

theorem bgPixel_hidden {s : State} (x : Nat) (h : s.ppu.mask.getLsbD 3 = false) : bgPixel s x = ⟨0, 0⟩ := if_pos h

theorem bgPixel_shown {s : State} (x : Nat) (h : s.ppu.mask.getLsbD 3 = true) : bgPixel s x =
    ⟨if s.ppu.mask.getLsbD 1 = false ∧ x < 8 then 0 else (bgUnclipped s x).value, (bgUnclipped s x).palette⟩ := by
  rw [bgPixel, if_neg (by simp [h])]
  split <;> rfl

/-- The background is R307's at every pixel of every line. -/
theorem backgroundAt (s : State) (x : Nat) : BackgroundAt s x := by
  refine ⟨fun h => by rw [bgPixel_hidden x h], fun h => ?_⟩
  rw [bgPixel_shown x h, bgUnclipped_eq]
  exact ⟨rfl, rfl⟩

/-! The palette entry a pixel shows, and the pixel (R311, R314). -/

theorem renderingEnabled_iff (p : Ppu) : renderingEnabled p = true ↔ p.mask.getLsbD 3 = true ∨ p.mask.getLsbD 4 = true :=
  Bool.or_eq_true_iff

theorem renderingEnabled_eq_false_iff (p : Ppu) :
    renderingEnabled p = false ↔ p.mask.getLsbD 3 = false ∧ p.mask.getLsbD 4 = false :=
  Bool.or_eq_false_iff

theorem palette_shift_or {value : Nat} (h : value < 4) (palette : Nat) : palette <<< 2 ||| value = 4 * palette + value := by
  rw [or_eq_add (n := 2) (by omega) h]
  omega

theorem sprite_entry (b : Byte) {val : Nat} (h : val < 4) :
    0x10 ||| (b.toNat &&& 3) <<< 2 ||| val = 16 + 4 * (b.toNat % 4) + val := by
  have hand3 : b.toNat &&& 3 = b.toNat % 4 := Nat.and_two_pow_sub_one_eq_mod _ 2
  have hpalette : 0x10 ||| (b.toNat % 4) <<< 2 = 0x10 + (b.toNat % 4) <<< 2 :=
    or_eq_add (n := 4) (by decide) (by omega)
  rw [hand3, hpalette, or_eq_add (n := 2) (by omega) (by omega)]
  omega

theorem spriteByte_eq (s : State) (i k : Nat) : spriteByte s i k = oamByte (4 * i + k) s := rfl

/-- The entry that `Colour` chooses is R311's. -/
theorem colourIndex_eq_entryAt (s : State) (line x : Nat) : colourIndex s line x = entryAt s line x := by
  unfold colourIndex entryAt
  simp only [renderingEnabled_eq_false_iff, palette_shift_or (bgPixel_value_lt s x)]
  split
  next => rfl
  next =>
    cases ho : ownerAt s line x with
    | none => rfl
    | some o =>
      obtain ⟨i, val⟩ := o
      obtain ⟨-, hval⟩ := spriteAt_range (spriteAt_of_ownerAt ho).2
      dsimp only
      rw [sprite_entry _ hval, spriteByte_eq]
      split
      next => rfl
      next hbehind => exact if_neg fun h0 => hbehind (.inl h0)

/-- The entry is one of 32, and a sprite's is none that mirrors a backdrop (R104). -/
theorem entryAt_range (s : State) (line x : Nat) :
    entryAt s line x < 32 ∧ (16 ≤ entryAt s line x → entryAt s line x % 4 ≠ 0) := by
  have hvalue := bgPixel_value_lt s x
  have hpalette := bgPixel_palette_lt s x
  unfold entryAt
  dsimp only
  split
  next => omega
  next =>
    cases ho : ownerAt s line x with
    | none =>
      dsimp only
      split <;> omega
    | some o =>
      obtain ⟨i, val⟩ := o
      obtain ⟨hval0, hval⟩ := spriteAt_range (spriteAt_of_ownerAt ho).2
      dsimp only
      split <;> omega

theorem palIndex_entryAt (s : State) (line x : Nat) : palIndex (0x3F00 ||| entryAt s line x) = entryAt s line x := by
  obtain ⟨hlt, hsprite⟩ := entryAt_range s line x
  rw [or_eq_add (n := 8) (by decide) (by omega), palIndex]
  rw [if_neg (by omega)]
  omega

theorem colour_eq (s : State) (line x : Nat) :
    colour s line x = output s.ppu (Cells.read s.ppu.pal (entryAt s line x)) := by
  rw [colour, colourIndex_eq_entryAt, palIndex_entryAt]

theorem toNat_emphasis (p : Ppu) (c : BitVec 6) : (output p c).emphasis.toNat = p.mask.toNat / 32 := by
  simp only [output, BitVec.extractLsb'_toNat, Nat.shiftRight_eq_div_pow]
  omega

theorem length_linePixels (s : State) (line : Nat) : (linePixels s line).length = 256 := by
  rw [linePixels, List.length_map, List.length_range]

theorem getElem?_linePixels (s : State) (line : Nat) {x : Nat} (h : x < 256) :
    (linePixels s line)[x]? = some (colour s line x) := by
  rw [linePixels, List.getElem?_map, List.getElem?_range h, Option.map_some]

/-! The two sprite flags (R312, R313). -/

/-- The eight columns of sprite 0 are the pixels where it can be opaque. -/
theorem spriteZeroHit_iff (s : State) (line : Nat) : spriteZeroHit s line = true ↔
    s.ppu.mask.getLsbD 3 = true ∧ s.ppu.mask.getLsbD 4 = true ∧ 0 ∈ selectedSprites s line ∧
      ∃ x < 255, (spriteAt s line x 0).isSome = true ∧ (bgPixel s x).value ≠ 0 := by
  simp only [spriteZeroHit, Bool.and_eq_true, and_assoc, List.contains_iff_mem, List.any_eq_true, List.mem_range,
    bne_iff_ne]
  refine and_congr_right fun _ => and_congr_right fun _ => and_congr_right fun _ => ⟨?_, ?_⟩
  · rintro ⟨c, hc, hopaque, hbg, h255⟩
    obtain ⟨val, hval⟩ := Option.isSome_iff_exists.mp hopaque
    obtain ⟨⟨-, -, hpx, -⟩, -, -⟩ := spriteAt_eq_some_iff.mp hval
    exact ⟨_, by omega, hopaque, hbg⟩
  · rintro ⟨x, hx, hopaque, hbg⟩
    obtain ⟨val, hval⟩ := Option.isSome_iff_exists.mp hopaque
    obtain ⟨⟨hleft, hright, -, -⟩, -, -⟩ := spriteAt_eq_some_iff.mp hval
    refine ⟨x - (spriteByte s 0 3).toNat, by omega, ?_⟩
    rw [Nat.add_sub_cancel' hleft]
    exact ⟨hopaque, hbg, by omega⟩

theorem getLsbD_status_renderLine (s : State) (line : Nat) {k : Nat} (hk : k < 8) :
    (renderLine line s).ppu.status.getLsbD k = (s.ppu.status.getLsbD k || (decide (k = 5) && spriteOverflow s line) ||
      (decide (k = 6) && spriteZeroHit s line)) := by
  have h5 : ∀ k < 8, (0x20#8).getLsbD k = decide (k = 5) := by decide
  have h6 : ∀ k < 8, (0x40#8).getLsbD k = decide (k = 6) := by decide
  simp only [renderLine, BitVec.getLsbD_or]
  cases spriteOverflow s line <;> cases spriteZeroHit s line <;>
    simp only [if_true, Bool.false_eq_true, if_false, h5 k hk, h6 k hk, BitVec.getLsbD_zero, Bool.and_true,
      Bool.and_false]

theorem overflow_renderLine (s : State) (line : Nat) : (renderLine line s).ppu.status.getLsbD 5 = true ↔
    s.ppu.status.getLsbD 5 = true ∨ spriteOverflow s line = true := by
  rw [getLsbD_status_renderLine s line (by decide), decide_eq_true rfl, decide_eq_false (by decide), Bool.true_and,
    Bool.false_and, Bool.or_false, Bool.or_eq_true]

theorem hit_renderLine (s : State) (line : Nat) : (renderLine line s).ppu.status.getLsbD 6 = true ↔
    s.ppu.status.getLsbD 6 = true ∨ spriteZeroHit s line = true := by
  rw [getLsbD_status_renderLine s line (by decide), decide_eq_true rfl, decide_eq_false (by decide), Bool.true_and,
    Bool.false_and, Bool.or_false, Bool.or_eq_true]

theorem getLsbD_status_renderLine_other (s : State) (line : Nat) {k : Nat} (hk : k < 8) (h5 : k ≠ 5) (h6 : k ≠ 6) :
    (renderLine line s).ppu.status.getLsbD k = s.ppu.status.getLsbD k := by
  rw [getLsbD_status_renderLine s line hk, decide_eq_false h5, decide_eq_false h6, Bool.false_and, Bool.false_and,
    Bool.or_false, Bool.or_false]

/-- With rendering disabled the line leaves `v` and the flags. -/
theorem renderLine_disabled {s : State} (line : Nat) (h : renderingEnabled s.ppu = false) :
    (renderLine line s).ppu.v = s.ppu.v ∧ (renderLine line s).ppu.status = s.ppu.status := by
  have hoverflow : spriteOverflow s line = false := by rw [spriteOverflow, h, Bool.false_and]
  have hhit : spriteZeroHit s line = false := by
    rw [spriteZeroHit, ((renderingEnabled_eq_false_iff _).mp h).1, Bool.false_and, Bool.false_and, Bool.false_and]
  simp only [renderLine, h, hoverflow, hhit, Bool.false_eq_true, if_false, BitVec.or_zero, and_self]

/-! `v` after a line (R308): bits 4:0 are coarse X, 9:5 coarse Y, 11:10 the nametable, 14:12 fine Y. -/

theorem toNat_fineY (v : BitVec 15) : (v.extractLsb' 12 3).toNat = v.toNat / 0x1000 := by
  rw [BitVec.extractLsb'_toNat, Nat.shiftRight_eq_div_pow]
  omega

theorem toNat_coarseY (v : BitVec 15) : (v.extractLsb' 5 5).toNat = v.toNat / 0x20 % 0x20 := by
  rw [BitVec.extractLsb'_toNat, Nat.shiftRight_eq_div_pow]

theorem extractLsb'_congr {v w : BitVec 15} {start len : Nat}
    (h : ∀ k, start ≤ k → k < start + len → v.getLsbD k = w.getLsbD k) :
    v.extractLsb' start len = w.extractLsb' start len := by
  refine BitVec.eq_of_getLsbD_eq fun i hi => ?_
  rw [BitVec.getLsbD_extractLsb', BitVec.getLsbD_extractLsb', h _ (Nat.le_add_right start i) (by omega)]

theorem getLsbD_copyHorizontal (v t : BitVec 15) {k : Nat} (hk : k < 15) :
    (copyHorizontal v t).getLsbD k = if k < 5 ∨ k = 10 then t.getLsbD k else v.getLsbD k := by
  have hv : ∀ k < 15, (0x7BE0 : BitVec 15).getLsbD k = !decide (k < 5 ∨ k = 10) := by decide
  have ht : ∀ k < 15, (0x041F : BitVec 15).getLsbD k = decide (k < 5 ∨ k = 10) := by decide
  rw [copyHorizontal, BitVec.getLsbD_or, BitVec.getLsbD_and, BitVec.getLsbD_and, hv k hk, ht k hk]
  split
  next h => simp [h]
  next h => simp [h]

theorem fineY_copyHorizontal (v t : BitVec 15) : (copyHorizontal v t).extractLsb' 12 3 = v.extractLsb' 12 3 :=
  extractLsb'_congr fun k _ _ => by rw [getLsbD_copyHorizontal v t (by omega), if_neg (by omega)]

theorem coarseY_copyHorizontal (v t : BitVec 15) : (copyHorizontal v t).extractLsb' 5 5 = v.extractLsb' 5 5 :=
  extractLsb'_congr fun k _ _ => by rw [getLsbD_copyHorizontal v t (by omega), if_neg (by omega)]

/-- Fine Y below 7 counts up. -/
theorem toNat_incrementY_fine {v : BitVec 15} (h : v.toNat / 0x1000 < 7) :
    (incrementY v).toNat = 2 ^ 12 + v.toNat := by
  have h7 : v.extractLsb' 12 3 ≠ 7 := fun h7 => by
    rw [← toNat_fineY, h7] at h
    exact absurd h (by decide)
  have hv : incrementY v = v + 0x1000 := if_pos h7
  have hone : (0x1000 : BitVec 15).toNat = 2 ^ 12 := rfl
  rw [hv, BitVec.toNat_add, hone]
  omega

/-- Below fine Y nothing moves then. -/
theorem getLsbD_incrementY_fine {v : BitVec 15} (h : v.toNat / 0x1000 < 7) {k : Nat} (hk : k < 12) :
    (incrementY v).getLsbD k = v.getLsbD k := by
  rw [BitVec.getLsbD, toNat_incrementY_fine h, Nat.testBit_two_pow_add_gt hk, BitVec.getLsbD]

/-- The coarse Y after `y`: 29 is the last row of tiles, 31 the last that five bits can name. -/
def nextCoarseY (y : BitVec 5) : BitVec 5 := if y = 29 then 0 else if y = 31 then 0 else y + 1

theorem toNat_nextCoarseY (y : BitVec 5) :
    (nextCoarseY y).toNat = if y.toNat = 29 ∨ y.toNat = 31 then 0 else y.toNat + 1 := by
  have h : ∀ y : Fin 32, (nextCoarseY ⟨y⟩).toNat = if y.val = 29 ∨ y.val = 31 then 0 else y.val + 1 := by decide
  exact h y.toFin

/-- Fine Y 7 goes to 0 and coarse Y on, from row 29 to the vertically neighbouring nametable. -/
theorem getLsbD_incrementY_coarse {v : BitVec 15} (h : v.toNat / 0x1000 = 7) {k : Nat} (hk : k < 15) :
    (incrementY v).getLsbD k =
      if 12 ≤ k then false
      else if 5 ≤ k ∧ k < 10 then (nextCoarseY (v.extractLsb' 5 5)).getLsbD (k - 5)
      else (v.getLsbD k != decide (k = 11 ∧ v.extractLsb' 5 5 = 29)) := by
  have h7 : v.extractLsb' 12 3 = 7 := BitVec.eq_of_toNat_eq ((toNat_fineY v).trans h)
  have hlow : ∀ k < 15, (0x0FFF : BitVec 15).getLsbD k = decide (k < 12) := by decide
  have hkeep : ∀ k < 15, (0x7C1F : BitVec 15).getLsbD k = decide (k < 5 ∨ 10 ≤ k) := by decide
  have htoggle : ∀ k < 15, (0x0800 : BitVec 15).getLsbD k = decide (k = 11) := by decide
  have hy : (v &&& 0x0FFF).extractLsb' 5 5 = v.extractLsb' 5 5 := extractLsb'_congr fun k _ _ => by
    rw [BitVec.getLsbD_and, hlow k (by omega), decide_eq_true (by omega), Bool.and_true]
  have hv : incrementY v =
      (if v.extractLsb' 5 5 = 29 then v &&& 0x0FFF ^^^ 0x0800 else v &&& 0x0FFF) &&& (0x7C1F : BitVec 15) |||
        (nextCoarseY (v.extractLsb' 5 5)).setWidth 15 <<< 5 := by
    rw [incrementY, if_neg (not_not.mpr h7)]
    simp only [hy]
    rfl
  have htoggled : (if v.extractLsb' 5 5 = 29 then v &&& 0x0FFF ^^^ 0x0800 else v &&& 0x0FFF).getLsbD k =
      ((v.getLsbD k && decide (k < 12)) != decide (k = 11 ∧ v.extractLsb' 5 5 = 29)) := by
    split
    next h29 => simp only [BitVec.getLsbD_xor, BitVec.getLsbD_and, hlow k hk, htoggle k hk, h29, and_true, bne]
    next h29 => simp only [BitVec.getLsbD_and, hlow k hk, h29, and_false, decide_false, Bool.bne_false]
  have hnext : 10 ≤ k → (nextCoarseY (v.extractLsb' 5 5)).getLsbD (k - 5) = false :=
    fun h => BitVec.getLsbD_of_ge _ _ (by omega)
  rw [hv, BitVec.getLsbD_or, BitVec.getLsbD_and, hkeep k hk, htoggled, BitVec.getLsbD_shiftLeft,
    BitVec.getLsbD_setWidth]
  grind

/-- Fine Y goes to 0. -/
theorem fineY_incrementY_coarse {v : BitVec 15} (h : v.toNat / 0x1000 = 7) : (incrementY v).extractLsb' 12 3 = 0 := by
  refine BitVec.eq_of_getLsbD_eq fun i hi => ?_
  rw [BitVec.getLsbD_extractLsb', getLsbD_incrementY_coarse h (by omega), if_pos (by omega), Bool.and_false]
  exact BitVec.getLsbD_zero.symm

/-- Coarse Y goes on. -/
theorem coarseY_incrementY_coarse {v : BitVec 15} (h : v.toNat / 0x1000 = 7) :
    (incrementY v).extractLsb' 5 5 = nextCoarseY (v.extractLsb' 5 5) := by
  refine BitVec.eq_of_getLsbD_eq fun i hi => ?_
  rw [BitVec.getLsbD_extractLsb', getLsbD_incrementY_coarse h (by omega), if_neg (by omega), if_pos (by omega),
    Nat.add_sub_cancel_left, decide_eq_true hi, Bool.true_and]

/-- `v` for the next row, the horizontal part from `t`. -/
theorem v_renderLine_enabled {s : State} (line : Nat) (h : s.ppu.mask.getLsbD 3 = true ∨ s.ppu.mask.getLsbD 4 = true) :
    (renderLine line s).ppu.v = copyHorizontal (incrementY s.ppu.v) s.ppu.t := if_pos ((renderingEnabled_iff _).mpr h)

/-- Fine Y below 7: the row within the tiles goes on. -/
theorem nextRow_fine {v : BitVec 15} (t : BitVec 15) (h : v.toNat / 0x1000 < 7) :
    (∀ k, 5 ≤ k → k ≠ 10 → k < 12 → (copyHorizontal (incrementY v) t).getLsbD k = v.getLsbD k) ∧
    (copyHorizontal (incrementY v) t).toNat / 0x1000 = v.toNat / 0x1000 + 1 := by
  constructor
  · intro k h5 h10 hk
    rw [getLsbD_copyHorizontal _ _ (by omega), if_neg (by omega), getLsbD_incrementY_fine h hk]
  · rw [← toNat_fineY, fineY_copyHorizontal, toNat_fineY, toNat_incrementY_fine h]
    omega

/-- Fine Y 7: the first row of the next tiles. -/
theorem nextRow_coarse {v : BitVec 15} (t : BitVec 15) (h : v.toNat / 0x1000 = 7) :
    (copyHorizontal (incrementY v) t).toNat / 0x1000 = 0 ∧
    (copyHorizontal (incrementY v) t).toNat / 0x20 % 0x20 =
      (if v.toNat / 0x20 % 0x20 = 29 ∨ v.toNat / 0x20 % 0x20 = 31 then 0 else v.toNat / 0x20 % 0x20 + 1) ∧
    (copyHorizontal (incrementY v) t).getLsbD 11 = (v.getLsbD 11 != decide (v.toNat / 0x20 % 0x20 = 29)) := by
  refine ⟨?_, ?_, ?_⟩
  · rw [← toNat_fineY, fineY_copyHorizontal, fineY_incrementY_coarse h]
    rfl
  · rw [← toNat_coarseY, coarseY_copyHorizontal, coarseY_incrementY_coarse h, toNat_nextCoarseY, toNat_coarseY]
  · have h29 : v.extractLsb' 5 5 = 29 ↔ v.toNat / 0x20 % 0x20 = 29 := by
      rw [← toNat_coarseY, ← BitVec.toNat_inj]
      rfl
    rw [getLsbD_copyHorizontal _ _ (by decide), if_neg (by decide), getLsbD_incrementY_coarse h (by decide),
      if_neg (by decide), if_neg (by decide)]
    simp only [h29, true_and]

/-! The line as a whole (R303). -/

theorem v_atCycle (s : State) (c : Int) : (s.atCycle c).ppu.v = s.ppu.v := rfl

/-- Drawing a line does not depend on the cycle. -/
theorem renderLine_atCycle (line : Nat) (s : State) (c : Int) :
    renderLine line (s.atCycle c) = (renderLine line s).atCycle c := rfl

/-- Settles O58: the dot is `renderLine`; the pixels by `colour_eq` and `backgroundAt`, the flags by `overflow_renderLine`
and `hit_renderLine`, `v` by its fields. -/
theorem visibleLine : Obligations.VisibleLine := by
  intro s line hline hscanline hcycle
  rw [ppuStep_atCycle (c := 257) (by omega) (by decide) (by omega), dotEvents_renderLine hline hscanline,
    renderLine_atCycle]
  refine ⟨_, linePixels s line, rfl, rfl, length_linePixels s line, Sparse.find_put_self _ _ _,
    fun l hl => Sparse.find_put_ne _ _ _ _ hl,
    fun x hx => ⟨backgroundAt s x, colour s line x, getElem?_linePixels s line hx, ?_, ?_⟩, rfl,
    fun k => getLsbD_status_renderLine_other s line, overflow_renderLine s line, ?_,
    fun hbg hsprites => renderLine_disabled line ((renderingEnabled_eq_false_iff _).mpr ⟨hbg, hsprites⟩), fun hr => ?_⟩
  · rw [colour_eq, toNat_emphasis]
  · rw [colour_eq]
    rfl
  · rw [← spriteZeroHit_iff]
    exact hit_renderLine s line
  · rw [v_atCycle, v_renderLine_enabled line hr]
    exact ⟨fun k hk hx => (getLsbD_copyHorizontal _ _ hk).trans (if_pos hx), nextRow_fine _, nextRow_coarse _⟩

end Sys2Proof.Machine

/-! The family `60_exceptions.md`: the environment's events, the interrupt check, what stops a step, and the
controllers. -/

namespace Sys2Proof.Machine

/-! The environment's events (R361, R364, R365). -/

theorem startStep_no_batch {s : State} (h : s.inputs = []) : startStep s = { s with out := [] } := by
  simp only [startStep, applyInputs, h]

theorem startStep_batch {s : State} {es : List Input} {rest : List (List Input)} (h : s.inputs = es :: rest) :
    startStep s = es.foldl applyInput { s with out := [], inputs := rest } := by
  simp only [startStep, applyInputs, h]

/-- The first event of a batch acts before the others, on the state as it stands. -/
theorem startStep_cons {s : State} {e : Input} {es : List Input} {rest : List (List Input)}
    (h : s.inputs = (e :: es) :: rest) : startStep s = startStep { applyInput s e with inputs := es :: rest } := by
  rw [startStep_batch h, startStep_batch rfl, List.foldl_cons]
  cases e with
  | irqRequest => rfl
  | buttonChange player button pressed => cases player <;> rfl

theorem applyInput_buttonChange (s : State) (player : Player) (button : Button) (pressed : Bool) :
    ∃ b1 b2, applyInput s (.buttonChange player button pressed) =
        { s with pads := { s.pads with buttons1 := b1, buttons2 := b2 } } ∧
      (∀ k < 8, b1.getLsbD k = if player = .one ∧ k = button.bit then pressed else s.pads.buttons1.getLsbD k) ∧
      (∀ k < 8, b2.getLsbD k = if player = .two ∧ k = button.bit then pressed else s.pads.buttons2.getLsbD k) := by
  cases player with
  | one => exact ⟨_, s.pads.buttons2, rfl, fun k hk => by simp [getLsbD_putBit _ _ _ _ hk], fun k hk => by simp⟩
  | two => exact ⟨s.pads.buttons1, _, rfl, fun k hk => by simp, fun k hk => by simp [getLsbD_putBit _ _ _ _ hk]⟩

/-- Settles O8: `startStep` goes event by event. -/
theorem environmentEvents : Obligations.EnvironmentEvents := by
  intro s rest
  refine ⟨fun es h => startStep_cons h, startStep_no_batch, startStep_batch, fun player button pressed es h => ?_⟩
  obtain ⟨b1, b2, hb, hbits⟩ := applyInput_buttonChange s player button pressed
  exact ⟨b1, b2, by rw [startStep_cons h, hb], hbits⟩

/-! The interrupt check (R345, R346). -/

/-- A handler is entered whatever becomes of the pending requests. -/
theorem HandlerEntered.setPending {ret vector : Word} {status : Byte} {s t : State}
    (h : HandlerEntered ret status vector s t) (nmi irq : Bool) : HandlerEntered ret status vector s
      { t with cpu := { t.cpu with nmiPending := nmi, irqPending := irq } } :=
  { h with
    frame := { h.frame with
      regs := fun r hr => .trans (by cases r <;> rfl) (h.frame.regs r hr)
      rest := OnlyCpu.trans h.frame.rest rfl } }

theorem enterHandler_setC0 (ret : Word) (status : Byte) {vector : Word} (s : State) (hv : 0x8000 ≤ vector.toNat)
    (hv' : 0x8000 ≤ (vector + 1).toNat) (n : Nat) :
    enterHandler ret status vector { s with c0 := n } = { enterHandler ret status vector s with c0 := n } := by
  simp only [enterHandler, vectorAt_eq vector _ hv hv']
  rfl

/-- Settles O7: both entries are `enterHandler`, with the pending request served cleared. -/
theorem interruptCheck : Obligations.InterruptCheck := by
  intro s
  refine ⟨fun hn => ?_, fun hn hi hf => ?_, fun hn h => ?_⟩
  · have hp : pollInterrupts s = { enterNmi s with c0 := 7 } := if_pos hn
    have he := (enterHandler_entered s.cpu.pc (pushedByInterrupt s.cpu.p) (vector := 0xFFFA) { s with c0 := 7 }
      (by decide) (by decide)).setPending false s.cpu.irqPending
    rw [enterHandler_setC0 _ _ _ (by decide) (by decide)] at he
    rw [hp]
    exact ⟨he, rfl, rfl⟩
  · have hp : pollInterrupts s = { enterIrq s with c0 := 7 } := by
      rw [pollInterrupts, if_neg (by simp [hn]), if_pos ⟨hi, hf⟩]
    have he := (enterHandler_entered s.cpu.pc (pushedByInterrupt s.cpu.p) (vector := 0xFFFE) { s with c0 := 7 }
      (by decide) (by decide)).setPending s.cpu.nmiPending false
    rw [enterHandler_setC0 _ _ _ (by decide) (by decide)] at he
    rw [hp]
    exact ⟨he, hn, rfl⟩
  · have hmasked : ¬ (s.cpu.irqPending = true ∧ s.flag .i = false) := by
      rcases h with h | h <;> simp [h]
    rw [pollInterrupts, if_neg (by simp [hn]), if_neg hmasked]

/-! What stops a step (R342). -/

theorem fetch_wellFormed (s : State) : (fetch s).instr.wellFormed = true := by
  rcases fetch_cases s with ⟨o, a, b, -, hi, -⟩ | ⟨o, ho, hi⟩
  · rw [hi]
    exact wellFormed_instr o [a, b]
  · rw [hi]
    exact List.contains_iff_mem.mpr ho

/-- What an instruction of the table can end with: a next state, or one of R342's two faults. -/
theorem exec_outcome {i : Instr} (hi : i.wellFormed = true) (s : State) : (∃ t, exec i s = .next t) ∨
    (∃ o ∈ unmappedBytes, exec i s = .fault (.unknownOpcode o s.cpu.pc)) ∨
    (∃ a d, 0x8000 ≤ a.toNat ∧ exec i s = .fault (.romWrite a d)) := by
  rcases exec_allowed i s with h | ⟨o, rfl⟩
  · generalize exec i s = r at h
    cases h with
    | next t => exact .inl ⟨t, rfl⟩
    | rom a d ha => exact .inr (.inr ⟨a, d, ha, rfl⟩)
  · exact .inr (.inl ⟨o, List.contains_iff_mem.mp hi, rfl⟩)

/-- Settles O16: the step ends as its instruction does, and the fetch gives one of the table. -/
theorem onlyFatalCausesStop : Obligations.OnlyFatalCausesStop := by
  intro s
  rw [step_of_fetch rfl]
  rcases exec_outcome (fetch_wellFormed (pollInterrupts (startStep s))) _ with ⟨t, h⟩ | ⟨o, ho, h⟩ | ⟨a, d, ha, h⟩ <;>
    rw [h]
  · exact ⟨fun r => nofun, nofun⟩
  · refine ⟨fun r => nofun, ?_⟩
    rintro f ⟨⟩
    exact .inl ⟨o, _, rfl, ho⟩
  · refine ⟨fun r => nofun, ?_⟩
    rintro f ⟨⟩
    exact .inr ⟨a, d, rfl, ha⟩

/-! The controllers (R44, R364). -/

/-- The address a controller is read at. -/
def Player.port : Player → Word
  | .one => 0x4016
  | .two => 0x4017

/-- The buttons a player holds. -/
def Pads.buttons (p : Pads) : Player → Byte
  | .one => p.buttons1
  | .two => p.buttons2

/-- The shift register of a player's controller. -/
def Pads.shift (p : Pads) : Player → Byte
  | .one => p.shift1
  | .two => p.shift2

/-- A shift register after a read of its port. -/
def shiftedOut (strobe : Bool) (b : Byte) : Byte := if strobe then b else (b >>> 1) ||| 0x80

theorem getLsbD_shiftedOut (b : Byte) {j : Nat} (hj : j < 8) :
    (shiftedOut false b).getLsbD j = if j = 7 then true else b.getLsbD (j + 1) := by
  have hfill : ∀ j < 8, (0x80 : Byte).getLsbD j = decide (j = 7) := by decide
  have hb : shiftedOut false b = (b >>> 1) ||| 0x80 := rfl
  rw [hb, BitVec.getLsbD_or, BitVec.getLsbD_ushiftRight, hfill j hj, Nat.add_comm]
  split
  next h => rw [decide_eq_true h, Bool.or_true]
  next h => rw [decide_eq_false h, Bool.or_false]

theorem padShift_one (p : Pads) : padShift .one p = { p with shift1 := shiftedOut p.strobe p.shift1 } := by
  obtain ⟨_, _, _, _, strobe⟩ := p
  cases strobe <;> rfl

theorem padShift_two (p : Pads) : padShift .two p = { p with shift2 := shiftedOut p.strobe p.shift2 } := by
  obtain ⟨_, _, _, _, strobe⟩ := p
  cases strobe <;> rfl

theorem padShift_shift (k : Player) (p : Pads) : (padShift k p).shift k = shiftedOut p.strobe (p.shift k) := by
  cases k
  · rw [padShift_one]
    rfl
  · rw [padShift_two]
    rfl

/-- A read leaves the strobe and the buttons. -/
theorem padShift_keeps (k : Player) (p : Pads) :
    (padShift k p).strobe = p.strobe ∧ (padShift k p).buttons k = p.buttons k := by
  cases k
  · rw [padShift_one]
    exact ⟨rfl, rfl⟩
  · rw [padShift_two]
    exact ⟨rfl, rfl⟩

theorem padBit_strobed (k : Player) {p : Pads} (h : p.strobe = true) : padBit k p = (p.buttons k).getLsbD 0 := by
  cases k <;> simp [padBit, h, Pads.buttons]

theorem padBit_shifting (k : Player) {p : Pads} (h : p.strobe = false) : padBit k p = (p.shift k).getLsbD 0 := by
  cases k <;> simp [padBit, h, Pads.shift]

theorem cpuRead_port (k : Player) (s : State) : cpuRead k.port s = ctrlRead k s := by cases k <;> rfl

/-- The free bits of a read lie above bit 0 (D15, log 7). -/
theorem getLsbD_ctrlRead (k : Player) (s : State) : (ctrlRead k s).1.getLsbD 0 = padBit k s.pads := by
  simp only [ctrlRead, BitVec.getLsbD_or, BitVec.getLsbD_shiftLeft]
  cases padBit k s.pads <;> simp

theorem state_ctrlRead (k : Player) (s : State) :
    (ctrlRead k s).2 = { s with pads := padShift k s.pads, draws := s.draws + 1 } := rfl

/-- While strobed every read gives the live A button. -/
theorem nthRead_strobed (k : Player) (n : Nat) {s : State} (h : s.pads.strobe = true) :
    (nthRead k.port n s).getLsbD 0 = (s.pads.buttons k).getLsbD 0 := by
  induction n generalizing s with
  | zero => rw [nthRead, cpuRead_port, getLsbD_ctrlRead, padBit_strobed k h]
  | succ n ih =>
    obtain ⟨hstrobe, hbuttons⟩ := padShift_keeps k s.pads
    rw [nthRead, cpuRead_port, ih (hstrobe.trans h), state_ctrlRead, hbuttons]

/-- Otherwise read `n` gives bit `n` of the shift register, and the fill from 8 on. -/
theorem nthRead_shifting (k : Player) (n : Nat) {s : State} (h : s.pads.strobe = false) :
    (nthRead k.port n s).getLsbD 0 = if n < 8 then (s.pads.shift k).getLsbD n else true := by
  induction n generalizing s with
  | zero => rw [nthRead, cpuRead_port, getLsbD_ctrlRead, padBit_shifting k h, if_pos (by decide)]
  | succ n ih =>
    obtain ⟨hstrobe, -⟩ := padShift_keeps k s.pads
    rw [nthRead, cpuRead_port, ih (hstrobe.trans h), state_ctrlRead, padShift_shift, h]
    rcases Nat.lt_trichotomy n 7 with hn | rfl | hn
    · rw [if_pos (by omega), if_pos (by omega), getLsbD_shiftedOut _ (by omega), if_neg (by omega)]
    · rw [if_pos (by decide), if_neg (by decide), getLsbD_shiftedOut _ (by decide), if_pos rfl]
    · rw [if_neg (by omega), if_neg (by omega)]

/-! The strobe. -/

theorem cpuWrite_strobe {d : Byte} (h : d.getLsbD 0 = true) (s : State) :
    cpuWrite 0x4016 d s = .next { s with pads := { s.pads with strobe := true } } := by
  change Host.Outcome.next (ctrlStrobe d s) = _
  simp only [ctrlStrobe, h, Bool.true_eq_false, and_false, if_false]

/-- The edge from 1 to 0 latches both controllers. -/
theorem cpuWrite_latch {d : Byte} (h : d.getLsbD 0 = false) {s : State} (hs : s.pads.strobe = true) :
    cpuWrite 0x4016 d s = .next { s with pads := { s.pads with
      shift1 := s.pads.buttons1, shift2 := s.pads.buttons2, strobe := false } } := by
  change Host.Outcome.next (ctrlStrobe d s) = _
  simp only [ctrlStrobe, h, hs, and_self, if_true]

theorem cpuWrite_no_edge {d : Byte} (h : d.getLsbD 0 = false) {s : State} (hs : s.pads.strobe = false) :
    cpuWrite 0x4016 d s = .next s := by
  change Host.Outcome.next (ctrlStrobe d s) = _
  simp only [ctrlStrobe, h, hs, Bool.false_eq_true, false_and, if_false]
  rw [← hs]

/-- What one read of a port gives and leaves in its shift register. -/
theorem port_read (k : Player) (s : State) :
    (s.pads.strobe = true → shiftedOut s.pads.strobe (s.pads.shift k) = s.pads.shift k ∧
      (ctrlRead k s).1.getLsbD 0 = (s.pads.buttons k).getLsbD 0) ∧
    (s.pads.strobe = false → (ctrlRead k s).1.getLsbD 0 = (s.pads.shift k).getLsbD 0 ∧
      ∀ j < 8, (shiftedOut s.pads.strobe (s.pads.shift k)).getLsbD j =
        if j = 7 then true else (s.pads.shift k).getLsbD (j + 1)) := by
  refine ⟨fun h => ⟨if_pos h, ?_⟩, fun h => ⟨?_, fun j hj => ?_⟩⟩
  · rw [getLsbD_ctrlRead, padBit_strobed k h]
  · rw [getLsbD_ctrlRead, padBit_shifting k h]
  · rw [h, getLsbD_shiftedOut _ hj]

theorem cpuRead_port_one (s : State) : cpuRead 0x4016 s = ((ctrlRead .one s).1,
    { s with pads := { s.pads with shift1 := shiftedOut s.pads.strobe s.pads.shift1 }, draws := s.draws + 1 }) := by
  rw [← padShift_one]
  exact cpuRead_port .one s

theorem cpuRead_port_two (s : State) : cpuRead 0x4017 s = ((ctrlRead .two s).1,
    { s with pads := { s.pads with shift2 := shiftedOut s.pads.strobe s.pads.shift2 }, draws := s.draws + 1 }) := by
  rw [← padShift_two]
  exact cpuRead_port .two s

/-- Settles O60: the strobe by its three cases, the repeated reads by `nthRead_strobed` and `nthRead_shifting`, one read by
`port_read`. -/
theorem controllersShiftOut : Obligations.ControllersShiftOut := by
  intro s d e hd he
  refine ⟨⟨_, _, cpuWrite_strobe hd s, cpuWrite_latch he rfl, rfl, rfl, fun n => ?_⟩, cpuWrite_no_edge he,
    ⟨_, _, cpuRead_port_one s, port_read .one s⟩, ⟨_, _, cpuRead_port_two s, port_read .two s⟩⟩
  exact ⟨nthRead_strobed .one n rfl, nthRead_strobed .two n rfl, nthRead_shifting .one n rfl,
    nthRead_shifting .two n rfl⟩

end Sys2Proof.Machine
